-- ==== Sys2Proof/Word.lean ====
section
/-! DEFINITION. The machine's words: the 64-bit container of an element, a digit or a parameter
word (R7, `XLEN`), the 32-bit command word (R90), and the operand fields of a command (R93). -/

namespace Sys2Proof

/-- The 64-bit container of a state register, a digit register, a parameter word, `din` and
`dout` (R7, R91). -/
abbrev Word := BitVec 64

/-- A command word `cw` (R90). -/
abbrev Cmd := BitVec 32

/-- A 5-bit register number `rd`, `ra` or `rb`: all 32 values name a register (R93, R96). -/
abbrev RegNum := BitVec 5

/-- A 20-bit word address of parameter memory (R93). -/
abbrev PAddr := BitVec 20

/-- An 8-bit number of a control and status register (R93). -/
abbrev CsrNum := BitVec 8

/-- An 8-bit number of a row of the `RC` region (R93). -/
abbrev RowNum := BitVec 8

end Sys2Proof
end

