-- ==== Sys2Proof/Config.lean ====
section
/-! DEFINITION. The parameters of the MAPU (R7): the two fields, their moduli and epsilons, and the
one open parameter a model can use, the byte order of a platform's bus. -/

namespace Sys2Proof

/-- The two fields the unit computes in (R7, R30). -/
inductive Field where
  /-- F64, `FSEL = 0`. -/
  | f64
  /-- F31, `FSEL = 1`. -/
  | f31
  deriving DecidableEq, Repr

/-- The field modulus `P(FSEL)` (R7): `2^64 - 2^32 + 1` and `2^31 - 1`. -/
def Field.modulus : Field → Nat
  | .f64 => 2 ^ 64 - 2 ^ 32 + 1
  | .f31 => 2 ^ 31 - 1

/-- The width `W` of R7: 64 bits for F64, 31 bits for F31. -/
def Field.width : Field → Nat
  | .f64 => 64
  | .f31 => 31

/-- The modulus's epsilon, `2^W - p` (R7). -/
def Field.eps (f : Field) : Nat := 2 ^ f.width - f.modulus

/-- The field a value of the one-bit `FSEL` (or of the `f` operand of `FIELD`) selects (R30). -/
def Field.ofBit (b : BitVec 1) : Field := if b = 1#1 then .f31 else .f64

/-- The order in which a byte-addressed bus carries the bytes of `cw` and `din`: the open parameter
`PORT_BYTE_ORDER` (R7, R69). -/
inductive ByteOrder where
  /-- The byte at the lowest bus address is bits 7 to 0. -/
  | little
  /-- The byte at the lowest bus address is the most significant one. -/
  | big
  deriving DecidableEq, Repr

/-- The default of `PORT_BYTE_ORDER` (R69). -/
def defaultPortByteOrder : ByteOrder := .little

end Sys2Proof
end

