-- ==== Sys2Proof/Syntax.lean ====
section
/-! DEFINITION. The 41 commands of the MAPU (R95), one constructor per row of the opcode map, with the
operand fields the row uses (R93); the fields a row does not use must be zero and are not operands. -/

namespace Sys2Proof

/-- A command of the MAPU. `SEAL` and `UNSEAL` are `sealUnit` and `unsealUnit`: the bare words are
taken in Lean. -/
inductive Instr where
  /-- `NOP`, R121: no operation. -/
  | nop
  /-- `WRS`, R122: write a raw value, range-checked, to `S[rd]`. -/
  | wrs (rd : RegNum)
  /-- `RDS`, R123: read `S[ra]`. -/
  | rds (ra : RegNum)
  /-- `MOV`, R124: copy `S[ra]` to `S[rd]`. -/
  | mov (rd ra : RegNum)
  /-- `WRD`, R125: write the digit register `DG[rd]`. -/
  | wrd (rd : RegNum)
  /-- `RDD`, R126: read the digit register `DG[ra]`. -/
  | rdd (ra : RegNum)
  /-- `WRP`, R127: write one word of parameter memory. -/
  | wrp (addr : PAddr)
  /-- `RDP`, R128: read one word of parameter memory. -/
  | rdp (addr : PAddr)
  /-- `CSRW`, R129: write a configuration CSR. -/
  | csrw (csr : CsrNum)
  /-- `CSRR`, R130: read a CSR. -/
  | csrr (csr : CsrNum)
  /-- `GETT`, R131: report the state width `T`. -/
  | gett
  /-- `FIELD`, R132: select the field and clear the unit. -/
  | field (f : BitVec 1)
  /-- `SEAL`, R133: end construction. -/
  | sealUnit
  /-- `UNSEAL`, R135: return to the construction phase. -/
  | unsealUnit
  /-- `CLRERR`, R136: clear the sticky error flags. -/
  | clrerr
  /-- `FADD`, R151: field addition. -/
  | fadd (rd ra rb : RegNum)
  /-- `FSUB`, R152: field subtraction. -/
  | fsub (rd ra rb : RegNum)
  /-- `FMUL`, R153: field multiplication. -/
  | fmul (rd ra rb : RegNum)
  /-- `FSQR`, R157: field square. -/
  | fsqr (rd ra : RegNum)
  /-- `FDBL`, R158: field double. -/
  | fdbl (rd ra : RegNum)
  /-- `FNEG`, R159: field negation. -/
  | fneg (rd ra : RegNum)
  /-- `FINV`, R160: field inverse. -/
  | finv (rd ra : RegNum)
  /-- `FPOW`, R161: power with the exponent `din`. -/
  | fpow (rd ra : RegNum)
  /-- `DECOMP`, R184: decompose `S[ra]` into the digit registers. -/
  | decomp (ra : RegNum)
  /-- `COMP`, R185: compose the digit registers into `S[rd]`. -/
  | comp (rd : RegNum)
  /-- `MDSD`, R198: dense layer with a matrix bank. -/
  | mdsd (bank : BitVec 1)
  /-- `MDSC`, R199: circulant layer. -/
  | mdsc
  /-- `MDSCH`, R200: cheap layer. -/
  | mdsch
  /-- `AFFINE`, R201: affine layer with a constant row. -/
  | affine (row : RowNum)
  /-- `ARC`, R212: add a row of round constants. -/
  | arc (row : RowNum)
  /-- `SBOXF`, R213: full S-box layer. -/
  | sboxf
  /-- `SBOX0`, R214: partial S-box layer. -/
  | sbox0
  /-- `SBOXI`, R216: inverse S-box layer. -/
  | sboxi
  /-- `BRICKS`, R218: bricks. -/
  | bricks
  /-- `BARS`, R223: bars, bit-trick (0) or lookup table (1). -/
  | bars (impl : BitVec 1)
  /-- `RCBARS`, R225: bars of the RC variant. -/
  | rcbars
  /-- `FEIS`, R227: Feistel step, with rotation when `rot = 1`. -/
  | feis (rot : BitVec 1) (row : RowNum)
  /-- `PSTART`, R247: begin a permutation. -/
  | pstart
  /-- `PSTEP`, R248: execute one round. -/
  | pstep
  /-- `PERM`, R249: run the permutation to its end. -/
  | perm
  /-- `PRESET`, R250: abandon the permutation. -/
  | preset
  deriving DecidableEq, Repr

/-- The mnemonic of a command's row in the opcode map (R95). -/
def Instr.mnemonic : Instr → String
  | .nop => "NOP"
  | .wrs _ => "WRS"
  | .rds _ => "RDS"
  | .mov _ _ => "MOV"
  | .wrd _ => "WRD"
  | .rdd _ => "RDD"
  | .wrp _ => "WRP"
  | .rdp _ => "RDP"
  | .csrw _ => "CSRW"
  | .csrr _ => "CSRR"
  | .gett => "GETT"
  | .field _ => "FIELD"
  | .sealUnit => "SEAL"
  | .unsealUnit => "UNSEAL"
  | .clrerr => "CLRERR"
  | .fadd _ _ _ => "FADD"
  | .fsub _ _ _ => "FSUB"
  | .fmul _ _ _ => "FMUL"
  | .fsqr _ _ => "FSQR"
  | .fdbl _ _ => "FDBL"
  | .fneg _ _ => "FNEG"
  | .finv _ _ => "FINV"
  | .fpow _ _ => "FPOW"
  | .decomp _ => "DECOMP"
  | .comp _ => "COMP"
  | .mdsd _ => "MDSD"
  | .mdsc => "MDSC"
  | .mdsch => "MDSCH"
  | .affine _ => "AFFINE"
  | .arc _ => "ARC"
  | .sboxf => "SBOXF"
  | .sbox0 => "SBOX0"
  | .sboxi => "SBOXI"
  | .bricks => "BRICKS"
  | .bars _ => "BARS"
  | .rcbars => "RCBARS"
  | .feis _ _ => "FEIS"
  | .pstart => "PSTART"
  | .pstep => "PSTEP"
  | .perm => "PERM"
  | .preset => "PRESET"

end Sys2Proof
end

