-- ==== Sys2Proof/WellFormed.lean ====
section
/-! DEFINITION. Which command terms are legal (R96). The operand types bound every field, so the only
checks left are the CSR numbers: register numbers are never illegal, and a reserved parameter address
is no illegal encoding (R96). -/

namespace Sys2Proof

/-- The CSR numbers of the table of R29: 0x00 to 0x0B and 0x10 to 0x13. -/
def isCsr (n : CsrNum) : Bool := n ≤ 0x0B#8 || (0x10#8 ≤ n && n ≤ 0x13#8)

/-- The CSRs that `CSRW` may write, those marked RW in R29: 0x01 to 0x0B. -/
def isWritableCsr (n : CsrNum) : Bool := 0x01#8 ≤ n && n ≤ 0x0B#8

/-- A command is well formed when R96 (c) and (d) do not make it illegal. -/
def Instr.wellFormed : Instr → Bool
  | .csrw csr => isWritableCsr csr
  | .csrr csr => isCsr csr
  | .nop | .wrs _ | .rds _ | .mov _ _ | .wrd _ | .rdd _ | .wrp _ | .rdp _ | .gett | .field _
  | .sealUnit | .unsealUnit | .clrerr | .fadd _ _ _ | .fsub _ _ _ | .fmul _ _ _ | .fsqr _ _
  | .fdbl _ _ | .fneg _ _ | .finv _ _ | .fpow _ _ | .decomp _ | .comp _ | .mdsd _ | .mdsc | .mdsch
  | .affine _ | .arc _ | .sboxf | .sbox0 | .sboxi | .bricks | .bars _ | .rcbars | .feis _ _
  | .pstart | .pstep | .perm | .preset => true

end Sys2Proof
end

