-- ==== Sys2Proof/Decode.lean ====
section
/-! DEFINITION. Decoding and encoding a command word (R90 to R97): the opcode map as a table of rows,
the decoder of R95, total on every word and rejecting by name, the byte view of the port (R69), and
the encoder. -/

namespace Sys2Proof

/-! ### The fields of a command word (R92) -/

/-- The opcode, bits 31:24, in every format. -/
def opField (cw : Cmd) : BitVec 8 := cw.extractLsb' 24 8

/-- `rd`, bits 23:19 of format R. -/
def rdField (cw : Cmd) : RegNum := cw.extractLsb' 19 5

/-- `ra`, bits 18:14 of format R. -/
def raField (cw : Cmd) : RegNum := cw.extractLsb' 14 5

/-- `rb`, bits 13:9 of format R. -/
def rbField (cw : Cmd) : RegNum := cw.extractLsb' 9 5

/-- `addr`, bits 19:0 of format M. -/
def addrField (cw : Cmd) : PAddr := cw.extractLsb' 0 20

/-- `csr`, bits 23:16 of format C. -/
def csrField (cw : Cmd) : CsrNum := cw.extractLsb' 16 8

/-- `f`, bit 23 of format L. -/
def flagField (cw : Cmd) : BitVec 1 := cw.extractLsb' 23 1

/-- `row`, bits 7:0 of format L. -/
def rowField (cw : Cmd) : RowNum := cw.extractLsb' 0 8

/-! ### The opcode map (R95) -/

/-- One row of the opcode map: a word spells the row's command exactly when `cw AND mask = pattern`. -/
structure OpRow where
  mnemonic : String
  pattern : Cmd
  mask : Cmd

/-- The row of each command, in the order of the map; the operands play no part. -/
def Instr.row : Instr → OpRow
  | .nop => ⟨"NOP", 0x00000000#32, 0xFFFFFFFF#32⟩
  | .wrs _ => ⟨"WRS", 0x01000000#32, 0xFF07FFFF#32⟩
  | .rds _ => ⟨"RDS", 0x02000000#32, 0xFFF83FFF#32⟩
  | .mov _ _ => ⟨"MOV", 0x03000000#32, 0xFF003FFF#32⟩
  | .wrd _ => ⟨"WRD", 0x04000000#32, 0xFF07FFFF#32⟩
  | .rdd _ => ⟨"RDD", 0x05000000#32, 0xFFF83FFF#32⟩
  | .wrp _ => ⟨"WRP", 0x06000000#32, 0xFFF00000#32⟩
  | .rdp _ => ⟨"RDP", 0x07000000#32, 0xFFF00000#32⟩
  | .csrw _ => ⟨"CSRW", 0x08000000#32, 0xFF00FFFF#32⟩
  | .csrr _ => ⟨"CSRR", 0x09000000#32, 0xFF00FFFF#32⟩
  | .gett => ⟨"GETT", 0x0A000000#32, 0xFFFFFFFF#32⟩
  | .field _ => ⟨"FIELD", 0x0B000000#32, 0xFF7FFFFF#32⟩
  | .sealUnit => ⟨"SEAL", 0x0C000000#32, 0xFFFFFFFF#32⟩
  | .unsealUnit => ⟨"UNSEAL", 0x0D000000#32, 0xFFFFFFFF#32⟩
  | .clrerr => ⟨"CLRERR", 0x0E000000#32, 0xFFFFFFFF#32⟩
  | .fadd _ _ _ => ⟨"FADD", 0x10000000#32, 0xFF0001FF#32⟩
  | .fsub _ _ _ => ⟨"FSUB", 0x11000000#32, 0xFF0001FF#32⟩
  | .fmul _ _ _ => ⟨"FMUL", 0x12000000#32, 0xFF0001FF#32⟩
  | .fsqr _ _ => ⟨"FSQR", 0x13000000#32, 0xFF003FFF#32⟩
  | .fdbl _ _ => ⟨"FDBL", 0x14000000#32, 0xFF003FFF#32⟩
  | .fneg _ _ => ⟨"FNEG", 0x15000000#32, 0xFF003FFF#32⟩
  | .finv _ _ => ⟨"FINV", 0x16000000#32, 0xFF003FFF#32⟩
  | .fpow _ _ => ⟨"FPOW", 0x17000000#32, 0xFF003FFF#32⟩
  | .decomp _ => ⟨"DECOMP", 0x18000000#32, 0xFFF83FFF#32⟩
  | .comp _ => ⟨"COMP", 0x19000000#32, 0xFF07FFFF#32⟩
  | .mdsd _ => ⟨"MDSD", 0x20000000#32, 0xFF7FFFFF#32⟩
  | .mdsc => ⟨"MDSC", 0x21000000#32, 0xFFFFFFFF#32⟩
  | .mdsch => ⟨"MDSCH", 0x22000000#32, 0xFFFFFFFF#32⟩
  | .affine _ => ⟨"AFFINE", 0x23000000#32, 0xFFFFFF00#32⟩
  | .arc _ => ⟨"ARC", 0x28000000#32, 0xFFFFFF00#32⟩
  | .sboxf => ⟨"SBOXF", 0x29000000#32, 0xFFFFFFFF#32⟩
  | .sbox0 => ⟨"SBOX0", 0x2A000000#32, 0xFFFFFFFF#32⟩
  | .sboxi => ⟨"SBOXI", 0x2B000000#32, 0xFFFFFFFF#32⟩
  | .bricks => ⟨"BRICKS", 0x2C000000#32, 0xFFFFFFFF#32⟩
  | .bars _ => ⟨"BARS", 0x2D000000#32, 0xFF7FFFFF#32⟩
  | .rcbars => ⟨"RCBARS", 0x2E000000#32, 0xFFFFFFFF#32⟩
  | .feis _ _ => ⟨"FEIS", 0x2F000000#32, 0xFF7FFF00#32⟩
  | .pstart => ⟨"PSTART", 0x30000000#32, 0xFFFFFFFF#32⟩
  | .pstep => ⟨"PSTEP", 0x31000000#32, 0xFFFFFFFF#32⟩
  | .perm => ⟨"PERM", 0x32000000#32, 0xFFFFFFFF#32⟩
  | .preset => ⟨"PRESET", 0x33000000#32, 0xFFFFFFFF#32⟩

/-- The command of the row with opcode `op`, its operands read from the fields of the row's format; none
where no row has that opcode (R95, R96 (a)). -/
def candidate (cw : Cmd) : Option Instr :=
  match (opField cw).toNat with
  | 0x00 => some .nop
  | 0x01 => some (.wrs (rdField cw))
  | 0x02 => some (.rds (raField cw))
  | 0x03 => some (.mov (rdField cw) (raField cw))
  | 0x04 => some (.wrd (rdField cw))
  | 0x05 => some (.rdd (raField cw))
  | 0x06 => some (.wrp (addrField cw))
  | 0x07 => some (.rdp (addrField cw))
  | 0x08 => some (.csrw (csrField cw))
  | 0x09 => some (.csrr (csrField cw))
  | 0x0A => some .gett
  | 0x0B => some (.field (flagField cw))
  | 0x0C => some .sealUnit
  | 0x0D => some .unsealUnit
  | 0x0E => some .clrerr
  | 0x10 => some (.fadd (rdField cw) (raField cw) (rbField cw))
  | 0x11 => some (.fsub (rdField cw) (raField cw) (rbField cw))
  | 0x12 => some (.fmul (rdField cw) (raField cw) (rbField cw))
  | 0x13 => some (.fsqr (rdField cw) (raField cw))
  | 0x14 => some (.fdbl (rdField cw) (raField cw))
  | 0x15 => some (.fneg (rdField cw) (raField cw))
  | 0x16 => some (.finv (rdField cw) (raField cw))
  | 0x17 => some (.fpow (rdField cw) (raField cw))
  | 0x18 => some (.decomp (raField cw))
  | 0x19 => some (.comp (rdField cw))
  | 0x20 => some (.mdsd (flagField cw))
  | 0x21 => some .mdsc
  | 0x22 => some .mdsch
  | 0x23 => some (.affine (rowField cw))
  | 0x28 => some (.arc (rowField cw))
  | 0x29 => some .sboxf
  | 0x2A => some .sbox0
  | 0x2B => some .sboxi
  | 0x2C => some .bricks
  | 0x2D => some (.bars (flagField cw))
  | 0x2E => some .rcbars
  | 0x2F => some (.feis (flagField cw) (rowField cw))
  | 0x30 => some .pstart
  | 0x31 => some .pstep
  | 0x32 => some .perm
  | 0x33 => some .preset
  | _ => none

/-- Why a word is no row's command. -/
inductive DecodeError where
  /-- R96 (a): no row has this opcode. -/
  | reservedOpcode (op : BitVec 8)
  /-- R96 (b): a must-be-zero bit or field of the row is not zero. -/
  | mustBeZero (mnemonic : String)
  deriving DecidableEq, Repr

/-- The decoder of R95: take the opcode, find its row, compare under the mask, read the fields. It is
total on all `2^32` words. (R96 (c) and (d), the CSR numbers, are `Instr.wellFormed`: log entry 8.) -/
def decode (cw : Cmd) : Except DecodeError Instr :=
  match candidate cw with
  | none => .error (.reservedOpcode (opField cw))
  | some i =>
    if cw &&& i.row.mask = i.row.pattern then .ok i else .error (.mustBeZero i.row.mnemonic)

/-- A word is legal when none of the four cases of R96 makes it illegal. -/
def legalWord (cw : Cmd) : Bool :=
  match decode cw with
  | .ok i => i.wellFormed
  | .error _ => false

/-! ### The encoder (R92, R95) -/

/-- A field's value at the bit position of its lowest bit, every other bit of the word zero. -/
def place {n : Nat} (v : BitVec n) (lo : Nat) : Cmd := v.setWidth 32 <<< lo

/-- A word of format R. -/
def encodeR (op : BitVec 8) (rd ra rb : RegNum) : Cmd :=
  place op 24 ||| place rd 19 ||| place ra 14 ||| place rb 9

/-- A word of format M. -/
def encodeM (op : BitVec 8) (addr : PAddr) : Cmd := place op 24 ||| place addr 0

/-- A word of format C. -/
def encodeC (op : BitVec 8) (csr : CsrNum) : Cmd := place op 24 ||| place csr 16

/-- A word of format L. -/
def encodeL (op : BitVec 8) (f : BitVec 1) (row : RowNum) : Cmd :=
  place op 24 ||| place f 23 ||| place row 0

/-- A word of format Z. -/
def encodeZ (op : BitVec 8) : Cmd := place op 24

/-- The one word of a command, a field that the row does not use being zero (R93). -/
def encode : Instr → Cmd
  | .nop => encodeZ 0x00#8
  | .wrs rd => encodeR 0x01#8 rd 0#5 0#5
  | .rds ra => encodeR 0x02#8 0#5 ra 0#5
  | .mov rd ra => encodeR 0x03#8 rd ra 0#5
  | .wrd rd => encodeR 0x04#8 rd 0#5 0#5
  | .rdd ra => encodeR 0x05#8 0#5 ra 0#5
  | .wrp addr => encodeM 0x06#8 addr
  | .rdp addr => encodeM 0x07#8 addr
  | .csrw csr => encodeC 0x08#8 csr
  | .csrr csr => encodeC 0x09#8 csr
  | .gett => encodeZ 0x0A#8
  | .field f => encodeL 0x0B#8 f 0#8
  | .sealUnit => encodeZ 0x0C#8
  | .unsealUnit => encodeZ 0x0D#8
  | .clrerr => encodeZ 0x0E#8
  | .fadd rd ra rb => encodeR 0x10#8 rd ra rb
  | .fsub rd ra rb => encodeR 0x11#8 rd ra rb
  | .fmul rd ra rb => encodeR 0x12#8 rd ra rb
  | .fsqr rd ra => encodeR 0x13#8 rd ra 0#5
  | .fdbl rd ra => encodeR 0x14#8 rd ra 0#5
  | .fneg rd ra => encodeR 0x15#8 rd ra 0#5
  | .finv rd ra => encodeR 0x16#8 rd ra 0#5
  | .fpow rd ra => encodeR 0x17#8 rd ra 0#5
  | .decomp ra => encodeR 0x18#8 0#5 ra 0#5
  | .comp rd => encodeR 0x19#8 rd 0#5 0#5
  | .mdsd bank => encodeL 0x20#8 bank 0#8
  | .mdsc => encodeZ 0x21#8
  | .mdsch => encodeZ 0x22#8
  | .affine row => encodeL 0x23#8 0#1 row
  | .arc row => encodeL 0x28#8 0#1 row
  | .sboxf => encodeZ 0x29#8
  | .sbox0 => encodeZ 0x2A#8
  | .sboxi => encodeZ 0x2B#8
  | .bricks => encodeZ 0x2C#8
  | .bars impl => encodeL 0x2D#8 impl 0#8
  | .rcbars => encodeZ 0x2E#8
  | .feis rot row => encodeL 0x2F#8 rot row
  | .pstart => encodeZ 0x30#8
  | .pstep => encodeZ 0x31#8
  | .perm => encodeZ 0x32#8
  | .preset => encodeZ 0x33#8

/-! ### The byte view of the port (R69) -/

/-- The integer that a list of bytes carries, the byte at the lowest bus address first, under the open
parameter `PORT_BYTE_ORDER`. -/
def ofBytes : ByteOrder → List (BitVec 8) → Nat
  | .little, bs => bs.foldr (fun b n => b.toNat + 256 * n) 0
  | .big, bs => bs.foldl (fun n b => 256 * n + b.toNat) 0

/-- The `count` bytes of an integer, the byte at the lowest bus address first. -/
def toBytes (order : ByteOrder) (count n : Nat) : List (BitVec 8) :=
  let le := (List.range count).map fun k => BitVec.ofNat 8 (n / 256 ^ k)
  match order with
  | .little => le
  | .big => le.reverse

/-- Why a list of bytes carries no command. -/
inductive ByteDecodeError where
  /-- Fewer than the four bytes of `cw` stand on the bus. -/
  | tooShort
  /-- The four bytes make a word that the decoder rejects. -/
  | word (e : DecodeError)
  deriving DecidableEq, Repr

/-- Decode the command at the head of a list of bytes on a byte-addressed bus, with the bytes left over:
total on any bytes. -/
def decodeBytes (order : ByteOrder) : List (BitVec 8) → Except ByteDecodeError (Instr × List (BitVec 8))
  | b0 :: b1 :: b2 :: b3 :: rest =>
    match decode (BitVec.ofNat 32 (ofBytes order [b0, b1, b2, b3])) with
    | .ok i => .ok (i, rest)
    | .error e => .error (.word e)
  | _ => .error .tooShort

/-- The command the decoder reads from an instruction whose low `nbits` bits are `w`, numbered as
`spec/opcode_table.json` numbers them: bit 0 is the least significant bit of the one command word. -/
def decodeTableWord (nbits w : Nat) : Option Instr :=
  match decode (BitVec.ofNat 32 (w % 2 ^ nbits)) with
  | .ok i => some i
  | .error _ => none

end Sys2Proof
end

