-- ==== Sys2Proof/Machine/State.lean ====
section
/-! DEFINITION. The state of the MAPU as plain data (R20 to R47), the errors a command can raise (R290),
the port (R91, R270), the state after reset (R47, R320), and the model's faults and refusals. -/

namespace Sys2Proof.Machine

/-- The errors of R290, each a status other than OK. -/
inductive Err where
  /-- Status 1: a raw value that was to become a field element is `>= p`. -/
  | notInField
  /-- Status 2: `FINV` of zero. -/
  | noInverse
  /-- Status 3: a software error of the Merkle accumulator; no command raises it. -/
  | notFound
  /-- Status 4: the configuration is not usable for the command. -/
  | invalidConfiguration
  /-- Status 5: the word does not spell a command. -/
  | illegalCommand
  /-- Status 6: `WRP`, `CSRW` or `SEAL` in the sealed phase. -/
  | paramsSealed
  /-- Status 7: a command that the sequencer state does not allow. -/
  | badSequence
  /-- Status 8: `WRP` or `RDP` to a reserved parameter address. -/
  | badAddress
  deriving DecidableEq, Repr

/-- The response of a transaction: the status `st` and the data-out `dout` (R91). -/
structure Response where
  st : BitVec 8
  dout : Word
  deriving DecidableEq, Repr

/-- What the host can do to the unit, and nothing else (R270): reset it (R320), or issue any command
word with any data-in. -/
inductive HostEvent where
  | reset
  | command (cw : Cmd) (din : Word)
  deriving DecidableEq, Repr

/-- Parameter memory: the words that differ from what an unlisted address reads as, by rising address
(R61: the smallest addressable unit is the 64-bit word; log entry 6). -/
abbrev Memory := List (Nat × Word)

/-- What an address that is not listed reads as: 0, the value of every parameter word after reset and
of every word never written (R47, R68). -/
def unlistedWord : Word := 0#64

/-- The canonical form of a memory: addresses strictly rising, and no entry equal to what an unlisted
address reads as. -/
def Memory.wf : Memory → Bool
  | [] => true
  | [(_, w)] => w != unlistedWord
  | (a, w) :: (b, x) :: m => w != unlistedWord && decide (a < b) && Memory.wf ((b, x) :: m)

/-- The sixteen control and status registers, each with its width (R29). -/
structure Csrs where
  /-- 0x00, field select (R30). -/
  fsel : BitVec 1
  /-- 0x01, state width (R31). -/
  t : BitVec 6
  /-- 0x02, round-structure variant (R32). -/
  var : BitVec 3
  /-- 0x03, S-box degree (R33). -/
  d : BitVec 3
  /-- 0x04, rounds of the first full block, or all rounds (R34). -/
  rfb : BitVec 8
  /-- 0x05, rounds of the middle block (R34). -/
  rp : BitVec 8
  /-- 0x06, rounds of the last full block (R34). -/
  rfe : BitVec 8
  /-- 0x07, words that `BARS` maps (R35). -/
  nbars : BitVec 6
  /-- 0x08, length of the radix sequence (R36). -/
  nradix : BitVec 6
  /-- 0x09, strategy of the linear layer (R37). -/
  lsel : BitVec 1
  /-- 0x0A, linear layer of the middle block (R38). -/
  isel : BitVec 1
  /-- 0x0B, variant 4: which rounds use bars (R39). -/
  barmask : BitVec 64
  /-- 0x10, 0 construction phase, 1 sealed phase (R40). -/
  lock : BitVec 1
  /-- 0x11, sequencer state: 0 NotStarted, 1 InRound, 2 Done (R27, R41). -/
  pstate : BitVec 2
  /-- 0x12, sequencer round index (R27, R42). -/
  rnd : BitVec 9
  /-- 0x13, sticky error flags (R43). -/
  errflags : BitVec 9
  deriving DecidableEq, Repr

/-- The state of the unit, and of its port. -/
structure State where
  /-- The state registers `S[0..31]` (R21). -/
  sreg : Vector Word 32
  /-- The digit registers `DG[0..31]` (R25). -/
  dg : Vector Word 32
  /-- The control and status registers (R29). -/
  csr : Csrs
  /-- The parameter memory `PM` (R61, R63). -/
  pm : Memory
  /-- The host's events that the unit has not yet taken, oldest first (log entry 1). -/
  input : List HostEvent
  /-- The data-in of the transaction being executed (R91, log entry 4). -/
  din : Word
  /-- The responses given so far, oldest first (R91, R326, log entry 3). -/
  responses : List Response
  deriving DecidableEq, Repr

/-- The state after reset (R47, R320, R321): everything 0, field F64, construction phase, NotStarted. The
port holds no event and no response (log entries 1, 3, 4). -/
def State.reset : State where
  sreg := Vector.replicate 32 0#64
  dg := Vector.replicate 32 0#64
  csr :=
    { fsel := 0#1, t := 0#6, var := 0#3, d := 0#3, rfb := 0#8, rp := 0#8, rfe := 0#8, nbars := 0#6,
      nradix := 0#6, lsel := 0#1, isel := 0#1, barmask := 0#64, lock := 0#1, pstate := 0#2,
      rnd := 0#9, errflags := 0#9 }
  pm := []
  input := []
  din := 0#64
  responses := []

/-- The reasons for which the machine stops. It has none: the MAPU never aborts, halts, locks up or enters
an error state (R292); every failing command answers a status and the unit goes on (log entry 21). -/
inductive Fault where
  deriving DecidableEq, Repr

/-- The reasons for which the model gives a command no meaning. -/
inductive Refusal where
  /-- Answered by an arm of `exec` whose command has no meaning yet, and by nothing else: a stop, so safe.
  Every command has its meaning, so nothing answers it. -/
  | notModelled (mnemonic : String)
  deriving DecidableEq, Repr

end Sys2Proof.Machine
end

