-- ==== Sys2Proof/Machine/Flags.lean ====
section
/-! DEFINITION. The status codes and the only flags of the unit, the sticky error flags (R28, R43, R290,
R293). -/

namespace Sys2Proof.Machine

/-- The status of a command that ran to its end (R290). -/
def okCode : BitVec 8 := 0#8

/-- The status code of an error (R290). -/
def Err.code : Err → BitVec 8
  | .notInField => 1#8
  | .noInverse => 2#8
  | .notFound => 3#8
  | .invalidConfiguration => 4#8
  | .illegalCommand => 5#8
  | .paramsSealed => 6#8
  | .badSequence => 7#8
  | .badAddress => 8#8

/-- The error flags after a command returned the status of `e`: `ERRFLAGS OR (1 << n)` (R293). -/
def stickyFlags (flags : BitVec 9) (e : Err) : BitVec 9 := flags ||| (1#9 <<< e.code.toNat)

end Sys2Proof.Machine
end

