-- ==== Sys2Proof/Machine/Ops.lean ====
section
/-! DEFINITION. The named operations of the machine: parameter memory and its regions (R60 to R68), the
register files (R21, R25), the control registers (R29), the response and the raise of an error (R91,
R292, R293), the checks a command makes (R120, R294), and the port (R20, R91, R320). -/

namespace Sys2Proof.Machine

/-! ### Parameter memory -/

/-- `MemRead(a, 1)`: the word at an address (R62, R68). -/
def memRead : Memory → Nat → Word
  | [], _ => unlistedWord
  | (b, w) :: m, a => if a = b then w else memRead m a

/-- `MemWrite(a, 1, v)`: the memory with the word at `a` set to `v` (R62), in canonical form. -/
def memWrite : Memory → Nat → Word → Memory
  | [], a, v => if v = unlistedWord then [] else [(a, v)]
  | (b, w) :: m, a, v =>
    if a < b then (if v = unlistedWord then (b, w) :: m else (a, v) :: (b, w) :: m)
    else if a = b then (if v = unlistedWord then m else (a, v) :: m)
    else (b, w) :: memWrite m a v

/-- The regions of R63. -/
inductive Region where
  | rc
  | mat0
  | mat1
  | crow
  | what
  | v
  | mu
  | radix
  | subst
  deriving DecidableEq, Repr

/-- Every region with its base word address and its size in words (R63). -/
def regionMap : List (Region × Nat × Nat) :=
  [(.rc, 0x00000, 8192), (.mat0, 0x02000, 1024), (.mat1, 0x02400, 1024), (.crow, 0x02800, 32),
   (.what, 0x02820, 32), (.v, 0x02840, 32), (.mu, 0x02860, 32), (.radix, 0x02880, 32),
   (.subst, 0x10000, 65536)]

/-- The region an address lies in; none where the address is reserved (R63, R67). -/
def regionOf (a : Nat) : Option Region :=
  (regionMap.find? fun row => row.2.1 ≤ a && a < row.2.1 + row.2.2).map (·.1)

/-- The write check of a word by the region it goes to (R64, R65, R66), for the field modulus `p`. -/
def wordCheck (p : Nat) (region : Region) (v : Word) : Option Err :=
  match region with
  | .radix => if v = 0#64 ∨ 65535 < v.toNat then some .invalidConfiguration else none
  | .subst => if 65535 < v.toNat then some .invalidConfiguration else none
  | .rc | .mat0 | .mat1 | .crow | .what | .v | .mu =>
    if p ≤ v.toNat then some .notInField else none

/-- The word of parameter memory at an address. -/
def State.word (s : State) (a : Nat) : Word := memRead s.pm a

/-- The state with one word of parameter memory written. -/
def State.setWord (s : State) (a : Nat) (v : Word) : State :=
  { s with pm := memWrite s.pm a v }

/-! ### The register files -/

/-- `S[r]`, as the unsigned integer the register holds (R21). -/
def State.elem (s : State) (r : RegNum) : Nat := (s.sreg[r.toNat]'r.isLt).toNat

/-- `S[r] <- v` (R10). -/
def State.setElem (s : State) (r : RegNum) (v : Nat) : State :=
  { s with sreg := s.sreg.set r.toNat (BitVec.ofNat 64 v) r.isLt }

/-- `DG[r]` (R25). -/
def State.digit (s : State) (r : RegNum) : Word := s.dg[r.toNat]'r.isLt

/-- `DG[r] <- v` (R25). -/
def State.setDigit (s : State) (r : RegNum) (v : Word) : State :=
  { s with dg := s.dg.set r.toNat v r.isLt }

/-- A register file with the list's integers written from register `k` on, one after the other. -/
def overwriteFrom (file : Vector Word 32) : Nat → List Nat → Vector Word 32
  | _, [] => file
  | k, v :: vs => overwriteFrom (file.setIfInBounds k (BitVec.ofNat 64 v)) (k + 1) vs

/-- A register file with its first registers, as many as the list is long, set to the list's integers, the
rest unchanged. -/
def overwrite (file : Vector Word 32) (vs : List Nat) : Vector Word 32 := overwriteFrom file 0 vs

/-- The state vector `(S[0], ..., S[t-1])`, `t = CSR.T` (R10, R23). -/
def State.vec (s : State) : List Nat := (s.sreg.toList.take s.csr.t.toNat).map BitVec.toNat

/-- `State(S) <- vs`: writes `S[0..t-1]` and leaves the rest unchanged (R10). -/
def State.setVec (s : State) (vs : List Nat) : State := { s with sreg := overwrite s.sreg vs }

/-- The first `n` digit registers (R25). -/
def State.digits (s : State) (n : Nat) : List Nat := (s.dg.toList.take n).map BitVec.toNat

/-- `DG[k] <- ds[k]` for every index of the list (R184). -/
def State.setDigits (s : State) (ds : List Nat) : State := { s with dg := overwrite s.dg ds }

/-! ### The control and status registers -/

/-- The value of a CSR, zero-extended to 64 bits; none where no CSR has the number (R29, R130). -/
def readCsr (c : Csrs) (n : CsrNum) : Option Word :=
  match n.toNat with
  | 0x00 => some (c.fsel.setWidth 64)
  | 0x01 => some (c.t.setWidth 64)
  | 0x02 => some (c.var.setWidth 64)
  | 0x03 => some (c.d.setWidth 64)
  | 0x04 => some (c.rfb.setWidth 64)
  | 0x05 => some (c.rp.setWidth 64)
  | 0x06 => some (c.rfe.setWidth 64)
  | 0x07 => some (c.nbars.setWidth 64)
  | 0x08 => some (c.nradix.setWidth 64)
  | 0x09 => some (c.lsel.setWidth 64)
  | 0x0A => some (c.isel.setWidth 64)
  | 0x0B => some c.barmask
  | 0x10 => some (c.lock.setWidth 64)
  | 0x11 => some (c.pstate.setWidth 64)
  | 0x12 => some (c.rnd.setWidth 64)
  | 0x13 => some (c.errflags.setWidth 64)
  | _ => none

/-- `CSR[n] <- din[w-1:0]` with `w` the width of the CSR (R129); none where `CSRW` may not write the
number: it is no CSR, or it is read-only (R29, R96). -/
def writeCsr (c : Csrs) (n : CsrNum) (din : Word) : Option Csrs :=
  match n.toNat with
  | 0x01 => some { c with t := din.setWidth 6 }
  | 0x02 => some { c with var := din.setWidth 3 }
  | 0x03 => some { c with d := din.setWidth 3 }
  | 0x04 => some { c with rfb := din.setWidth 8 }
  | 0x05 => some { c with rp := din.setWidth 8 }
  | 0x06 => some { c with rfe := din.setWidth 8 }
  | 0x07 => some { c with nbars := din.setWidth 6 }
  | 0x08 => some { c with nradix := din.setWidth 6 }
  | 0x09 => some { c with lsel := din.setWidth 1 }
  | 0x0A => some { c with isel := din.setWidth 1 }
  | 0x0B => some { c with barmask := din }
  | _ => none

/-- The state with the CSRs replaced. -/
def State.setCsr (s : State) (c : Csrs) : State := { s with csr := c }

/-- The state with the sequencer fields `PSTATE` and `RND` written (R27). -/
def State.setSequencer (s : State) (pstate : BitVec 2) (rnd : BitVec 9) : State :=
  { s with csr := { s.csr with pstate := pstate, rnd := rnd } }

/-- The state with the phase bit `LOCK` written and the sequencer NotStarted (R133, R135). -/
def State.setPhase (s : State) (lock : BitVec 1) : State :=
  { s with csr := { s.csr with lock := lock, pstate := 0#2, rnd := 0#9 } }

/-- The state with `ERRFLAGS` written (R136, R293). -/
def State.setErrFlags (s : State) (flags : BitVec 9) : State :=
  { s with csr := { s.csr with errflags := flags } }

/-! ### The response of a transaction -/

/-- The state with a response given. -/
def State.respond (s : State) (st : BitVec 8) (dout : Word) : State :=
  { s with responses := s.responses ++ [⟨st, dout⟩] }

/-- A command that ran to its end: status OK and the data-out its rule assigns (R91). -/
def State.answer (s : State) (dout : Word) : State := s.respond okCode dout

/-- `raise e`, the one way an error is taken (R292): the response is the error's status with `dout = 0`, the
error's bit of `ERRFLAGS` is set (R293), nothing else changes. -/
def State.raise (s : State) (e : Err) : State :=
  (s.setErrFlags (stickyFlags s.csr.errflags e)).respond e.code 0#64

/-! ### The frame of every command (R11, R120, R294) -/

/-- "Requires sealed" (R120). -/
def needsSealed (s : State) : Option Err :=
  if s.csr.lock = 0#1 then some .invalidConfiguration else none

/-- "Requires unsealed" (R120). -/
def needsUnsealed (s : State) : Option Err :=
  if s.csr.lock = 1#1 then some .paramsSealed else none

/-- "Requires not in round" (R120). -/
def needsNotInRound (s : State) : Option Err :=
  if s.csr.pstate = 1#2 then some .badSequence else none

/-- The check that raises `e` when `bad` holds. -/
def failIf (bad : Bool) (e : Err) : Option Err := if bad then some e else none

/-- The error of the first check that fails, in the order given (R294). -/
def firstFailure : List (Option Err) → Option Err
  | [] => none
  | some e :: _ => some e
  | none :: cs => firstFailure cs

/-- A command (R120): its checks in order, then its effect, the state it leaves and the data-out it
assigns, which may itself have no value and raise. It is atomic (R11): a raise is taken from the state
before the command. -/
def command (s : State) (checks : List (Option Err)) (effect : Except Err (State × Word)) :
    Host.Outcome State Fault Refusal :=
  match firstFailure checks with
  | some e => .next (s.raise e)
  | none =>
    match effect with
    | .error e => .next (s.raise e)
    | .ok (t, dout) => .next (t.answer dout)

/-- The effect that leaves the state `t` and assigns no data-out, so `dout = 0` (R91). -/
def done (t : State) : Except Err (State × Word) := .ok (t, 0#64)

/-- The effect that changes nothing and assigns a data-out. -/
def reply (s : State) (dout : Word) : Except Err (State × Word) := .ok (s, dout)

/-! ### The port -/

/-- The unit as reset leaves it, the port's record kept: what `FIELD` does but for `FSEL` (R132). -/
def State.cleared (s : State) (fsel : BitVec 1) : State :=
  { State.reset with
    csr := { State.reset.csr with fsel := fsel }
    input := s.input
    din := s.din
    responses := s.responses }

/-- The reset event (R320): the unit is as R47 says; no response is given. -/
def State.takeReset (s : State) (rest : List HostEvent) : State :=
  { State.reset with input := rest, responses := s.responses }

/-- The unit takes a command's data-in and the host's event is used up (R20, R91). -/
def State.takeCommand (s : State) (din : Word) (rest : List HostEvent) : State :=
  { s with input := rest, din := din }

/-- What taking the next host event comes to: a state in which nothing is left to run, or a command to
run. -/
inductive Fetched where
  | settled (t : State)
  | run (i : Instr) (t : State)

/-- Take the host's next event (R20). With none the unit holds its state (R304); a reset is taken as a
whole; a command word is decoded, and one that spells no row's command raises IllegalCommand (R96). -/
def fetch (s : State) : Fetched :=
  match s.input with
  | [] => .settled s
  | .reset :: rest => .settled (s.takeReset rest)
  | .command cw din :: rest =>
    match decode cw with
    | .ok i => .run i (s.takeCommand din rest)
    | .error _ => .settled ((s.takeCommand din rest).raise .illegalCommand)

/-- The state with a command word standing where the next event is taken: in place of the word at the
head of the input, whose data-in it keeps, or alone with data-in 0 (log entry 20). -/
def State.placeCommand (s : State) (cw : Cmd) : State :=
  match s.input with
  | .command _ din :: rest => { s with input := .command cw din :: rest }
  | .reset :: rest => { s with input := .command cw 0#64 :: rest }
  | [] => { s with input := [.command cw 0#64] }

end Sys2Proof.Machine
end

