-- ==== Sys2Proof/Machine/Operands.lean ====
section
/-! DEFINITION. What a command reads besides its operand fields: the field and its modulus (R9, R30), the
configuration (R31 to R39, R44), and the named entries of parameter memory (R63). -/

namespace Sys2Proof.Machine

/-! ### The configuration -/

/-- The field `FSEL` selects (R30). -/
def State.field (s : State) : Field := Field.ofBit s.csr.fsel

/-- `p = P(CSR.FSEL)` (R9, R120). -/
def State.p (s : State) : Nat := s.field.modulus

/-- The S-box degree `d = CSR.D` (R33). -/
def State.degree (s : State) : Nat := s.csr.d.toNat

/-- The total round count `R` (R44). -/
def State.rounds (s : State) : Nat :=
  if s.csr.var = 0#3 then s.csr.rfb.toNat + s.csr.rp.toNat + s.csr.rfe.toNat else s.csr.rfb.toNat

/-! ### The addresses of the entries of parameter memory (R63) -/

/-- The address of `RC[r][i]`. -/
def rcAddr (r i : Nat) : Nat := 0x00000 + 32 * r + i

/-- The address of `MAT[b][i][j]`: bank 0 at 0x02000, bank 1 at 0x02400. -/
def matAddr (b : BitVec 1) (i j : Nat) : Nat :=
  (if b = 0#1 then 0x02000 else 0x02400) + 32 * i + j

/-- The address of `CROW[j]`. -/
def crowAddr (j : Nat) : Nat := 0x02800 + j

/-- The address of `WHAT[j]`. -/
def whatAddr (j : Nat) : Nat := 0x02820 + j

/-- The address of `V[i]`. -/
def vAddr (i : Nat) : Nat := 0x02840 + i

/-- The address of `MU[i]`. -/
def muAddr (i : Nat) : Nat := 0x02860 + i

/-- The address of `RADIX[k]`. -/
def radixAddr (k : Nat) : Nat := 0x02880 + k

/-- The address of `SUBST[x]`. -/
def substAddr (x : Nat) : Nat := 0x10000 + x

/-! ### The entries themselves, as unsigned integers -/

/-- `RC[r][i]`. -/
def State.rc (s : State) (r i : Nat) : Nat := (s.word (rcAddr r i)).toNat

/-- `MAT[b][i][j]`, row `i`, column `j`. -/
def State.mat (s : State) (b : BitVec 1) (i j : Nat) : Nat := (s.word (matAddr b i j)).toNat

/-- `CROW[j]`, the first row of the circulant matrix. -/
def State.crow (s : State) (j : Nat) : Nat := (s.word (crowAddr j)).toNat

/-- `WHAT[j]`. -/
def State.what (s : State) (j : Nat) : Nat := (s.word (whatAddr j)).toNat

/-- `V[i]`, the coefficient of word 0 in the cheap layer. -/
def State.vCoeff (s : State) (i : Nat) : Nat := (s.word (vAddr i)).toNat

/-- `MU[i]`, the own scalar of a word in the cheap layer. -/
def State.muCoeff (s : State) (i : Nat) : Nat := (s.word (muAddr i)).toNat

/-- `RADIX[k]`. -/
def State.radix (s : State) (k : Nat) : Nat := (s.word (radixAddr k)).toNat

/-- `SUBST[x]`. -/
def State.subst (s : State) (x : Nat) : Nat := (s.word (substAddr x)).toNat

/-- The length `n = CSR.NRADIX` of the radix sequence (R36). -/
def State.numRadix (s : State) : Nat := s.csr.nradix.toNat

/-- The radix sequence `RADIX[0..n-1]` (R180). -/
def State.radices (s : State) : List Nat := (List.range s.numRadix).map s.radix

/-- The radix sequence is usable: `1 <= n <= 32` and no radix is zero (R180). -/
def State.radixUsable (s : State) : Bool :=
  1 ≤ s.numRadix && s.numRadix ≤ 32 && s.radices.all (· != 0)

end Sys2Proof.Machine
end

