-- ==== Sys2Proof/Machine/Arithmetic.lean ====
section
/-! DEFINITION. The arithmetic of `F_p` on unsigned integers, exact and reduced modulo `p` (R9, R150 to
R162), the two-step reduction datapaths (R154, R155), and the inverse exponent (R215). -/

namespace Sys2Proof.Machine

/-- `a +p b` (R9, R151). -/
def addMod (p a b : Nat) : Nat := (a + b) % p

/-- `a -p b`, the difference on unbounded integers taken modulo `p` (R9, R152). -/
def subMod (p a b : Nat) : Nat := (((a : Int) - (b : Int)) % (p : Int)).toNat

/-- `a *p b`, the product on unbounded integers taken modulo `p` (R9, R153). -/
def mulMod (p a b : Nat) : Nat := (a * b) % p

/-- `p - a`, and 0 for 0 (R159). -/
def negMod (p a : Nat) : Nat := if a = 0 then 0 else p - a

/-- Square-and-multiply over the low `n` bits of `e`, the most significant first, on an accumulator
(R161). -/
def powLoop (p a e : Nat) : Nat → Nat → Nat
  | 0, acc => acc
  | n + 1, acc =>
    let sq := mulMod p acc acc
    powLoop p a e n (if e.testBit n then mulMod p sq a else sq)

/-- `a ^p e` for an exponent of 64 bits: `acc = 1; for i = 63 down to 0 ...` (R9, R161). -/
def powMod (p a e : Nat) : Nat := powLoop p a e 64 1

/-- `inv_p(a)` of a non-zero element, as `a ^p (p - 2)` (R160, log entry 10). -/
def invMod (p a : Nat) : Nat := powMod p a (p - 2)

/-- `Σp` of the products of two vectors, word by word: the sum on unbounded integers, reduced once (R9,
R156). -/
def dotMod (p : Nat) (xs ys : List Nat) : Nat := (List.zipWith (· * ·) xs ys).sum % p

/-- `dinv(d, p)`: the `e` with `(d * e) mod (p - 1) = 1`, when `gcd(d, p - 1) = 1` (R215). With `k < d` and
`d` a divisor of `k * (p - 1) + 1`, the quotient is that `e` (log entry 15). -/
def inverseExponent (d p : Nat) : Option Nat :=
  if Nat.gcd d (p - 1) = 1 then
    ((List.range d).find? fun k => (k * (p - 1) + 1) % d == 0).map fun k => (k * (p - 1) + 1) / d
  else none

/-! ### The reduction datapaths -/

/-- The two-step reduction of a 128-bit product in F64 (R154). -/
def reduceF64 (x : BitVec 128) : Word :=
  let p := BitVec.ofNat 64 Field.f64.modulus
  let eps := BitVec.ofNat 64 Field.f64.eps
  let xLo : Word := x.extractLsb' 0 64
  let xHi : Word := x.extractLsb' 64 64
  let xHh : Word := (xHi.extractLsb' 32 32).setWidth 64
  let xHl : Word := (xHi.extractLsb' 0 32).setWidth 64
  let t0 := xLo - xHh
  let t0 := if xLo < xHh then t0 - eps else t0
  let t1 := xHl * eps
  let t2 := t0 + t1
  let t2 := if 2 ^ 64 ≤ t0.toNat + t1.toNat then t2 + eps else t2
  if p ≤ t2 then t2 - p else t2

/-- The two-step reduction of a 62-bit product in F31 (R155): the high-high part is empty. -/
def reduceF31 (x : BitVec 62) : Word :=
  let p := BitVec.ofNat 64 Field.f31.modulus
  let eps := BitVec.ofNat 64 Field.f31.eps
  let xLo : Word := (x.extractLsb' 0 31).setWidth 64
  let xHi : Word := (x.extractLsb' 31 31).setWidth 64
  let t := xLo + xHi * eps
  if p ≤ t then t - p else t

/-- The product of two containers reduced by the field's datapath (R154, R155). -/
def mulDatapath (f : Field) (a b : Word) : Word :=
  match f with
  | .f64 => reduceF64 (a.setWidth 128 * b.setWidth 128)
  | .f31 => reduceF31 (a.setWidth 62 * b.setWidth 62)

end Sys2Proof.Machine
end

