-- ==== Sys2Proof/Machine/DataConfig.lean ====
section
/-! DEFINITION. The commands of data movement, configuration and construction (R121 to R136). -/

namespace Sys2Proof.Machine

/-- `NOP` (R121). -/
def execNop (s : State) : Host.Outcome State Fault Refusal := command s [] (done s)

/-- `WRS sD <= value` (R122). -/
def execWrs (rd : RegNum) (s : State) : Host.Outcome State Fault Refusal :=
  command s [needsNotInRound s, failIf (s.p ≤ s.din.toNat) .notInField]
    (done (s.setElem rd s.din.toNat))

/-- `RDS sA` (R123). -/
def execRds (ra : RegNum) (s : State) : Host.Outcome State Fault Refusal :=
  command s [] (reply s (BitVec.ofNat 64 (s.elem ra)))

/-- `MOV sD, sA` (R124). -/
def execMov (rd ra : RegNum) (s : State) : Host.Outcome State Fault Refusal :=
  command s [needsNotInRound s] (done (s.setElem rd (s.elem ra)))

/-- `WRD gD <= value` (R125). -/
def execWrd (rd : RegNum) (s : State) : Host.Outcome State Fault Refusal :=
  command s [] (done (s.setDigit rd s.din))

/-- `RDD gA` (R126). -/
def execRdd (ra : RegNum) (s : State) : Host.Outcome State Fault Refusal :=
  command s [] (reply s (s.digit ra))

/-- `WRP addr <= value` (R127). -/
def execWrp (addr : PAddr) (s : State) : Host.Outcome State Fault Refusal :=
  command s
    [needsUnsealed s,
     failIf (regionOf addr.toNat).isNone .badAddress,
     (regionOf addr.toNat).bind fun region => wordCheck s.p region s.din]
    (done (s.setWord addr.toNat s.din))

/-- `RDP addr` (R128). -/
def execRdp (addr : PAddr) (s : State) : Host.Outcome State Fault Refusal :=
  command s [failIf (regionOf addr.toNat).isNone .badAddress] (reply s (s.word addr.toNat))

/-- `CSRW name <= value` (R129); a number it may not write is an illegal command, found before the phase is
looked at (R96, R294). -/
def execCsrw (csr : CsrNum) (s : State) : Host.Outcome State Fault Refusal :=
  command s [failIf (!isWritableCsr csr) .illegalCommand, needsUnsealed s]
    (match writeCsr s.csr csr s.din with
     | some c => done (s.setCsr c)
     | none => .error .illegalCommand)

/-- `CSRR name` (R130). -/
def execCsrr (csr : CsrNum) (s : State) : Host.Outcome State Fault Refusal :=
  command s [failIf (!isCsr csr) .illegalCommand]
    (match readCsr s.csr csr with
     | some v => reply s v
     | none => .error .illegalCommand)

/-- `GETT` (R131). -/
def execGett (s : State) : Host.Outcome State Fault Refusal :=
  command s [] (reply s (s.csr.t.setWidth 64))

/-- `FIELD f64` / `FIELD f31` (R132). -/
def execField (f : BitVec 1) (s : State) : Host.Outcome State Fault Refusal :=
  command s [] (done (s.cleared f))

/-- The greatest round count that `SEAL` accepts for a variant other than 0 (R134 (f)). -/
def maxRounds (var : BitVec 3) : Nat :=
  match var.toNat with
  | 1 => 128
  | 2 => 256
  | 3 => 256
  | 4 => 64
  | _ => 0

/-- The checks (a) to (h) of `SEAL`, in that order (R134). -/
def sealChecks (s : State) : List Bool :=
  let c := s.csr
  [2 ≤ c.t.toNat && c.t.toNat ≤ 32,
   c.var.toNat ≤ 4,
   c.d == 3#3 || c.d == 5#3 || c.d == 7#3,
   c.nbars.toNat ≤ c.t.toNat,
   c.var != 0#3 ||
    (1 ≤ c.rfb.toNat + c.rp.toNat + c.rfe.toNat && c.rfb.toNat + c.rp.toNat + c.rfe.toNat ≤ 256),
   c.var == 0#3 ||
    (c.rp == 0#8 && c.rfe == 0#8 && 1 ≤ c.rfb.toNat && c.rfb.toNat ≤ maxRounds c.var),
   c.var != 1#3 || Nat.gcd c.d.toNat (s.p - 1) == 1,
   c.var != 4#3 || (c.t == 3#6 && s.radixUsable)]

/-- All the checks of `SEAL` hold (R134). -/
def sealOk (s : State) : Bool := (sealChecks s).all id

/-- `SEAL` (R133). -/
def execSealUnit (s : State) : Host.Outcome State Fault Refusal :=
  command s [needsUnsealed s, failIf (!sealOk s) .invalidConfiguration] (done (s.setPhase 1#1))

/-- `UNSEAL` (R135). -/
def execUnsealUnit (s : State) : Host.Outcome State Fault Refusal :=
  command s [] (done (s.setPhase 0#1))

/-- `CLRERR` (R136). -/
def execClrerr (s : State) : Host.Outcome State Fault Refusal :=
  command s [] (done (s.setErrFlags 0#9))

end Sys2Proof.Machine
end

