-- ==== Sys2Proof/Machine/FieldArith.lean ====
section
/-! DEFINITION. The field arithmetic commands (R150 to R161): all require not in round, read every source
before the destination is written, and write a canonical value. -/

namespace Sys2Proof.Machine

/-- A field command that writes `v` to `S[rd]` (R150). -/
def fieldCommand (s : State) (rd : RegNum) (v : Nat) : Host.Outcome State Fault Refusal :=
  command s [needsNotInRound s] (done (s.setElem rd v))

/-- `FADD sD, sA, sB` (R151). -/
def execFadd (rd ra rb : RegNum) (s : State) : Host.Outcome State Fault Refusal :=
  fieldCommand s rd (addMod s.p (s.elem ra) (s.elem rb))

/-- `FSUB sD, sA, sB` (R152). -/
def execFsub (rd ra rb : RegNum) (s : State) : Host.Outcome State Fault Refusal :=
  fieldCommand s rd (subMod s.p (s.elem ra) (s.elem rb))

/-- `FMUL sD, sA, sB` (R153). -/
def execFmul (rd ra rb : RegNum) (s : State) : Host.Outcome State Fault Refusal :=
  fieldCommand s rd (mulMod s.p (s.elem ra) (s.elem rb))

/-- `FSQR sD, sA` (R157). -/
def execFsqr (rd ra : RegNum) (s : State) : Host.Outcome State Fault Refusal :=
  fieldCommand s rd (mulMod s.p (s.elem ra) (s.elem ra))

/-- `FDBL sD, sA` (R158). -/
def execFdbl (rd ra : RegNum) (s : State) : Host.Outcome State Fault Refusal :=
  fieldCommand s rd (mulMod s.p 2 (s.elem ra))

/-- `FNEG sD, sA` (R159). -/
def execFneg (rd ra : RegNum) (s : State) : Host.Outcome State Fault Refusal :=
  fieldCommand s rd (negMod s.p (s.elem ra))

/-- `FINV sD, sA` (R160). -/
def execFinv (rd ra : RegNum) (s : State) : Host.Outcome State Fault Refusal :=
  command s [needsNotInRound s, failIf (s.elem ra == 0) .noInverse]
    (done (s.setElem rd (invMod s.p (s.elem ra))))

/-- `FPOW sD, sA <= exponent`, the exponent being `din` (R161). -/
def execFpow (rd ra : RegNum) (s : State) : Host.Outcome State Fault Refusal :=
  fieldCommand s rd (powMod s.p (s.elem ra) s.din.toNat)

end Sys2Proof.Machine
end

