-- ==== Sys2Proof/Machine/Decompose.lean ====
section
/-! DEFINITION. Small-divisor decomposition and composition (R180 to R185). -/

namespace Sys2Proof.Machine

/-- Repeated division of `q` by the divisors in the order given; the last entry is the last quotient, not
reduced (R180). Each quotient and remainder is exact (R183). -/
def divideDown : List Nat → Nat → List Nat
  | [], q => [q]
  | r :: rs, q => (q % r) :: divideDown rs (q / r)

/-- `Decompose(x)` by the radices `r[0..n-1]`: the last radix divides first, `r[0]` never divides, digit `k`
stands at index `k` (R180). -/
def decompose (radices : List Nat) (x : Nat) : List Nat :=
  (divideDown radices.tail.reverse x).reverse

/-- Horner's rule from an accumulator: `acc = acc * r[k] + dg[k]` (R181). -/
def hornerFrom : Nat → List Nat → List Nat → Nat
  | acc, r :: rs, d :: ds => hornerFrom (acc * r + d) rs ds
  | acc, _, _ => acc

/-- `Compose(dg)` on unbounded integers (R181). -/
def compose (radices digits : List Nat) : Nat :=
  match digits with
  | [] => 0
  | d :: ds => hornerFrom d radices.tail ds

/-- The check that the radix sequence is usable (R180). -/
def needsUsableRadix (s : State) : Option Err := failIf (!s.radixUsable) .invalidConfiguration

/-- `DECOMP sA` (R184). -/
def execDecomp (ra : RegNum) (s : State) : Host.Outcome State Fault Refusal :=
  command s [needsSealed s, needsUsableRadix s]
    (done (s.setDigits (decompose s.radices (s.elem ra))))

/-- `COMP sD` (R185). -/
def execComp (rd : RegNum) (s : State) : Host.Outcome State Fault Refusal :=
  command s
    [needsSealed s, needsNotInRound s, needsUsableRadix s,
     failIf (s.p ≤ compose s.radices (s.digits s.numRadix)) .notInField]
    (done (s.setElem rd (compose s.radices (s.digits s.numRadix))))

end Sys2Proof.Machine
end

