-- ==== Sys2Proof/Machine/LinearLayer.lean ====
section
/-! DEFINITION. The linear-layer engine: the functions `Dense`, `Circ`, `Cheap`, `Lin`, `Affine` on a state
vector (R190 to R197) and the layer commands (R198 to R202). -/

namespace Sys2Proof.Machine

/-- The vector of length `t` with the word `f i` at each index `i`. -/
def tabulate (t : Nat) (f : Nat → Nat) : List Nat := (List.range t).map f

/-- Word `i` of a state vector. -/
def wordAt (v : List Nat) (i : Nat) : Nat := v.getD i 0

/-- `Dense(b, s)`: the matrix of bank `b` times the state as a column (R190). -/
def dense (s : State) (b : BitVec 1) (v : List Nat) : List Nat :=
  tabulate v.length fun i => dotMod s.p (tabulate v.length fun j => s.mat b i j) v

/-- `Circ(s)`: the circulant matrix of `CROW`, row `i` being row 0 rotated right by `i`, times the state
(R191). The index `(j - i) mod t` is written without a negative number. -/
def circ (s : State) (v : List Nat) : List Nat :=
  tabulate v.length fun i =>
    dotMod s.p (tabulate v.length fun j => s.crow ((j + (v.length - i)) % v.length)) v

/-- `Cheap(s)`: the low-rank layer of the partial rounds (R194). -/
def cheap (s : State) (v : List Nat) : List Nat :=
  tabulate v.length fun i =>
    if i = 0 then dotMod s.p (tabulate v.length s.what) v
    else
      addMod s.p (mulMod s.p (s.muCoeff i) (wordAt v i)) (mulMod s.p (s.vCoeff i) (wordAt v 0))

/-- `Lin(s)`, the linear layer of the sequencer, by `LSEL` (R196). -/
def lin (s : State) (v : List Nat) : List Nat :=
  if s.csr.lsel = 0#1 then dense s 0#1 v else circ s v

/-- `Affine(k, s)`: identity plus all-ones, plus constant row `k` (R197). -/
def affine (s : State) (k : Nat) (v : List Nat) : List Nat :=
  tabulate v.length fun i => addMod s.p (addMod s.p (wordAt v i) (v.sum % s.p)) (s.rc k i)

/-- A command that replaces the state vector by a function of it, after its own checks (R202, R210): it
requires sealed and not in round. -/
def vectorCommand (s : State) (result : Except Err (List Nat)) : Host.Outcome State Fault Refusal :=
  command s [needsSealed s, needsNotInRound s]
    (match result with
     | .error e => .error e
     | .ok v => done (s.setVec v))

/-- `MDSD b` (R198). -/
def execMdsd (bank : BitVec 1) (s : State) : Host.Outcome State Fault Refusal :=
  vectorCommand s (.ok (dense s bank s.vec))

/-- `MDSC` (R199). -/
def execMdsc (s : State) : Host.Outcome State Fault Refusal := vectorCommand s (.ok (circ s s.vec))

/-- `MDSCH` (R200). -/
def execMdsch (s : State) : Host.Outcome State Fault Refusal := vectorCommand s (.ok (cheap s s.vec))

/-- `AFFINE k` (R201). -/
def execAffine (row : RowNum) (s : State) : Host.Outcome State Fault Refusal :=
  vectorCommand s (.ok (affine s row.toNat s.vec))

end Sys2Proof.Machine
end

