-- ==== Sys2Proof/Machine/RoundPrimitives.lean ====
section
/-! DEFINITION. The round primitives: constants, S-boxes, bricks, bars, the bars of the RC variant, the
Feistel step (R210 to R228), as functions on a state vector, and their commands. -/

namespace Sys2Proof.Machine

/-! ### Round constants and power S-boxes -/

/-- `AddRC(k, s)` (R211). -/
def addRc (s : State) (k : Nat) (v : List Nat) : List Nat :=
  tabulate v.length fun i => addMod s.p (wordAt v i) (s.rc k i)

/-- `SboxFull(s)`: `x ↦ x^d` on every word (R213). -/
def sboxFull (s : State) (v : List Nat) : List Nat :=
  tabulate v.length fun i => powMod s.p (wordAt v i) s.degree

/-- `SboxWord0(s)`: `x ↦ x^d` on word 0 only (R214). -/
def sboxWord0 (s : State) (v : List Nat) : List Nat :=
  tabulate v.length fun i => if i = 0 then powMod s.p (wordAt v 0) s.degree else wordAt v i

/-- `SboxInv(s)`: `x ↦ x^(1/d mod p-1)` on every word, 0 to 0; no value where the exponent does not exist
(R215, R216). -/
def sboxInv (s : State) (v : List Nat) : Except Err (List Nat) :=
  match inverseExponent s.degree s.p with
  | none => .error .invalidConfiguration
  | some e =>
    .ok (tabulate v.length fun i => if wordAt v i = 0 then 0 else powMod s.p (wordAt v i) e)

/-! ### Bricks -/

/-- `Bricks(s)`: every word but the first adds the square of the old word before it (R217). -/
def bricks (s : State) (v : List Nat) : List Nat :=
  tabulate v.length fun i =>
    if i = 0 then wordAt v 0
    else addMod s.p (wordAt v i) (mulMod s.p (wordAt v (i - 1)) (wordAt v (i - 1)))

/-! ### Bars (byte-sliced) -/

/-- `BarLane_w(x)`, with rotations and complement within the `w` bits of the lane (R219). -/
def barLane {w : Nat} (x : BitVec w) : BitVec w :=
  x ^^^ (~~~(x.rotateLeft 1) &&& x.rotateLeft 2 &&& x.rotateLeft 3)

/-- Lane `k` of a word, 8 bits wide: bits `8k+7` to `8k` (R220). -/
def lane8 (x : Word) (k : Nat) : BitVec 8 := x.extractLsb' (8 * k) 8

/-- The last lane in F31, 7 bits wide: bits 30:24 (R220). -/
def lane7 (x : Word) : BitVec 7 := x.extractLsb' 24 7

/-- `BarWord(x)` by the bit-trick implementation: eight 8-bit lanes in F64; three 8-bit lanes and one 7-bit
lane in F31, where bits 63:31 are 0 (R220). -/
def barWord (f : Field) (x : Word) : Word :=
  match f with
  | .f64 =>
    barLane (lane8 x 7) ++ barLane (lane8 x 6) ++ barLane (lane8 x 5) ++ barLane (lane8 x 4) ++
      barLane (lane8 x 3) ++ barLane (lane8 x 2) ++ barLane (lane8 x 1) ++ barLane (lane8 x 0)
  | .f31 =>
    0#33 ++ barLane (lane7 x) ++ barLane (lane8 x 2) ++ barLane (lane8 x 1) ++ barLane (lane8 x 0)

/-- The entry of the byte-pair table at a 16-bit index (R222). -/
def lut16 (index : BitVec 16) : BitVec 16 :=
  barLane (index.extractLsb' 8 8) ++ barLane (index.extractLsb' 0 8)

/-- The entry of the table for the top pair in F31, a 7-bit lane over an 8-bit lane (R222). -/
def lut15 (index : BitVec 15) : BitVec 15 :=
  barLane (index.extractLsb' 8 7) ++ barLane (index.extractLsb' 0 8)

/-- `BarWord(x)` by the lookup-table implementation, a pair of adjacent lanes at a time (R222). -/
def barWordLut (f : Field) (x : Word) : Word :=
  match f with
  | .f64 =>
    lut16 (x.extractLsb' 48 16) ++ lut16 (x.extractLsb' 32 16) ++ lut16 (x.extractLsb' 16 16) ++
      lut16 (x.extractLsb' 0 16)
  | .f31 => 0#33 ++ lut15 (x.extractLsb' 16 15) ++ lut16 (x.extractLsb' 0 16)

/-- `Bars(s)` with an implementation of the word map: the first `NBARS` words are mapped (R223). -/
def bars (s : State) (wordMap : Field → Word → Word) (v : List Nat) : List Nat :=
  tabulate v.length fun i =>
    if i < s.csr.nbars.toNat then (wordMap s.field (BitVec.ofNat 64 (wordAt v i))).toNat
    else wordAt v i

/-! ### Bars of the RC variant -/

/-- A digit's substitute: `SUBST[dg]` up to 65535, the digit itself above (R224). -/
def substDigit (s : State) (digit : Nat) : Nat := if digit ≤ 65535 then s.subst digit else digit

/-- One word decomposed, substituted digit by digit, and composed (R224). -/
def rcBarWord (s : State) (x : Nat) : Nat :=
  compose s.radices ((decompose s.radices x).map (substDigit s))

/-- `RcBars(s)`: it has no value where the radix sequence is not usable, and none where some word's
recomposed value is `>= p` (R224, R225). -/
def rcBars (s : State) (v : List Nat) : Except Err (List Nat) :=
  if s.radixUsable then
    if v.any fun x => s.p ≤ rcBarWord s x then .error .notInField else .ok (v.map (rcBarWord s))
  else .error .invalidConfiguration

/-! ### Feistel step -/

/-- `FeistelStep(k, rot, s)` (R226). -/
def feistelStep (s : State) (k : Nat) (rot : Bool) (v : List Nat) : List Nat :=
  let u := powMod s.p (addMod s.p (wordAt v 0) (s.rc k 0)) s.degree
  let m := tabulate v.length fun i => if i = 0 then wordAt v 0 else addMod s.p (wordAt v i) u
  if rot then tabulate v.length fun i => wordAt m ((i + 1) % v.length) else m

/-! ### The commands (R210) -/

/-- `ARC k` (R212). -/
def execArc (row : RowNum) (s : State) : Host.Outcome State Fault Refusal :=
  vectorCommand s (.ok (addRc s row.toNat s.vec))

/-- `SBOXF` (R213). -/
def execSboxf (s : State) : Host.Outcome State Fault Refusal := vectorCommand s (.ok (sboxFull s s.vec))

/-- `SBOX0` (R214). -/
def execSbox0 (s : State) : Host.Outcome State Fault Refusal := vectorCommand s (.ok (sboxWord0 s s.vec))

/-- `SBOXI` (R216). -/
def execSboxi (s : State) : Host.Outcome State Fault Refusal := vectorCommand s (sboxInv s s.vec)

/-- `BRICKS` (R218). -/
def execBricks (s : State) : Host.Outcome State Fault Refusal := vectorCommand s (.ok (bricks s s.vec))

/-- `BARS` and `BARS.LUT`: the flag selects the implementation (R223). -/
def execBars (impl : BitVec 1) (s : State) : Host.Outcome State Fault Refusal :=
  vectorCommand s (.ok (bars s (if impl = 0#1 then barWord else barWordLut) s.vec))

/-- `RCBARS` (R225). -/
def execRcbars (s : State) : Host.Outcome State Fault Refusal := vectorCommand s (rcBars s s.vec)

/-- `FEIS k` and `FEIS.ROT k` (R227). -/
def execFeis (rot : BitVec 1) (row : RowNum) (s : State) : Host.Outcome State Fault Refusal :=
  vectorCommand s (.ok (feistelStep s row.toNat (rot == 1#1) s.vec))

end Sys2Proof.Machine
end

