-- ==== Sys2Proof/Machine/Permutation.lean ====
section
/-! DEFINITION. The permutation sequencer: the round function of each variant (R241 to R246) and the
commands `PSTART`, `PSTEP`, `PERM`, `PRESET` (R247 to R250). -/

namespace Sys2Proof.Machine

/-- `Round(r, s)` of `VAR = 0`, POSEIDON (R242). -/
def poseidonRound (s : State) (r : Nat) (v : List Nat) : List Nat :=
  let a := addRc s r v
  if r < s.csr.rfb.toNat ∨ s.csr.rfb.toNat + s.csr.rp.toNat ≤ r then lin s (sboxFull s a)
  else if s.csr.isel = 0#1 then cheap s (sboxWord0 s a)
  else dense s 1#1 (sboxWord0 s a)

/-- `Round(r, s)` of `VAR = 1`, RESCUE: two half-rounds (R243). -/
def rescueRound (s : State) (r : Nat) (v : List Nat) : Except Err (List Nat) :=
  match sboxInv s (addRc s (2 * r) (lin s (sboxFull s v))) with
  | .error e => .error e
  | .ok b => .ok (addRc s (2 * r + 1) (lin s b))

/-- `Round(r, s)` of `VAR = 2`, FEISTEL: the final round has no rotation (R244). -/
def feistelRound (s : State) (r : Nat) (v : List Nat) : List Nat :=
  feistelStep s r (r + 1 < s.rounds) v

/-- `Round(r, s)` of `VAR = 3`, MONOLITH (R245). -/
def monolithRound (s : State) (r : Nat) (v : List Nat) : List Nat :=
  addRc s r (lin s (bricks s (bars s barWord v)))

/-- `Round(r, s)` of `VAR = 4`, RC: bars or bricks by `BARMASK[r]`, then the affine layer (R246). -/
def rcRound (s : State) (r : Nat) (v : List Nat) : Except Err (List Nat) :=
  if s.csr.barmask.getLsbD r then
    match rcBars s v with
    | .error e => .error e
    | .ok n => .ok (affine s r n)
  else .ok (affine s r (bricks s v))

/-- `Round(r, s)`, chosen by `VAR`; where one of its functions has no value it raises as that function's
command would (R241). The reserved values 5 to 7 are never sealed (R32; log entry 9). -/
def round (s : State) (r : Nat) (v : List Nat) : Except Err (List Nat) :=
  match s.csr.var.toNat with
  | 0 => .ok (poseidonRound s r v)
  | 1 => rescueRound s r v
  | 2 => .ok (feistelRound s r v)
  | 3 => .ok (monolithRound s r v)
  | 4 => rcRound s r v
  | _ => .error .invalidConfiguration

/-- `n` rounds from round `r` on; the first that has no value decides the error (R249, R294). -/
def runRounds (s : State) : Nat → Nat → List Nat → Except Err (List Nat)
  | 0, _, v => .ok v
  | n + 1, r, v =>
    match round s r v with
    | .error e => .error e
    | .ok w => runRounds s n (r + 1) w

/-- `Permutation(s)`: all `R` rounds from round 0 (R252). -/
def permutation (s : State) (v : List Nat) : Except Err (List Nat) := runRounds s s.rounds 0 v

/-- The round a run of the permutation goes on from: `RND` in `InRound`, else 0 (R249). -/
def State.nextRound (s : State) : Nat := if s.csr.pstate = 1#2 then s.csr.rnd.toNat else 0

/-- `PSTART` (R247). -/
def execPstart (s : State) : Host.Outcome State Fault Refusal :=
  command s [needsSealed s, needsNotInRound s] (done (s.setSequencer 1#2 0#9))

/-- The sequencer after round `RND`: `RND + 1`, and Done when that is `R` (R248). -/
def State.advanceRound (s : State) : State :=
  let rnd := s.csr.rnd + 1#9
  s.setSequencer (if rnd.toNat = s.rounds then 2#2 else s.csr.pstate) rnd

/-- `PSTEP` (R248). -/
def execPstep (s : State) : Host.Outcome State Fault Refusal :=
  command s [needsSealed s, failIf (s.csr.pstate != 1#2) .badSequence]
    (match round s s.csr.rnd.toNat s.vec with
     | .error e => .error e
     | .ok v => done (s.advanceRound.setVec v))

/-- `PERM` (R249). -/
def execPerm (s : State) : Host.Outcome State Fault Refusal :=
  command s [needsSealed s]
    (match runRounds s (s.rounds - s.nextRound) s.nextRound s.vec with
     | .error e => .error e
     | .ok v => done ((s.setSequencer 2#2 (BitVec.ofNat 9 s.rounds)).setVec v))

/-- `PRESET` (R250). -/
def execPreset (s : State) : Host.Outcome State Fault Refusal :=
  command s [] (done (s.setSequencer 0#2 0#9))

end Sys2Proof.Machine
end

