-- ==== Sys2Proof/Machine/Dispatch.lean ====
section
/-! DEFINITION. One arm per command of the opcode map (R95): the meaning of each, called once. -/

namespace Sys2Proof.Machine

/-- The meaning of a command in a state whose `din` is the transaction's data-in (R91, R120). -/
def exec (i : Instr) (s : State) : Host.Outcome State Fault Refusal :=
  match i with
  | .nop => Sys2Proof.Machine.execNop s
  | .wrs rd => Sys2Proof.Machine.execWrs rd s
  | .rds ra => Sys2Proof.Machine.execRds ra s
  | .mov rd ra => Sys2Proof.Machine.execMov rd ra s
  | .wrd rd => Sys2Proof.Machine.execWrd rd s
  | .rdd ra => Sys2Proof.Machine.execRdd ra s
  | .wrp addr => Sys2Proof.Machine.execWrp addr s
  | .rdp addr => Sys2Proof.Machine.execRdp addr s
  | .csrw csr => Sys2Proof.Machine.execCsrw csr s
  | .csrr csr => Sys2Proof.Machine.execCsrr csr s
  | .gett => Sys2Proof.Machine.execGett s
  | .field f => Sys2Proof.Machine.execField f s
  | .sealUnit => Sys2Proof.Machine.execSealUnit s
  | .unsealUnit => Sys2Proof.Machine.execUnsealUnit s
  | .clrerr => Sys2Proof.Machine.execClrerr s
  | .fadd rd ra rb => Sys2Proof.Machine.execFadd rd ra rb s
  | .fsub rd ra rb => Sys2Proof.Machine.execFsub rd ra rb s
  | .fmul rd ra rb => Sys2Proof.Machine.execFmul rd ra rb s
  | .fsqr rd ra => Sys2Proof.Machine.execFsqr rd ra s
  | .fdbl rd ra => Sys2Proof.Machine.execFdbl rd ra s
  | .fneg rd ra => Sys2Proof.Machine.execFneg rd ra s
  | .finv rd ra => Sys2Proof.Machine.execFinv rd ra s
  | .fpow rd ra => Sys2Proof.Machine.execFpow rd ra s
  | .decomp ra => Sys2Proof.Machine.execDecomp ra s
  | .comp rd => Sys2Proof.Machine.execComp rd s
  | .mdsd bank => Sys2Proof.Machine.execMdsd bank s
  | .mdsc => Sys2Proof.Machine.execMdsc s
  | .mdsch => Sys2Proof.Machine.execMdsch s
  | .affine row => Sys2Proof.Machine.execAffine row s
  | .arc row => Sys2Proof.Machine.execArc row s
  | .sboxf => Sys2Proof.Machine.execSboxf s
  | .sbox0 => Sys2Proof.Machine.execSbox0 s
  | .sboxi => Sys2Proof.Machine.execSboxi s
  | .bricks => Sys2Proof.Machine.execBricks s
  | .bars impl => Sys2Proof.Machine.execBars impl s
  | .rcbars => Sys2Proof.Machine.execRcbars s
  | .feis rot row => Sys2Proof.Machine.execFeis rot row s
  | .pstart => Sys2Proof.Machine.execPstart s
  | .pstep => Sys2Proof.Machine.execPstep s
  | .perm => Sys2Proof.Machine.execPerm s
  | .preset => Sys2Proof.Machine.execPreset s

end Sys2Proof.Machine
end

