-- ==== Sys2Proof/Machine/Step.lean ====
section
/-! DEFINITION. One step of the machine: one host event taken (R20), and how the host places a command where
the next step takes it. -/

namespace Sys2Proof.Machine

/-- One step: the next host event is taken as a whole (R20, R304, R320); a command runs to its end. -/
def step (s : State) : Host.Outcome State Fault Refusal :=
  match fetch s with
  | .settled t => .next t
  | .run i t => exec i t

/-- The state with the command word of the low `nbits` bits of `w` standing where the next step takes its
command (log entry 20). -/
def State.withFetchWord (s : State) (nbits w : Nat) : State :=
  s.placeCommand (BitVec.ofNat 32 (w % 2 ^ nbits))

end Sys2Proof.Machine
end

