-- ==== Sys2Proof/Safety.lean ====
section
/-! DEFINITION. What counts as a good state of the unit, the invariants of R48, and the terms in which claims
about commands are stated: the response given, what a command leaves unchanged, and runs of commands. -/

namespace Sys2Proof.Machine

/-! ### The invariants -/

/-- The bound a word of parameter memory keeps, by its region (R48 (b)). -/
def wordInRegion (p : Nat) (region : Region) (w : Word) : Prop :=
  match region with
  | .radix | .subst => w.toNat ≤ 65535
  | .rc | .mat0 | .mat1 | .crow | .what | .v | .mu => w.toNat < p

/-- The invariants that hold in every reachable state: R48 (a) to (e), the reserved flags of R43, and the
canonical form of the model's memory, which lists no reserved address. -/
structure Inv (s : State) : Prop where
  /-- R48 (a): every state register is canonical. -/
  registers : ∀ r, s.elem r < s.p
  /-- R48 (b): every parameter word keeps the bound of its region. -/
  parameters : ∀ a region, regionOf a = some region → wordInRegion s.p region (s.word a)
  /-- R48 (c): in the construction phase the sequencer is NotStarted. -/
  construction : s.csr.lock = 0#1 → s.csr.pstate = 0#2 ∧ s.csr.rnd = 0#9
  /-- R48 (d): in the sealed phase the `SEAL` checks hold. -/
  sealedChecks : s.csr.lock = 1#1 → sealOk s = true
  /-- R48 (e): NotStarted at round 0. -/
  notStarted : s.csr.pstate = 0#2 → s.csr.rnd = 0#9
  /-- R48 (e): in a round below `R`. -/
  inRound : s.csr.pstate = 1#2 → s.csr.rnd.toNat < s.rounds
  /-- R48 (e): done at `R`. -/
  finished : s.csr.pstate = 2#2 → s.csr.rnd.toNat = s.rounds
  /-- R48 (e): the fourth sequencer state never occurs. -/
  sequencer : s.csr.pstate ≠ 3#2
  /-- R43: bits 0 and 3 of the error flags are never set. -/
  flags : s.csr.errflags.getLsbD 0 = false ∧ s.csr.errflags.getLsbD 3 = false
  /-- The memory is in canonical form. -/
  memory : Memory.wf s.pm = true
  /-- No reserved address holds a word. -/
  reserved : ∀ a, regionOf a = none → s.word a = unlistedWord

/-! ### The response -/

/-- A transaction of `s` that ended in `t` with this response; the rest of the port is unchanged. -/
def Responds (s t : State) (st : BitVec 8) (dout : Word) : Prop :=
  t.responses = s.responses ++ [⟨st, dout⟩] ∧ t.input = s.input ∧ t.din = s.din

/-! ### What a command leaves unchanged -/

/-- Every state register. -/
def SameRegs (s t : State) : Prop := ∀ r, t.elem r = s.elem r

/-- Every state register but `rd`. -/
def SameRegsBut (rd : RegNum) (s t : State) : Prop := ∀ r, r ≠ rd → t.elem r = s.elem r

/-- The state registers from `S[t]` on, `t = CSR.T` (R23). -/
def SameScratch (s t : State) : Prop := ∀ r : RegNum, s.csr.t.toNat ≤ r.toNat → t.elem r = s.elem r

/-- Every digit register. -/
def SameDigits (s t : State) : Prop := ∀ r, t.digit r = s.digit r

/-- Every word of parameter memory. -/
def SameMemory (s t : State) : Prop := ∀ a, t.word a = s.word a

/-- Every CSR but the sequencer's `PSTATE` and `RND`. -/
def SameCsrsButSequencer (s t : State) : Prop :=
  t.csr = { s.csr with pstate := t.csr.pstate, rnd := t.csr.rnd }

/-- A command that only wrote `S[rd]`. -/
def OnlyReg (rd : RegNum) (s t : State) : Prop :=
  SameRegsBut rd s t ∧ SameDigits s t ∧ t.csr = s.csr ∧ SameMemory s t

/-- A command that only wrote `S[0..t-1]`. -/
def OnlyVector (s t : State) : Prop :=
  SameScratch s t ∧ SameDigits s t ∧ t.csr = s.csr ∧ SameMemory s t

/-- A command that only wrote CSRs. -/
def OnlyCsrs (s t : State) : Prop := SameRegs s t ∧ SameDigits s t ∧ SameMemory s t

/-- A command that changed nothing of the unit. -/
def Unchanged (s t : State) : Prop :=
  SameRegs s t ∧ SameDigits s t ∧ t.csr = s.csr ∧ SameMemory s t

/-- The raise of an error as R292 says it: the status with `dout = 0`, the error's flag, nothing else. -/
def Raises (s t : State) (e : Err) : Prop :=
  Responds s t e.code 0#64 ∧ SameRegs s t ∧ SameDigits s t ∧ SameMemory s t ∧
    t.csr = { s.csr with errflags := s.csr.errflags ||| (1#9 <<< e.code.toNat) }

/-! ### The sequencer states (R27), and the document's state -/

/-- The sequencer is in a round. -/
abbrev InRound (s : State) : Prop := s.csr.pstate = 1#2

/-- The unit is sealed. -/
abbrev Sealed (s : State) : Prop := s.csr.lock = 1#1

/-- Word `i` of the document's state, `S[i]` (R13). -/
def stateWord (s : State) (i : Nat) : Nat := s.elem (BitVec.ofNat 5 i)

/-- A command that raises an error in a state. -/
def RaisesOn (i : Instr) (s : State) (e : Err) : Prop := ∃ t, exec i s = .next t ∧ Raises s t e

/-- The checks that every layer and round command makes first, in this order (R202, R210). -/
def LayerChecks (i : Instr) (s : State) : Prop :=
  (¬Sealed s → RaisesOn i s .invalidConfiguration) ∧
    (Sealed s → InRound s → RaisesOn i s .badSequence)

/-! ### The rules' own tables, formulas and word lists, written out for the claims -/

/-- The reserved addresses of parameter memory, as R63 lists them. -/
def reservedAddress (a : Nat) : Prop := (0x028A0 ≤ a ∧ a ≤ 0x0FFFF) ∨ 0x20000 ≤ a

/-- The addresses of the element regions `RC`, `MAT`, `CROW`, `WHAT`, `V`, `MU`: all below `RADIX`. -/
def elementAddress (a : Nat) : Prop := a < 0x02880

/-- The addresses of `RADIX`. -/
def radixAddress (a : Nat) : Prop := 0x02880 ≤ a ∧ a < 0x028A0

/-- The addresses of `SUBST`. -/
def substAddress (a : Nat) : Prop := 0x10000 ≤ a ∧ a < 0x20000

/-- The numbers of the CSRs with their values in a state (R29). -/
def csrTable (c : Csrs) : List (CsrNum × Nat) :=
  [(0x00, c.fsel.toNat), (0x01, c.t.toNat), (0x02, c.var.toNat), (0x03, c.d.toNat),
   (0x04, c.rfb.toNat), (0x05, c.rp.toNat), (0x06, c.rfe.toNat), (0x07, c.nbars.toNat),
   (0x08, c.nradix.toNat), (0x09, c.lsel.toNat), (0x0A, c.isel.toNat), (0x0B, c.barmask.toNat),
   (0x10, c.lock.toNat), (0x11, c.pstate.toNat), (0x12, c.rnd.toNat), (0x13, c.errflags.toNat)]

/-- The CSRs that `CSRW` may write, each with its width (R29). -/
def writableWidths : List (CsrNum × Nat) :=
  [(0x01, 6), (0x02, 3), (0x03, 3), (0x04, 8), (0x05, 8), (0x06, 8), (0x07, 6), (0x08, 6),
   (0x09, 1), (0x0A, 1), (0x0B, 64)]

/-- The eight checks of `SEAL`, as R134 writes them. -/
def SealConditions (s : State) : Prop :=
  (2 ≤ s.csr.t.toNat ∧ s.csr.t.toNat ≤ 32) ∧
  s.csr.var.toNat ≤ 4 ∧
  (s.csr.d.toNat = 3 ∨ s.csr.d.toNat = 5 ∨ s.csr.d.toNat = 7) ∧
  s.csr.nbars.toNat ≤ s.csr.t.toNat ∧
  (s.csr.var.toNat = 0 →
    1 ≤ s.csr.rfb.toNat + s.csr.rp.toNat + s.csr.rfe.toNat ∧
      s.csr.rfb.toNat + s.csr.rp.toNat + s.csr.rfe.toNat ≤ 256) ∧
  (s.csr.var.toNat ≠ 0 →
    s.csr.rp.toNat = 0 ∧ s.csr.rfe.toNat = 0 ∧ 1 ≤ s.csr.rfb.toNat ∧
      (s.csr.var.toNat = 1 → s.csr.rfb.toNat ≤ 128) ∧ (s.csr.var.toNat = 2 → s.csr.rfb.toNat ≤ 256) ∧
      (s.csr.var.toNat = 3 → s.csr.rfb.toNat ≤ 256) ∧ (s.csr.var.toNat = 4 → s.csr.rfb.toNat ≤ 64)) ∧
  (s.csr.var.toNat = 1 → Nat.gcd s.csr.d.toNat (s.p - 1) = 1) ∧
  (s.csr.var.toNat = 4 →
    s.csr.t.toNat = 3 ∧ 1 ≤ s.csr.nradix.toNat ∧ s.csr.nradix.toNat ≤ 32 ∧
      ∀ k, k < s.csr.nradix.toNat → s.radix k ≠ 0)

/-- The radix sequence is usable, as R180 writes it. -/
def RadixUsable (s : State) : Prop :=
  1 ≤ s.csr.nradix.toNat ∧ s.csr.nradix.toNat ≤ 32 ∧ ∀ k, k < s.csr.nradix.toNat → s.radix k ≠ 0

/-- The product of the radices after index `k`: the weight of digit `k` (R182). -/
def weight (s : State) (k : Nat) : Nat := ∏ j ∈ Finset.Ico (k + 1) s.csr.nradix.toNat, s.radix j

/-- Digit `k` of an integer by the radix sequence: digit 0 is the last quotient, not reduced (R180). -/
def digitOf (s : State) (x k : Nat) : Nat :=
  if k = 0 then x / weight s 0 else x / weight s k % s.radix k

/-- The integer that digits stand for: each times its weight (R182). -/
def valueOf (s : State) (dg : Nat → Nat) : Nat :=
  ∑ k ∈ Finset.range s.csr.nradix.toNat, dg k * weight s k

/-- The recomposed value of a word in `RcBars` (R224). -/
def rcBarValue (s : State) (x : Nat) : Nat :=
  valueOf s fun k => if digitOf s x k ≤ 65535 then s.subst (digitOf s x k) else digitOf s x k

/-- The width of the lane that holds a bit of a word, and the lane's lowest bit (R220). -/
def laneOf (f : Field) (bit : Nat) : Nat × Nat :=
  match f with
  | .f64 => (8, 8 * (bit / 8))
  | .f31 => if bit < 24 then (8, 8 * (bit / 8)) else (7, 24)

/-- A bit of the bar map, bit by bit as R219 writes it: `x[i] XOR ((NOT x[i-1]) AND x[i-2] AND x[i-3])` with
the indices modulo the lane's width. -/
def barBit (f : Field) (x : Nat) (bit : Nat) : Bool :=
  let w := (laneOf f bit).1
  let lo := (laneOf f bit).2
  let i := bit - lo
  x.testBit bit ^^
    (!x.testBit (lo + (i + w - 1) % w) && x.testBit (lo + (i + w - 2) % w) &&
      x.testBit (lo + (i + w - 3) % w))

/-- A state vector of the unit's width, canonical word by word. -/
def CanonicalVec (s : State) (v : List Nat) : Prop :=
  v.length = s.csr.t.toNat ∧ ∀ x ∈ v, x < s.p

/-- Bank `b` holds the circulant matrix of `CROW` (R192). -/
def BankIsCirculant (s : State) (b : BitVec 1) : Prop :=
  ∀ i j, i < s.csr.t.toNat → j < s.csr.t.toNat →
    s.mat b i j = s.crow (((j : Int) - (i : Int)) % (s.csr.t.toNat : Int)).toNat

/-- Bank `b` holds the matrix `SP` of the cheap layer (R195). -/
def BankIsCheap (s : State) (b : BitVec 1) : Prop :=
  (∀ j, j < s.csr.t.toNat → s.mat b 0 j = s.what j) ∧
    ∀ i, 1 ≤ i → i < s.csr.t.toNat →
      s.mat b i 0 = s.vCoeff i ∧ s.mat b i i = s.muCoeff i ∧
        ∀ j, 1 ≤ j → j < s.csr.t.toNat → j ≠ i → s.mat b i j = 0

/-- The commands of the first column of R299 that need the sealed phase. -/
def needsSealedPhase : Instr → Bool
  | .decomp _ | .comp _ | .mdsd _ | .mdsc | .mdsch | .affine _ | .arc _ | .sboxf | .sbox0 | .sboxi
  | .bricks | .bars _ | .rcbars | .feis _ _ | .pstart | .pstep | .perm => true
  | .nop | .wrs _ | .rds _ | .mov _ _ | .wrd _ | .rdd _ | .wrp _ | .rdp _ | .csrw _ | .csrr _ | .gett
  | .field _ | .sealUnit | .unsealUnit | .clrerr | .fadd _ _ _ | .fsub _ _ _ | .fmul _ _ _
  | .fsqr _ _ | .fdbl _ _ | .fneg _ _ | .finv _ _ | .fpow _ _ | .preset => false

/-- The commands that only the construction phase allows (R299). -/
def needsConstruction : Instr → Bool
  | .wrp _ | .csrw _ | .sealUnit => true
  | .nop | .wrs _ | .rds _ | .mov _ _ | .wrd _ | .rdd _ | .rdp _ | .csrr _ | .gett | .field _
  | .unsealUnit | .clrerr | .fadd _ _ _ | .fsub _ _ _ | .fmul _ _ _ | .fsqr _ _ | .fdbl _ _
  | .fneg _ _ | .finv _ _ | .fpow _ _ | .decomp _ | .comp _ | .mdsd _ | .mdsc | .mdsch | .affine _
  | .arc _ | .sboxf | .sbox0 | .sboxi | .bricks | .bars _ | .rcbars | .feis _ _ | .pstart | .pstep
  | .perm | .preset => false

/-- The commands refused with BadSequence in a round (R251). -/
def refusedInRound : Instr → Bool
  | .wrs _ | .mov _ _ | .fadd _ _ _ | .fsub _ _ _ | .fmul _ _ _ | .fsqr _ _ | .fdbl _ _ | .fneg _ _
  | .finv _ _ | .fpow _ _ | .comp _ | .mdsd _ | .mdsc | .mdsch | .affine _ | .arc _ | .sboxf | .sbox0
  | .sboxi | .bricks | .bars _ | .rcbars | .feis _ _ | .pstart => true
  | .nop | .rds _ | .wrd _ | .rdd _ | .wrp _ | .rdp _ | .csrw _ | .csrr _ | .gett | .field _
  | .sealUnit | .unsealUnit | .clrerr | .decomp _ | .pstep | .perm | .preset => false

/-- The commands that write state registers in a way of their own: all of them, one, or the state vector
(R24). -/
def writesRegs : Instr → Bool
  | .field _ | .wrs _ | .mov _ _ | .fadd _ _ _ | .fsub _ _ _ | .fmul _ _ _ | .fsqr _ _ | .fdbl _ _
  | .fneg _ _ | .finv _ _ | .fpow _ _ | .comp _ | .mdsd _ | .mdsc | .mdsch | .affine _ | .arc _
  | .sboxf | .sbox0 | .sboxi | .bricks | .bars _ | .rcbars | .feis _ _ | .pstep | .perm => true
  | .nop | .rds _ | .wrd _ | .rdd _ | .wrp _ | .rdp _ | .csrw _ | .csrr _ | .gett | .sealUnit
  | .unsealUnit | .clrerr | .decomp _ | .pstart | .preset => false

/-- The commands that write the state vector and touch no register beyond it (R23, R24). -/
def writesVector : Instr → Bool
  | .mdsd _ | .mdsc | .mdsch | .affine _ | .arc _ | .sboxf | .sbox0 | .sboxi | .bricks | .bars _
  | .rcbars | .feis _ _ | .pstep | .perm => true
  | .nop | .wrs _ | .rds _ | .mov _ _ | .wrd _ | .rdd _ | .wrp _ | .rdp _ | .csrw _ | .csrr _ | .gett
  | .field _ | .sealUnit | .unsealUnit | .clrerr | .fadd _ _ _ | .fsub _ _ _ | .fmul _ _ _
  | .fsqr _ _ | .fdbl _ _ | .fneg _ _ | .finv _ _ | .fpow _ _ | .decomp _ | .comp _ | .pstart
  | .preset => false

/-- The commands that write digit registers (R25). -/
def writesDigits : Instr → Bool
  | .wrd _ | .decomp _ | .field _ => true
  | .nop | .wrs _ | .rds _ | .mov _ _ | .rdd _ | .wrp _ | .rdp _ | .csrw _ | .csrr _ | .gett
  | .sealUnit | .unsealUnit | .clrerr | .fadd _ _ _ | .fsub _ _ _ | .fmul _ _ _ | .fsqr _ _
  | .fdbl _ _ | .fneg _ _ | .finv _ _ | .fpow _ _ | .comp _ | .mdsd _ | .mdsc | .mdsch | .affine _
  | .arc _ | .sboxf | .sbox0 | .sboxi | .bricks | .bars _ | .rcbars | .feis _ _ | .pstart | .pstep
  | .perm | .preset => false

/-- The commands that change the sequencer (R240). -/
def changesSequencer : Instr → Bool
  | .field _ | .sealUnit | .unsealUnit | .preset | .pstart | .pstep | .perm => true
  | .nop | .wrs _ | .rds _ | .mov _ _ | .wrd _ | .rdd _ | .wrp _ | .rdp _ | .csrw _ | .csrr _ | .gett
  | .clrerr | .fadd _ _ _ | .fsub _ _ _ | .fmul _ _ _ | .fsqr _ _ | .fdbl _ _ | .fneg _ _
  | .finv _ _ | .fpow _ _ | .decomp _ | .comp _ | .mdsd _ | .mdsc | .mdsch | .affine _ | .arc _
  | .sboxf | .sbox0 | .sboxi | .bricks | .bars _ | .rcbars | .feis _ _ => false

/-- The commands that read the whole state out (R326). -/
def readsState : Instr → Bool
  | .rds _ | .rdd _ | .rdp _ | .csrr _ => true
  | .nop | .wrs _ | .mov _ _ | .wrd _ | .wrp _ | .csrw _ | .gett | .field _ | .sealUnit | .unsealUnit
  | .clrerr | .fadd _ _ _ | .fsub _ _ _ | .fmul _ _ _ | .fsqr _ _ | .fdbl _ _ | .fneg _ _
  | .finv _ _ | .fpow _ _ | .decomp _ | .comp _ | .mdsd _ | .mdsc | .mdsch | .affine _ | .arc _
  | .sboxf | .sbox0 | .sboxi | .bricks | .bars _ | .rcbars | .feis _ _ | .pstart | .pstep | .perm
  | .preset => false

/-- The opcodes that no row of the map has, as R96 (a) lists them. -/
def reservedOpcode (op : BitVec 8) : Prop :=
  op = 0x0F#8 ∨ (0x1A#8 ≤ op ∧ op ≤ 0x1F#8) ∨ (0x24#8 ≤ op ∧ op ≤ 0x27#8) ∨ 0x34#8 ≤ op

/-- The four cases of R96 that make a word illegal: (a) a reserved opcode; (b) a row's opcode with a
must-be-zero bit that is not zero; (c) `CSRW` or `CSRR` of a number that is no CSR; (d) `CSRW` to a
read-only CSR. -/
def IllegalWord (cw : Cmd) : Prop :=
  reservedOpcode (opField cw) ∨
  (∃ j : Instr, opField j.row.pattern = opField cw ∧ cw &&& j.row.mask ≠ j.row.pattern) ∨
  ((opField cw = 0x08#8 ∨ opField cw = 0x09#8) ∧
    ((0x0C#8 ≤ csrField cw ∧ csrField cw ≤ 0x0F#8) ∨ 0x14#8 ≤ csrField cw)) ∨
  (opField cw = 0x08#8 ∧
    (csrField cw = 0x00#8 ∨ csrField cw = 0x10#8 ∨ csrField cw = 0x11#8 ∨ csrField cw = 0x12#8 ∨
      csrField cw = 0x13#8))

/-! ### Runs -/

/-- `n` commands `PSTEP`, one after the other, stopping where one gives no next state. -/
def stepRounds : Nat → State → Host.Outcome State Fault Refusal
  | 0, s => .next s
  | n + 1, s =>
    match exec .pstep s with
    | .next t => stepRounds n t
    | .fault f => .fault f
    | .refused r => .refused r

/-- The state without the record of its port: what the unit itself holds. -/
def State.unit (s : State) : State := { s with input := [], din := 0#64, responses := [] }

end Sys2Proof.Machine
end

