-- ==== Sys2Proof/Certificates/Slice0/Obligations.lean ====
section
/-! DEFINITION. The statements about the MAPU for the provers, from the numbered rules of the spec. -/

open Sys2Proof Sys2Proof.Machine

/-! ### Encoding -/

/-- R92, R93, R95: the decoder reads back from the encoded word of every command that command, every operand
at every value its field admits. -/
def Obligations.EncodeThenDecode : Prop := ∀ i : Instr, decode (encode i) = .ok i

/-- R92, R93: a word that decodes is the encoding of its command, so no word holds a bit the command does not
show. -/
def Obligations.DecodeThenEncode : Prop :=
  ∀ (cw : Cmd) (i : Instr), decode cw = .ok i → encode i = cw

/-- R95: a word spells a row's command exactly when `cw AND mask = match`. -/
def Obligations.WordSpellsRowUnderMask : Prop :=
  ∀ (cw : Cmd) (j : Instr),
    cw &&& j.row.mask = j.row.pattern ↔ ∃ i, decode cw = .ok i ∧ i.mnemonic = j.mnemonic

/-- Words of R99's table decode to the commands they stand for. -/
def Obligations.SpecWordsDecode : Prop :=
  decode 0x01180000#32 = .ok (.wrs 3) ∧ decode 0x03088000#32 = .ok (.mov 1 2) ∧
  decode 0x06002800#32 = .ok (.wrp 0x02800) ∧ decode 0x08010000#32 = .ok (.csrw 0x01) ∧
  decode 0x0B800000#32 = .ok (.field 1) ∧ decode 0x10184400#32 = .ok (.fadd 3 1 2) ∧
  decode 0x18004000#32 = .ok (.decomp 1) ∧ decode 0x20800000#32 = .ok (.mdsd 1) ∧
  decode 0x2F800003#32 = .ok (.feis 1 3) ∧ decode 0x32000000#32 = .ok .perm

/-! ### The step, the port, errors -/

/-- R20, R91: a step on a command whose word decodes is that command's meaning. The port's bookkeeping around it is
the model's choice: the host's event at the head of `input` is used up (log entry 1) and its data-in is held in
`din` (log entry 4). -/
def Obligations.StepRunsDecodedCommand : Prop :=
  ∀ (s : State) (cw : Cmd) (din : Word) (rest : List HostEvent) (i : Instr),
    s.input = .command cw din :: rest → decode cw = .ok i →
      step s = exec i { s with input := rest, din := din }

/-- R96: a command word is illegal, and raises IllegalCommand with no other effect, in exactly the four cases
the rule lists; every other word is answered with another status. -/
def Obligations.IllegalWordsRaiseExactly : Prop :=
  ∀ (s : State) (cw : Cmd) (din : Word) (rest : List HostEvent),
    s.input = .command cw din :: rest →
      (IllegalWord cw →
        ∃ t, step s = .next t ∧ Raises { s with input := rest, din := din } t .illegalCommand) ∧
      (¬IllegalWord cw →
        ∃ t r, step s = .next t ∧ t.responses = s.responses ++ [r] ∧ r.st ≠ 5#8)

/-- R292: whatever the command and the state, the command answers once, and either its status is OK or it raises
an error (never NotFound) that changes nothing but the error's flag; nothing aborts or halts. -/
def Obligations.EveryCommandAnswersOrRaises : Prop :=
  ∀ (i : Instr) (s : State),
    ∃ t, exec i s = .next t ∧
      ((∃ d, Responds s t 0#8 d) ∨ ∃ e, e ≠ Err.notFound ∧ Raises s t e)

/-- R293: a command that returns status `n` sets bit `n` of `ERRFLAGS` when `n` is not 0 and leaves the flags
when it is 0, except `CLRERR` and `FIELD`, which clear them. -/
def Obligations.ErrorFlagsAreSticky : Prop :=
  ∀ (i : Instr) (s t : State) (st : BitVec 8) (dout : Word),
    exec i s = .next t → Responds s t st dout →
      if i = .clrerr ∨ (∃ f, i = .field f) then t.csr.errflags = 0#9
      else if st = 0#8 then t.csr.errflags = s.csr.errflags
      else t.csr.errflags = s.csr.errflags ||| (1#9 <<< st.toNat)

/-- R299, R251: which command is refused in which phase and sequencer state. A command the table allows is
never answered with ParamsSealed or BadSequence. -/
def Obligations.PhaseAndSequencerTable : Prop :=
  ∀ (i : Instr) (s : State), Inv s → i.wellFormed = true →
    (¬Sealed s → needsSealedPhase i = true → RaisesOn i s .invalidConfiguration) ∧
    (Sealed s → needsConstruction i = true → RaisesOn i s .paramsSealed) ∧
    (InRound s → refusedInRound i = true → RaisesOn i s .badSequence) ∧
    (Sealed s → ¬InRound s → i = .pstep → RaisesOn i s .badSequence) ∧
    ((¬Sealed s ∧ needsSealedPhase i = false) ∨
        (Sealed s ∧ ¬InRound s ∧ needsConstruction i = false ∧ i ≠ .pstep) ∨
        (InRound s ∧ needsConstruction i = false ∧ refusedInRound i = false) →
      ∃ t r, exec i s = .next t ∧ t.responses = s.responses ++ [r] ∧ r.st ≠ 6#8 ∧ r.st ≠ 7#8)

/-- R73, R40: in the sealed phase no command but `UNSEAL` and `FIELD` changes a parameter word or a CSR other
than the sequencer's and the error flags. -/
def Obligations.SealedParametersAreImmutable : Prop :=
  ∀ (i : Instr) (s t : State), Sealed s → i ≠ .unsealUnit → (∀ f, i ≠ .field f) →
    exec i s = .next t →
      SameMemory s t ∧
      t.csr = { s.csr with pstate := t.csr.pstate, rnd := t.csr.rnd, errflags := t.csr.errflags }

/-- R23, R24, R25, R240: a command not named as a writer of the state registers, of the digit registers or of
the sequencer leaves them unchanged, and a layer, round or sequencer command never touches `S[t..31]`. -/
def Obligations.OnlyNamedCommandsWrite : Prop :=
  ∀ (i : Instr) (s t : State), exec i s = .next t →
    (writesRegs i = false → SameRegs s t) ∧
    (writesVector i = true → SameScratch s t) ∧
    (writesDigits i = false → SameDigits s t) ∧
    (changesSequencer i = false → t.csr.pstate = s.csr.pstate ∧ t.csr.rnd = s.csr.rnd)

/-! ### Invariants and reset -/

/-- R48, R43: every step keeps the invariants. -/
def Obligations.StepKeepsInvariants : Prop := ∀ s t : State, Inv s → step s = .next t → Inv t

/-- R48: the state after reset meets the invariants. -/
def Obligations.ResetMeetsInvariants : Prop := Inv State.reset

/-- R321: after reset every register, CSR and parameter word is 0, the field is F64, the phase is construction,
the sequencer is NotStarted. -/
def Obligations.ResetStateIsAllZero : Prop :=
  (∀ r, State.reset.elem r = 0) ∧ (∀ r, State.reset.digit r = 0#64) ∧
  (∀ e ∈ csrTable State.reset.csr, e.2 = 0) ∧ (∀ a, State.reset.word a = 0#64) ∧
  State.reset.field = .f64 ∧ ¬Sealed State.reset ∧ State.reset.csr.pstate = 0#2

/-- R320: a reset event, whatever the state, leaves the unit as after reset, gives no response, and the next
event is taken as the first. -/
def Obligations.ResetEventClearsUnit : Prop :=
  ∀ (s : State) (rest : List HostEvent), s.input = .reset :: rest →
    ∃ t, step s = .next t ∧ t.unit = State.reset.unit ∧ t.input = rest ∧ t.responses = s.responses

/-- R326: two good states whose every register, digit register, parameter word and CSR reads alike are the same
state of the unit: there is no hidden state. -/
def Obligations.StateIsFullyReadable : Prop :=
  ∀ s t : State, Inv s → Inv t →
    (∀ (i : Instr) (s' t' : State), readsState i = true → exec i s = .next s' → exec i t = .next t' →
      s'.responses.getLast? = t'.responses.getLast?) →
    s.unit = t.unit

/-! ### Data movement, configuration, construction -/

/-- R121, R131, R136: `NOP` changes nothing; `GETT` answers `T`; `CLRERR` clears the error flags. -/
def Obligations.NopGettClrerr : Prop :=
  decode (encodeZ 0x00#8) = .ok .nop ∧ decode (encodeZ 0x0A#8) = .ok .gett ∧
  decode (encodeZ 0x0E#8) = .ok .clrerr ∧
  ∀ s : State,
    (∃ t, exec .nop s = .next t ∧ Unchanged s t ∧ Responds s t 0#8 0#64) ∧
    (∃ t, exec .gett s = .next t ∧ Unchanged s t ∧
      Responds s t 0#8 (BitVec.ofNat 64 s.csr.t.toNat)) ∧
    ∃ t, exec .clrerr s = .next t ∧ OnlyCsrs s t ∧ t.csr = { s.csr with errflags := 0#9 } ∧
      Responds s t 0#8 0#64

/-- R122: `WRS` is refused in a round, then range-checks the raw value, then writes it. -/
def Obligations.WrsChecksRangeAndWrites : Prop :=
  ∀ (rd : RegNum) (s : State),
    decode (encodeR 0x01#8 rd 0#5 0#5) = .ok (.wrs rd) ∧
    (InRound s → RaisesOn (.wrs rd) s .badSequence) ∧
    (¬InRound s → s.p ≤ s.din.toNat → RaisesOn (.wrs rd) s .notInField) ∧
    (¬InRound s → s.din.toNat < s.p →
      ∃ t, exec (.wrs rd) s = .next t ∧ t.elem rd = s.din.toNat ∧ OnlyReg rd s t ∧
        Responds s t 0#8 0#64)

/-- R123, R126: `RDS` and `RDD` answer a state register and a digit register, in every state. -/
def Obligations.RdsRddRead : Prop :=
  ∀ (ra : RegNum) (s : State),
    decode (encodeR 0x02#8 0#5 ra 0#5) = .ok (.rds ra) ∧
    decode (encodeR 0x05#8 0#5 ra 0#5) = .ok (.rdd ra) ∧
    (∃ t, exec (.rds ra) s = .next t ∧ Unchanged s t ∧
      Responds s t 0#8 (BitVec.ofNat 64 (s.elem ra))) ∧
    ∃ t, exec (.rdd ra) s = .next t ∧ Unchanged s t ∧ Responds s t 0#8 (s.digit ra)

/-- R124, R125: `MOV` copies a state register, refused in a round; `WRD` writes any value to a digit register,
in every state. -/
def Obligations.MovWrdWrite : Prop :=
  ∀ (rd ra : RegNum) (s : State),
    decode (encodeR 0x03#8 rd ra 0#5) = .ok (.mov rd ra) ∧
    decode (encodeR 0x04#8 rd 0#5 0#5) = .ok (.wrd rd) ∧
    (InRound s → RaisesOn (.mov rd ra) s .badSequence) ∧
    (¬InRound s →
      ∃ t, exec (.mov rd ra) s = .next t ∧ t.elem rd = s.elem ra ∧ OnlyReg rd s t ∧
        Responds s t 0#8 0#64) ∧
    ∃ t, exec (.wrd rd) s = .next t ∧ t.digit rd = s.din ∧
      (∀ r, r ≠ rd → t.digit r = s.digit r) ∧ SameRegs s t ∧ t.csr = s.csr ∧ SameMemory s t ∧
      Responds s t 0#8 0#64

/-- R127, R64, R65, R66, R67: `WRP` checks the phase, the address and the word, in that order, then writes the
one word. -/
def Obligations.WrpChecksAndWrites : Prop :=
  ∀ (addr : PAddr) (s : State), Inv s →
    decode (encodeM 0x06#8 addr) = .ok (.wrp addr) ∧
    (Sealed s → RaisesOn (.wrp addr) s .paramsSealed) ∧
    (¬Sealed s → reservedAddress addr.toNat → RaisesOn (.wrp addr) s .badAddress) ∧
    (¬Sealed s → radixAddress addr.toNat → s.din.toNat = 0 ∨ 65535 < s.din.toNat →
      RaisesOn (.wrp addr) s .invalidConfiguration) ∧
    (¬Sealed s → substAddress addr.toNat → 65535 < s.din.toNat →
      RaisesOn (.wrp addr) s .invalidConfiguration) ∧
    (¬Sealed s → elementAddress addr.toNat → s.p ≤ s.din.toNat →
      RaisesOn (.wrp addr) s .notInField) ∧
    (¬Sealed s →
      (radixAddress addr.toNat ∧ 1 ≤ s.din.toNat ∧ s.din.toNat ≤ 65535) ∨
        (substAddress addr.toNat ∧ s.din.toNat ≤ 65535) ∨
        (elementAddress addr.toNat ∧ s.din.toNat < s.p) →
      ∃ t, exec (.wrp addr) s = .next t ∧ t.word addr.toNat = s.din ∧
        (∀ a, a ≠ addr.toNat → t.word a = s.word a) ∧ SameRegs s t ∧ SameDigits s t ∧
        t.csr = s.csr ∧ Responds s t 0#8 0#64)

/-- R128, R67: `RDP` answers the word at an address of a region, in both phases, and raises BadAddress at a
reserved one. -/
def Obligations.RdpReadsOrRaises : Prop :=
  ∀ (addr : PAddr) (s : State),
    decode (encodeM 0x07#8 addr) = .ok (.rdp addr) ∧
    (reservedAddress addr.toNat → RaisesOn (.rdp addr) s .badAddress) ∧
    (¬reservedAddress addr.toNat →
      ∃ t, exec (.rdp addr) s = .next t ∧ Unchanged s t ∧ Responds s t 0#8 (s.word addr.toNat))

/-- R129: `CSRW` of a number that is no RW CSR is illegal, in every phase; in the sealed phase the others raise
ParamsSealed; in the construction phase the CSR takes the low bits of `din` and every other CSR keeps its
value. -/
def Obligations.CsrwMasksToWidth : Prop :=
  ∀ (csr : CsrNum) (s : State),
    decode (encodeC 0x08#8 csr) = .ok (.csrw csr) ∧
    (csr ∉ writableWidths.map (·.1) → RaisesOn (.csrw csr) s .illegalCommand) ∧
    (csr ∈ writableWidths.map (·.1) → Sealed s → RaisesOn (.csrw csr) s .paramsSealed) ∧
    ∀ w, (csr, w) ∈ writableWidths → ¬Sealed s →
      ∃ t, exec (.csrw csr) s = .next t ∧ OnlyCsrs s t ∧ Responds s t 0#8 0#64 ∧
        (csr, s.din.toNat % 2 ^ w) ∈ csrTable t.csr ∧
        ∀ e ∈ csrTable s.csr, e.1 ≠ csr → e ∈ csrTable t.csr

/-- R130: `CSRR` answers the CSR's value zero-extended, in every state; a number that is no CSR is illegal. -/
def Obligations.CsrrReadsEveryCsr : Prop :=
  ∀ (csr : CsrNum) (s : State),
    decode (encodeC 0x09#8 csr) = .ok (.csrr csr) ∧
    (csr ∉ (csrTable s.csr).map (·.1) → RaisesOn (.csrr csr) s .illegalCommand) ∧
    ∀ v, (csr, v) ∈ csrTable s.csr →
      ∃ t, exec (.csrr csr) s = .next t ∧ Unchanged s t ∧ Responds s t 0#8 (BitVec.ofNat 64 v)

/-- R132: `FIELD` sets `FSEL` and clears every other piece of state, in every phase and sequencer state. -/
def Obligations.FieldSelectsAndClears : Prop :=
  ∀ (f : BitVec 1) (s : State),
    decode (encodeL 0x0B#8 f 0#8) = .ok (.field f) ∧
    ∃ t, exec (.field f) s = .next t ∧ t.csr.fsel = f ∧ (∀ r, t.elem r = 0) ∧
      (∀ r, t.digit r = 0#64) ∧ (∀ e ∈ csrTable t.csr, e.1 ≠ 0x00#8 → e.2 = 0) ∧
      (∀ a, t.word a = 0#64) ∧ Responds s t 0#8 0#64

/-- R133, R134: `SEAL` raises ParamsSealed in the sealed phase and InvalidConfiguration when one of the checks
(a) to (h) fails; otherwise it locks, with the sequencer NotStarted. -/
def Obligations.SealChecksAndLocks : Prop :=
  decode (encodeZ 0x0C#8) = .ok .sealUnit ∧
  ∀ s : State,
    (Sealed s → RaisesOn .sealUnit s .paramsSealed) ∧
    (¬Sealed s → ¬SealConditions s → RaisesOn .sealUnit s .invalidConfiguration) ∧
    (¬Sealed s → SealConditions s →
      ∃ t, exec .sealUnit s = .next t ∧ OnlyCsrs s t ∧
        t.csr = { s.csr with lock := 1#1, pstate := 0#2, rnd := 0#9 } ∧ Responds s t 0#8 0#64)

/-- R135, R250: `UNSEAL` unlocks and abandons a permutation; `PRESET` only abandons it; both in every state. -/
def Obligations.UnsealPresetAbandon : Prop :=
  decode (encodeZ 0x0D#8) = .ok .unsealUnit ∧ decode (encodeZ 0x33#8) = .ok .preset ∧
  ∀ s : State,
    (∃ t, exec .unsealUnit s = .next t ∧ OnlyCsrs s t ∧
      t.csr = { s.csr with lock := 0#1, pstate := 0#2, rnd := 0#9 } ∧ Responds s t 0#8 0#64) ∧
    ∃ t, exec .preset s = .next t ∧ OnlyCsrs s t ∧
      t.csr = { s.csr with pstate := 0#2, rnd := 0#9 } ∧ Responds s t 0#8 0#64

/-! ### Field arithmetic -/

/-- R151, R152: sum and difference modulo `p`, and, for canonical sources, the one conditional correction the
rules give. -/
def Obligations.FaddFsubResults : Prop :=
  ∀ (rd ra rb : RegNum) (s : State),
    decode (encodeR 0x10#8 rd ra rb) = .ok (.fadd rd ra rb) ∧
    decode (encodeR 0x11#8 rd ra rb) = .ok (.fsub rd ra rb) ∧
    (InRound s →
      RaisesOn (.fadd rd ra rb) s .badSequence ∧ RaisesOn (.fsub rd ra rb) s .badSequence) ∧
    (¬InRound s →
      (∃ t, exec (.fadd rd ra rb) s = .next t ∧ t.elem rd = (s.elem ra + s.elem rb) % s.p ∧
        OnlyReg rd s t ∧ Responds s t 0#8 0#64 ∧
        (Inv s → t.elem rd =
          if s.p ≤ s.elem ra + s.elem rb then s.elem ra + s.elem rb - s.p
          else s.elem ra + s.elem rb)) ∧
      ∃ t, exec (.fsub rd ra rb) s = .next t ∧
        (t.elem rd : Int) = ((s.elem ra : Int) - (s.elem rb : Int)) % (s.p : Int) ∧
        OnlyReg rd s t ∧ Responds s t 0#8 0#64 ∧
        (Inv s → t.elem rd =
          if s.elem rb ≤ s.elem ra then s.elem ra - s.elem rb else s.elem ra + s.p - s.elem rb))

/-- R153, R157, R158: product, square and double modulo `p`; `FSQR` is `FMUL` of the register with itself and
`FDBL` is `FADD` of the register with itself. -/
def Obligations.FmulFsqrFdblResults : Prop :=
  ∀ (rd ra rb : RegNum) (s : State),
    decode (encodeR 0x12#8 rd ra rb) = .ok (.fmul rd ra rb) ∧
    decode (encodeR 0x13#8 rd ra 0#5) = .ok (.fsqr rd ra) ∧
    decode (encodeR 0x14#8 rd ra 0#5) = .ok (.fdbl rd ra) ∧
    (InRound s → RaisesOn (.fmul rd ra rb) s .badSequence) ∧
    (¬InRound s →
      ∃ t, exec (.fmul rd ra rb) s = .next t ∧ t.elem rd = (s.elem ra * s.elem rb) % s.p ∧
        OnlyReg rd s t ∧ Responds s t 0#8 0#64) ∧
    (InRound s → RaisesOn (.fsqr rd ra) s .badSequence ∧ RaisesOn (.fdbl rd ra) s .badSequence) ∧
    (¬InRound s →
      (∃ t, exec (.fsqr rd ra) s = .next t ∧ t.elem rd = (s.elem ra * s.elem ra) % s.p ∧
        OnlyReg rd s t ∧ Responds s t 0#8 0#64) ∧
      ∃ t, exec (.fdbl rd ra) s = .next t ∧ t.elem rd = (2 * s.elem ra) % s.p ∧
        OnlyReg rd s t ∧ Responds s t 0#8 0#64) ∧
    exec (.fsqr rd ra) s = exec (.fmul rd ra ra) s ∧ exec (.fdbl rd ra) s = exec (.fadd rd ra ra) s

/-- R159, R162: negation sends 0 to 0 and any other element to `p` less it; for a canonical source the result is
its additive inverse, as R162 derives. -/
def Obligations.FnegResult : Prop :=
  ∀ (rd ra : RegNum) (s : State),
    decode (encodeR 0x15#8 rd ra 0#5) = .ok (.fneg rd ra) ∧
    (InRound s → RaisesOn (.fneg rd ra) s .badSequence) ∧
    (¬InRound s →
      ∃ t, exec (.fneg rd ra) s = .next t ∧
        t.elem rd = (if s.elem ra = 0 then 0 else s.p - s.elem ra) ∧
        OnlyReg rd s t ∧ Responds s t 0#8 0#64 ∧
        (Inv s → t.elem rd < s.p ∧ (s.elem ra + t.elem rd) % s.p = 0))

/-- R160: `FINV` of 0 raises NoInverse; of any other element it writes the one `b` in `[1, p-1]` with
`(S[ra] * b) mod p = 1`. -/
def Obligations.FinvIsTheInverse : Prop :=
  ∀ (rd ra : RegNum) (s : State),
    decode (encodeR 0x16#8 rd ra 0#5) = .ok (.finv rd ra) ∧
    (InRound s → RaisesOn (.finv rd ra) s .badSequence) ∧
    (¬InRound s → s.elem ra = 0 → RaisesOn (.finv rd ra) s .noInverse) ∧
    (Inv s → ¬InRound s → s.elem ra ≠ 0 →
      ∃ t, exec (.finv rd ra) s = .next t ∧ 1 ≤ t.elem rd ∧ t.elem rd < s.p ∧
        (s.elem ra * t.elem rd) % s.p = 1 ∧
        (∀ b, 1 ≤ b → b < s.p → (s.elem ra * b) % s.p = 1 → b = t.elem rd) ∧
        OnlyReg rd s t ∧ Responds s t 0#8 0#64)

/-- R161: `FPOW` writes the power with the 64-bit exponent `din`, modulo `p`; exponent 0 gives 1 for every base.
That exponent `p - 1` gives 1 for every non-zero canonical base is R161's inference from `p` being prime. -/
def Obligations.FpowResult : Prop :=
  ∀ (rd ra : RegNum) (s : State),
    decode (encodeR 0x17#8 rd ra 0#5) = .ok (.fpow rd ra) ∧
    (InRound s → RaisesOn (.fpow rd ra) s .badSequence) ∧
    (¬InRound s →
      ∃ t, exec (.fpow rd ra) s = .next t ∧ t.elem rd = s.elem ra ^ s.din.toNat % s.p ∧
        OnlyReg rd s t ∧ Responds s t 0#8 0#64 ∧
        (s.din.toNat = 0 → t.elem rd = 1) ∧
        (Inv s → s.elem ra ≠ 0 → s.din.toNat = s.p - 1 → t.elem rd = 1))

/-- R153, R154, R155: the two-step reduction datapath of each field gives the product modulo `p`; in F64 it
reduces every 128-bit integer. -/
def Obligations.ReductionDatapathIsExact : Prop :=
  (∀ x : BitVec 128, (reduceF64 x).toNat = x.toNat % Field.f64.modulus) ∧
  ∀ (f : Field) (a b : Word), a.toNat < f.modulus → b.toNat < f.modulus →
    (mulDatapath f a b).toNat = (a.toNat * b.toNat) % f.modulus

/-! ### Decomposition -/

/-- R184, R180: `DECOMP` needs sealed parameters and a usable radix sequence, is allowed in a round, and writes
to `DG[0..n-1]` the digits of the register by the radix sequence, digit 0 not reduced; all else is unchanged. -/
def Obligations.DecompWritesDigits : Prop :=
  ∀ (ra : RegNum) (s : State),
    decode (encodeR 0x18#8 0#5 ra 0#5) = .ok (.decomp ra) ∧
    (¬Sealed s → RaisesOn (.decomp ra) s .invalidConfiguration) ∧
    (Sealed s → ¬RadixUsable s → RaisesOn (.decomp ra) s .invalidConfiguration) ∧
    (Sealed s → RadixUsable s →
      ∃ t, exec (.decomp ra) s = .next t ∧
        (∀ k : RegNum, (t.digit k).toNat =
          if k.toNat < s.csr.nradix.toNat then digitOf s (s.elem ra) k.toNat
          else (s.digit k).toNat) ∧
        SameRegs s t ∧ t.csr = s.csr ∧ SameMemory s t ∧ Responds s t 0#8 0#64)

/-- R185, R181: `COMP` needs sealed parameters, not in a round, a usable radix sequence; the integer its digits
stand for is written when it is below `p` and raises NotInField otherwise. -/
def Obligations.CompWritesValue : Prop :=
  ∀ (rd : RegNum) (s : State),
    decode (encodeR 0x19#8 rd 0#5 0#5) = .ok (.comp rd) ∧
    LayerChecks (.comp rd) s ∧
    (Sealed s → ¬InRound s → ¬RadixUsable s → RaisesOn (.comp rd) s .invalidConfiguration) ∧
    (Sealed s → ¬InRound s → RadixUsable s →
      s.p ≤ valueOf s (fun k => (s.digit (BitVec.ofNat 5 k)).toNat) →
      RaisesOn (.comp rd) s .notInField) ∧
    (Sealed s → ¬InRound s → RadixUsable s →
      valueOf s (fun k => (s.digit (BitVec.ofNat 5 k)).toNat) < s.p →
      ∃ t, exec (.comp rd) s = .next t ∧
        t.elem rd = valueOf s (fun k => (s.digit (BitVec.ofNat 5 k)).toNat) ∧
        OnlyReg rd s t ∧ Responds s t 0#8 0#64)

/-- R182: composing the decomposition of any integer by any usable radix sequence gives it back; the converse
holds for digits below their radices from index 1 on, and not in general. -/
def Obligations.ComposeUndoesDecompose : Prop :=
  (∀ (rs : List Nat) (x : Nat), rs ≠ [] → (∀ r ∈ rs, r ≠ 0) → compose rs (decompose rs x) = x) ∧
  (∀ (rs ds : List Nat), rs ≠ [] → ds.length = rs.length →
    (∀ k, 1 ≤ k → k < rs.length → ds.getD k 0 < rs.getD k 0) →
    decompose rs (compose rs ds) = ds) ∧
  ∃ rs ds : List Nat, rs ≠ [] ∧ (∀ r ∈ rs, r ≠ 0) ∧ ds.length = rs.length ∧
    decompose rs (compose rs ds) ≠ ds

/-- R182, R184, R185: `COMP` right after `DECOMP` writes back the element that was decomposed. -/
def Obligations.CompUndoesDecomp : Prop :=
  ∀ (ra rd : RegNum) (s : State), Inv s → Sealed s → ¬InRound s → RadixUsable s →
    ∃ t u, exec (.decomp ra) s = .next t ∧ exec (.comp rd) t = .next u ∧
      u.elem rd = s.elem ra ∧ SameRegsBut rd s u

/-! ### Linear layers -/

/-- R198, R190, R202: `MDSD` multiplies the state by a matrix bank from the left, all words from the old
state. -/
def Obligations.MdsdIsDenseProduct : Prop :=
  ∀ (b : BitVec 1) (s : State),
    decode (encodeL 0x20#8 b 0#8) = .ok (.mdsd b) ∧ LayerChecks (.mdsd b) s ∧
    (Inv s → Sealed s → ¬InRound s →
      ∃ t, exec (.mdsd b) s = .next t ∧
        (∀ k : RegNum, k.toNat < s.csr.t.toNat →
          t.elem k =
            (∑ j ∈ Finset.range s.csr.t.toNat, s.mat b k.toNat j * stateWord s j) % s.p) ∧
        OnlyVector s t ∧ Responds s t 0#8 0#64)

/-- R199, R191, R202: `MDSC` is the circulant product with first row `CROW`, row `i` being row 0 rotated right
by `i`, in both forms the rule writes. -/
def Obligations.MdscIsCirculantProduct : Prop :=
  ∀ s : State,
    decode (encodeZ 0x21#8) = .ok .mdsc ∧ LayerChecks .mdsc s ∧
    (Inv s → Sealed s → ¬InRound s →
      ∃ t, exec .mdsc s = .next t ∧
        (∀ k : RegNum, k.toNat < s.csr.t.toNat →
          t.elem k =
            (∑ j ∈ Finset.range s.csr.t.toNat,
              s.crow (((j : Int) - (k.toNat : Int)) % (s.csr.t.toNat : Int)).toNat *
                stateWord s j) % s.p ∧
          t.elem k =
            (∑ m ∈ Finset.range s.csr.t.toNat,
              s.crow m * stateWord s ((k.toNat + m) % s.csr.t.toNat)) % s.p) ∧
        OnlyVector s t ∧ Responds s t 0#8 0#64)

/-- R200, R194, R202: `MDSCH` is the cheap layer: word 0 from a row vector, every other word from its own scalar
and a contribution of word 0. -/
def Obligations.MdschIsCheapLayer : Prop :=
  ∀ s : State,
    decode (encodeZ 0x22#8) = .ok .mdsch ∧ LayerChecks .mdsch s ∧
    (Inv s → Sealed s → ¬InRound s →
      ∃ t, exec .mdsch s = .next t ∧
        t.elem 0#5 = (∑ j ∈ Finset.range s.csr.t.toNat, s.what j * stateWord s j) % s.p ∧
        (∀ k : RegNum, 1 ≤ k.toNat → k.toNat < s.csr.t.toNat →
          t.elem k = (s.muCoeff k.toNat * s.elem k + s.vCoeff k.toNat * s.elem 0#5) % s.p) ∧
        OnlyVector s t ∧ Responds s t 0#8 0#64)

/-- R201, R197, R202: `AFFINE` adds to every word the sum of all words and the word of a constant row. -/
def Obligations.AffineAddsSumAndRow : Prop :=
  ∀ (row : RowNum) (s : State),
    decode (encodeL 0x23#8 0#1 row) = .ok (.affine row) ∧ LayerChecks (.affine row) s ∧
    (Inv s → Sealed s → ¬InRound s →
      ∃ t, exec (.affine row) s = .next t ∧
        (∀ k : RegNum, k.toNat < s.csr.t.toNat →
          t.elem k =
            (s.elem k + (∑ j ∈ Finset.range s.csr.t.toNat, stateWord s j) +
              s.rc row.toNat k.toNat) % s.p) ∧
        OnlyVector s t ∧ Responds s t 0#8 0#64)

/-- R192: when a bank holds the circulant matrix of `CROW`, the dense and the circulant strategy are the same
command on every state of a width up to 32 (R31), all the widths there are registers for:
the spec's inference from R190 and R191. -/
def Obligations.CirculantEqualsDense : Prop :=
  ∀ (b : BitVec 1) (s : State), s.csr.t.toNat ≤ 32 → BankIsCirculant s b →
    exec .mdsc s = exec (.mdsd b) s

/-- R195: when a bank holds the matrix `SP` of the cheap coefficients, the cheap layer is that bank's dense layer
on every state of a width up to 32 (R31). -/
def Obligations.CheapEqualsDense : Prop :=
  ∀ (b : BitVec 1) (s : State), s.csr.t.toNat ≤ 32 → BankIsCheap s b →
    exec .mdsch s = exec (.mdsd b) s

/-! ### Round primitives -/

/-- R212, R211, R210: `ARC` adds a row of constants, word by word, modulo `p`. -/
def Obligations.ArcAddsRow : Prop :=
  ∀ (row : RowNum) (s : State),
    decode (encodeL 0x28#8 0#1 row) = .ok (.arc row) ∧ LayerChecks (.arc row) s ∧
    (Inv s → Sealed s → ¬InRound s →
      ∃ t, exec (.arc row) s = .next t ∧
        (∀ k : RegNum, k.toNat < s.csr.t.toNat →
          t.elem k = (s.elem k + s.rc row.toNat k.toNat) % s.p) ∧
        OnlyVector s t ∧ Responds s t 0#8 0#64)

/-- R213, R214, R210: `SBOXF` raises every word to the degree `d`, `SBOX0` word 0 only. -/
def Obligations.SboxfSbox0Power : Prop :=
  ∀ s : State,
    decode (encodeZ 0x29#8) = .ok .sboxf ∧ decode (encodeZ 0x2A#8) = .ok .sbox0 ∧
    LayerChecks .sboxf s ∧ LayerChecks .sbox0 s ∧
    (Inv s → Sealed s → ¬InRound s →
      (∃ t, exec .sboxf s = .next t ∧
        (∀ k : RegNum, k.toNat < s.csr.t.toNat → t.elem k = s.elem k ^ s.csr.d.toNat % s.p) ∧
        OnlyVector s t ∧ Responds s t 0#8 0#64) ∧
      ∃ t, exec .sbox0 s = .next t ∧ t.elem 0#5 = s.elem 0#5 ^ s.csr.d.toNat % s.p ∧
        OnlyReg 0#5 s t ∧ Responds s t 0#8 0#64)

/-- R216, R215, R210: `SBOXI` raises InvalidConfiguration when `gcd(d, p - 1)` is not 1; otherwise it raises every
non-zero word to the one exponent `e` with `1 <= e < p - 1` and `d * e = 1` modulo `p - 1`, and keeps 0. -/
def Obligations.SboxiInversePower : Prop :=
  ∀ s : State,
    decode (encodeZ 0x2B#8) = .ok .sboxi ∧ LayerChecks .sboxi s ∧
    (Sealed s → ¬InRound s → Nat.gcd s.csr.d.toNat (s.p - 1) ≠ 1 →
      RaisesOn .sboxi s .invalidConfiguration) ∧
    (Inv s → Sealed s → ¬InRound s → Nat.gcd s.csr.d.toNat (s.p - 1) = 1 →
      ∃ t e, exec .sboxi s = .next t ∧ 1 ≤ e ∧ e < s.p - 1 ∧
        (s.csr.d.toNat * e) % (s.p - 1) = 1 ∧
        (∀ e', 1 ≤ e' → e' < s.p - 1 → (s.csr.d.toNat * e') % (s.p - 1) = 1 → e' = e) ∧
        (∀ k : RegNum, k.toNat < s.csr.t.toNat →
          t.elem k = if s.elem k = 0 then 0 else s.elem k ^ e % s.p) ∧
        OnlyVector s t ∧ Responds s t 0#8 0#64)

/-- R215: where the inverse exponent exists, the inverse S-box layer undoes the full S-box layer, and the other
way round. -/
def Obligations.InverseSboxUndoesSbox : Prop :=
  ∀ s : State, Inv s → Sealed s → ¬InRound s → Nat.gcd s.csr.d.toNat (s.p - 1) = 1 →
    (∃ t u, exec .sboxf s = .next t ∧ exec .sboxi t = .next u ∧ SameRegs s u) ∧
    ∃ t u, exec .sboxi s = .next t ∧ exec .sboxf t = .next u ∧ SameRegs s u

/-- R218, R217, R210: `BRICKS` adds to every word but the first the square of the OLD word before it. -/
def Obligations.BricksAddOldSquares : Prop :=
  ∀ s : State,
    decode (encodeZ 0x2C#8) = .ok .bricks ∧ LayerChecks .bricks s ∧
    (Inv s → Sealed s → ¬InRound s →
      ∃ t, exec .bricks s = .next t ∧ t.elem 0#5 = s.elem 0#5 ∧
        (∀ k : RegNum, 1 ≤ k.toNat → k.toNat < s.csr.t.toNat →
          t.elem k = (s.elem k + s.elem (k - 1#5) * s.elem (k - 1#5)) % s.p) ∧
        OnlyVector s t ∧ Responds s t 0#8 0#64)

/-- R223, R219, R220, R222, R210: `BARS` and `BARS.LUT` map each of the first `NBARS` words lane by lane, bit by
bit as R219 writes it, the same for both implementations, and keep the other words. -/
def Obligations.BarsMapLanes : Prop :=
  ∀ (f : BitVec 1) (s : State),
    decode (encodeL 0x2D#8 f 0#8) = .ok (.bars f) ∧ LayerChecks (.bars f) s ∧
    (Inv s → Sealed s → ¬InRound s →
      ∃ t, exec (.bars f) s = .next t ∧
        (∀ k : RegNum, k.toNat < s.csr.t.toNat →
          if k.toNat < s.csr.nbars.toNat then
            ∀ bit, (t.elem k).testBit bit =
              (decide (bit < s.field.width) && barBit s.field (s.elem k) bit)
          else t.elem k = s.elem k) ∧
        OnlyVector s t ∧ Responds s t 0#8 0#64)

/-- R221, R222: the bar map of each field is a bijection of `F_p`, and the lookup-table implementation gives the
same word for every input. -/
def Obligations.BarWordIsBijection : Prop :=
  ∀ f : Field,
    (∀ x : Word, x.toNat < f.modulus → (barWord f x).toNat < f.modulus) ∧
    (∀ y : Word, y.toNat < f.modulus → ∃! x : Word, x.toNat < f.modulus ∧ barWord f x = y) ∧
    ∀ x : Word, barWordLut f x = barWord f x

/-- R225, R224, R210: `RCBARS` raises InvalidConfiguration on a radix sequence that is not usable and NotInField
when some word's recomposed value is `>= p`, writing no word; otherwise every word becomes its value. -/
def Obligations.RcbarsSubstituteDigits : Prop :=
  ∀ s : State,
    decode (encodeZ 0x2E#8) = .ok .rcbars ∧ LayerChecks .rcbars s ∧
    (Sealed s → ¬InRound s → ¬RadixUsable s → RaisesOn .rcbars s .invalidConfiguration) ∧
    (Inv s → Sealed s → ¬InRound s → RadixUsable s →
      (∃ k : RegNum, k.toNat < s.csr.t.toNat ∧ s.p ≤ rcBarValue s (s.elem k)) →
      RaisesOn .rcbars s .notInField) ∧
    (Inv s → Sealed s → ¬InRound s → RadixUsable s →
      (∀ k : RegNum, k.toNat < s.csr.t.toNat → rcBarValue s (s.elem k) < s.p) →
      ∃ t, exec .rcbars s = .next t ∧
        (∀ k : RegNum, k.toNat < s.csr.t.toNat → t.elem k = rcBarValue s (s.elem k)) ∧
        OnlyVector s t ∧ Responds s t 0#8 0#64)

/-- R227, R226, R210: `FEIS` adds `u = (S[0] + RC[k][0])^d` to every word but word 0; `FEIS.ROT` then rotates the
words left by one. -/
def Obligations.FeisAddsAndRotates : Prop :=
  ∀ (rot : BitVec 1) (row : RowNum) (s : State),
    decode (encodeL 0x2F#8 rot row) = .ok (.feis rot row) ∧ LayerChecks (.feis rot row) s ∧
    (Inv s → Sealed s → ¬InRound s →
      ∃ t, exec (.feis rot row) s = .next t ∧
        (∀ (u : Nat) (m : Nat → Nat), u = (s.elem 0#5 + s.rc row.toNat 0) ^ s.csr.d.toNat % s.p →
          m 0 = s.elem 0#5 →
          (∀ i, 1 ≤ i → i < s.csr.t.toNat → m i = (stateWord s i + u) % s.p) →
          ∀ k : RegNum, k.toNat < s.csr.t.toNat →
            t.elem k = if rot = 1#1 then m ((k.toNat + 1) % s.csr.t.toNat) else m k.toNat) ∧
        OnlyVector s t ∧ Responds s t 0#8 0#64)

/-- R217, R226: the bricks and the Feistel step, for every constant row and degree, with rotation or without, are
bijections of the canonical vectors of the unit's width. -/
def Obligations.BricksAndFeistelAreBijections : Prop :=
  ∀ (s : State) (k : Nat) (rot : Bool), 2 ≤ s.csr.t.toNat →
    (∀ w, CanonicalVec s w → ∃! v, CanonicalVec s v ∧ bricks s v = w) ∧
    ∀ w, CanonicalVec s w → ∃! v, CanonicalVec s v ∧ feistelStep s k rot v = w

/-! ### The sequencer -/

/-- R241 to R246, R196: the round of each variant, for the rounds `r < R`, as the rules write it, with the constant
rows of R79; the linear layer of the sequencer is the dense product with bank 0 when `LSEL = 0` and the circulant
product when `LSEL = 1`. -/
def Obligations.RoundStructures : Prop :=
  ∀ (s : State) (r : Nat) (v : List Nat),
    (s.csr.lsel = 0#1 → lin s v = dense s 0#1 v) ∧
    (s.csr.lsel = 1#1 → lin s v = circ s v) ∧
    (s.csr.var = 0#3 → r < s.rounds → r < s.csr.rfb.toNat ∨ s.csr.rfb.toNat + s.csr.rp.toNat ≤ r →
      round s r v = .ok (lin s (sboxFull s (addRc s r v)))) ∧
    (s.csr.var = 0#3 → r < s.rounds → s.csr.rfb.toNat ≤ r →
      r < s.csr.rfb.toNat + s.csr.rp.toNat →
      round s r v = .ok (if s.csr.isel = 0#1 then cheap s (sboxWord0 s (addRc s r v))
        else dense s 1#1 (sboxWord0 s (addRc s r v)))) ∧
    (s.csr.var = 1#3 → r < s.rounds →
      (∀ e, sboxInv s (addRc s (2 * r) (lin s (sboxFull s v))) = .error e → round s r v = .error e) ∧
      ∀ b, sboxInv s (addRc s (2 * r) (lin s (sboxFull s v))) = .ok b →
        round s r v = .ok (addRc s (2 * r + 1) (lin s b))) ∧
    (s.csr.var = 2#3 → r + 1 < s.rounds → round s r v = .ok (feistelStep s r true v)) ∧
    (s.csr.var = 2#3 → s.rounds = r + 1 → round s r v = .ok (feistelStep s r false v)) ∧
    (s.csr.var = 3#3 → r < s.rounds →
      round s r v = .ok (addRc s r (lin s (bricks s (bars s barWord v))))) ∧
    (s.csr.var = 4#3 → r < s.rounds → s.csr.barmask.getLsbD r = false →
      round s r v = .ok (affine s r (bricks s v))) ∧
    (s.csr.var = 4#3 → r < s.rounds → s.csr.barmask.getLsbD r = true →
      (∀ e, rcBars s v = .error e → round s r v = .error e) ∧
      ∀ n, rcBars s v = .ok n → round s r v = .ok (affine s r n))

/-- R247: `PSTART` enters round 0 from NotStarted and from Done, and changes nothing else. -/
def Obligations.PstartEntersRoundZero : Prop :=
  ∀ s : State,
    decode (encodeZ 0x30#8) = .ok .pstart ∧ LayerChecks .pstart s ∧
    (Sealed s → ¬InRound s →
      ∃ t, exec .pstart s = .next t ∧ OnlyCsrs s t ∧
        t.csr = { s.csr with pstate := 1#2, rnd := 0#9 } ∧ Responds s t 0#8 0#64)

/-- R248, R240: `PSTEP` applies the round `RND` to the state and moves to the next round, or to Done after the
last; where the round has no value it raises what the round says and leaves the sequencer where it was. -/
def Obligations.PstepAppliesOneRound : Prop :=
  ∀ s : State,
    decode (encodeZ 0x31#8) = .ok .pstep ∧
    (¬Sealed s → RaisesOn .pstep s .invalidConfiguration) ∧
    (Sealed s → ¬InRound s → RaisesOn .pstep s .badSequence) ∧
    (∀ e, Sealed s → InRound s → round s s.csr.rnd.toNat s.vec = .error e →
      RaisesOn .pstep s e) ∧
    ∀ v, Inv s → Sealed s → InRound s → round s s.csr.rnd.toNat s.vec = .ok v →
      ∃ t, exec .pstep s = .next t ∧ v.length = s.csr.t.toNat ∧
        (∀ k : RegNum, k.toNat < s.csr.t.toNat → t.elem k = v.getD k.toNat 0) ∧
        SameScratch s t ∧ SameDigits s t ∧ SameMemory s t ∧ SameCsrsButSequencer s t ∧
        t.csr.rnd.toNat = s.csr.rnd.toNat + 1 ∧
        t.csr.pstate = (if s.csr.rnd.toNat + 1 = s.rounds then 2#2 else 1#2) ∧
        Responds s t 0#8 0#64

/-- R249, R240: `PERM` applies the rounds from `RND` (in a round) or from 0 up to `R - 1`, one after the other, and
is Done; the first round that has no value raises its error and nothing is written. -/
def Obligations.PermAppliesRemainingRounds : Prop :=
  ∀ (s : State) (r0 : Nat) (vs : Nat → List Nat),
    r0 = (if s.csr.pstate = 1#2 then s.csr.rnd.toNat else 0) → vs r0 = s.vec →
    decode (encodeZ 0x32#8) = .ok .perm ∧
    (¬Sealed s → RaisesOn .perm s .invalidConfiguration) ∧
    (∀ k e, Sealed s → r0 ≤ k → k < s.rounds →
      (∀ j, r0 ≤ j → j < k → round s j (vs j) = .ok (vs (j + 1))) → round s k (vs k) = .error e →
      RaisesOn .perm s e) ∧
    (Inv s → Sealed s → (∀ j, r0 ≤ j → j < s.rounds → round s j (vs j) = .ok (vs (j + 1))) →
      ∃ t, exec .perm s = .next t ∧
        (∀ k : RegNum, k.toNat < s.csr.t.toNat → t.elem k = (vs s.rounds).getD k.toNat 0) ∧
        SameScratch s t ∧ SameDigits s t ∧ SameMemory s t ∧ SameCsrsButSequencer s t ∧
        t.csr.pstate = 2#2 ∧ t.csr.rnd.toNat = s.rounds ∧ Responds s t 0#8 0#64)

/-- R249, R240, R252: outside a round, whenever `Permutation` has a value on the state vector, `PERM` leaves that
value in `S[0..t-1]`, and leaves the unit as `PSTART` followed by `R` commands `PSTEP` do. In round `r`, whenever the
remaining rounds have a value, `PERM` leaves that value, and leaves the unit as the remaining `R - r` commands `PSTEP`
do. -/
def Obligations.PermEqualsStartAndSteps : Prop :=
  ∀ (s : State) (v : List Nat), Inv s → Sealed s →
    (¬InRound s → permutation s s.vec = .ok v →
      ∃ t s1 u, exec .perm s = .next t ∧ exec .pstart s = .next s1 ∧
        stepRounds s.rounds s1 = .next u ∧ u.unit = t.unit ∧
        ∀ k : RegNum, k.toNat < s.csr.t.toNat → t.elem k = v.getD k.toNat 0) ∧
    (InRound s → runRounds s (s.rounds - s.csr.rnd.toNat) s.csr.rnd.toNat s.vec = .ok v →
      ∃ t u, exec .perm s = .next t ∧
        stepRounds (s.rounds - s.csr.rnd.toNat) s = .next u ∧ u.unit = t.unit ∧
        ∀ k : RegNum, k.toNat < s.csr.t.toNat → t.elem k = v.getD k.toNat 0)

/-- R254: under `VAR = 2` the permutation is a bijection of the canonical state vectors, for every parameter
content. -/
def Obligations.FeistelPermutationIsBijection : Prop :=
  ∀ s : State, Inv s → Sealed s → s.csr.var = 2#3 →
    ∀ w, CanonicalVec s w → ∃! v, CanonicalVec s v ∧ permutation s v = .ok w

/-- R256: `PERM` under `ISEL = 0` and under `ISEL = 1` leaves the same state registers when bank 1 holds the matrix
`SP`, and likewise under `LSEL = 0` and `LSEL = 1` when bank 0 holds the circulant matrix of `CROW`. -/
def Obligations.FastAndReferencePathsAgree : Prop :=
  ∀ s : State, Inv s → Sealed s →
    (BankIsCheap s 1#1 →
      ∃ t u, exec .perm { s with csr := { s.csr with isel := 0#1 } } = .next t ∧
        exec .perm { s with csr := { s.csr with isel := 1#1 } } = .next u ∧
        SameRegs t u ∧ t.responses = u.responses) ∧
    (BankIsCirculant s 0#1 →
      ∃ t u, exec .perm { s with csr := { s.csr with lsel := 0#1 } } = .next t ∧
        exec .perm { s with csr := { s.csr with lsel := 1#1 } } = .next u ∧
        SameRegs t u ∧ t.responses = u.responses)
end

