-- ==== Sys2Proof/Laws/Arithmetic.lean ====
section
/-! SUPPORT. The arithmetic of `F_p`: the moduli, that every result is canonical, what square-and-multiply
computes, and the vectors of the layers word by word. -/

namespace Sys2Proof.Machine

/-! ### The moduli -/

theorem modulus_pos (f : Field) : 0 < f.modulus := by cases f <;> decide

theorem one_lt_modulus (f : Field) : 1 < f.modulus := by cases f <;> decide

/-- A canonical value fits the 64-bit container. -/
theorem modulus_lt (f : Field) : f.modulus < 2 ^ 64 := by cases f <;> decide

theorem p_pos (s : State) : 0 < s.p := modulus_pos _

theorem one_lt_p (s : State) : 1 < s.p := one_lt_modulus _

theorem p_lt (s : State) : s.p < 2 ^ 64 := modulus_lt _

/-! ### Every result is canonical -/

theorem addMod_lt {p : Nat} (h : 0 < p) (a b : Nat) : addMod p a b < p := Nat.mod_lt _ h

theorem mulMod_lt {p : Nat} (h : 0 < p) (a b : Nat) : mulMod p a b < p := Nat.mod_lt _ h

theorem dotMod_lt {p : Nat} (h : 0 < p) (xs ys : List Nat) : dotMod p xs ys < p := Nat.mod_lt _ h

theorem subMod_lt {p : Nat} (h : 0 < p) (a b : Nat) : subMod p a b < p := by
  have h1 : (0 : Int) < p := by exact_mod_cast h
  have h2 := Int.emod_lt_of_pos ((a : Int) - b) h1
  have h3 := Int.emod_nonneg ((a : Int) - b) (ne_of_gt h1)
  unfold subMod
  omega

theorem negMod_lt {p : Nat} (h : 0 < p) (a : Nat) : negMod p a < p := by
  unfold negMod
  split <;> omega

/-! ### Powers -/

/-- Square-and-multiply over the low `n` bits, from an accumulator that is a power of the base. -/
theorem powLoop_eq (p a e n acc : Nat) (k : Nat) (h : acc % p = a ^ k % p) :
    powLoop p a e n acc % p = a ^ (k * 2 ^ n + e % 2 ^ n) % p := by
  induction n generalizing acc k with
  | zero => simpa [powLoop, Nat.mod_one] using h
  | succ n ih =>
    have hsq : mulMod p acc acc % p = a ^ (2 * k) % p := by
      unfold mulMod
      rw [Nat.mod_mod, Nat.mul_mod, h, ← Nat.mul_mod, ← pow_add, two_mul]
    have hbit : e % 2 ^ (n + 1) = e % 2 ^ n + 2 ^ n * (e / 2 ^ n % 2) := Nat.mod_pow_succ
    rw [powLoop]
    cases hb : e.testBit n with
    | false =>
      have h0 : e / 2 ^ n % 2 = 0 := by
        have := Nat.testBit_eq_decide_div_mod_eq (x := e) (i := n)
        rw [hb] at this
        have : e / 2 ^ n % 2 ≠ 1 := by simpa using this.symm
        omega
      rw [if_neg (by simp), ih _ _ hsq, hbit, h0]
      congr 2
      ring
    | true =>
      have h1 : e / 2 ^ n % 2 = 1 := by
        have := Nat.testBit_eq_decide_div_mod_eq (x := e) (i := n)
        rw [hb] at this
        simpa using this.symm
      have hm : mulMod p (mulMod p acc acc) a % p = a ^ (2 * k + 1) % p := by
        conv_lhs => unfold mulMod
        rw [Nat.mod_mod, Nat.mul_mod, show (acc * acc % p) % p = a ^ (2 * k) % p from hsq,
          ← Nat.mul_mod, pow_succ]
      rw [if_pos rfl, ih _ _ hm, hbit, h1]
      congr 2
      ring

theorem powLoop_lt {p : Nat} (h : 0 < p) (a e n acc : Nat) (hacc : acc < p) :
    powLoop p a e n acc < p := by
  induction n generalizing acc with
  | zero => exact hacc
  | succ n ih =>
    rw [powLoop]
    apply ih
    split <;> exact mulMod_lt h _ _

/-- `a ^p e` is the power taken modulo `p`, for every exponent of 64 bits. -/
theorem powMod_eq {p : Nat} (h : 1 < p) (a e : Nat) (he : e < 2 ^ 64) :
    powMod p a e = a ^ e % p := by
  have h1 := powLoop_eq p a e 64 1 0 (by simp)
  rw [zero_mul, zero_add, Nat.mod_eq_of_lt he] at h1
  rw [← h1, powMod, Nat.mod_eq_of_lt (powLoop_lt (by omega) a e 64 1 h)]

theorem powMod_lt {p : Nat} (h : 1 < p) (a e : Nat) : powMod p a e < p :=
  powLoop_lt (by omega) a e 64 1 h

/-! ### Vectors -/

@[simp] theorem tabulate_length (t : Nat) (f : Nat → Nat) : (tabulate t f).length = t := by
  simp [tabulate]

/-- Word `i` of a tabulated vector. -/
theorem wordAt_tabulate {t i : Nat} (f : Nat → Nat) (h : i < t) : wordAt (tabulate t f) i = f i := by
  rw [wordAt, tabulate, List.getD_eq_getElem _ _ (by simpa using h)]
  simp

/-- A vector is the tabulation of its words. -/
theorem tabulate_wordAt (v : List Nat) : tabulate v.length (wordAt v) = v := by
  apply List.ext_getElem
  · simp
  · intro i h1 h2
    rw [← List.getD_eq_getElem _ 0 h1, ← wordAt, wordAt_tabulate _ h2, wordAt,
      List.getD_eq_getElem _ _ h2]

/-- A list's sum over the first `t` indices is the sum over that range. -/
theorem sum_map_range (t : Nat) (f : Nat → Nat) :
    ((List.range t).map f).sum = ∑ j ∈ Finset.range t, f j := by
  induction t with
  | zero => rfl
  | succ t ih => simp [List.range_succ, Finset.sum_range_succ, ih]

/-- The sum of a vector's words. -/
theorem sum_eq (v : List Nat) : v.sum = ∑ j ∈ Finset.range v.length, wordAt v j := by
  rw [← sum_map_range]
  conv_lhs => rw [← tabulate_wordAt v]
  rfl

/-- The sum of products of two vectors of the same length, index by index. -/
theorem dotMod_tabulate (p : Nat) (f : Nat → Nat) (v : List Nat) :
    dotMod p (tabulate v.length f) v = (∑ j ∈ Finset.range v.length, f j * wordAt v j) % p := by
  have h : ∀ n, List.zipWith (· * ·) (tabulate n f) (tabulate n (wordAt v)) =
      (List.range n).map fun j => f j * wordAt v j := by
    intro n
    rw [tabulate, tabulate, List.zipWith_map, List.zipWith_self]
  have hv := h v.length
  rw [tabulate_wordAt] at hv
  rw [dotMod, hv, sum_map_range]

end Sys2Proof.Machine
end

