-- ==== Sys2Proof/Laws/State.lean ====
section
/-! SUPPORT. What each update of the state leaves in each field: one lemma per field per update, and the same
for what is read through the fields (a register, a digit, a parameter word, the modulus), so that no proof
unfolds a record update. -/

namespace Sys2Proof.Machine

variable (s : State)

/-! ### `State.setWord` -/

@[simp] theorem setWord_sreg (a : Nat) (v : Word) : (s.setWord a v).sreg = s.sreg := rfl
@[simp] theorem setWord_dg (a : Nat) (v : Word) : (s.setWord a v).dg = s.dg := rfl
@[simp] theorem setWord_csr (a : Nat) (v : Word) : (s.setWord a v).csr = s.csr := rfl
@[simp] theorem setWord_pm (a : Nat) (v : Word) : (s.setWord a v).pm = memWrite s.pm a v := rfl
@[simp] theorem setWord_input (a : Nat) (v : Word) : (s.setWord a v).input = s.input := rfl
@[simp] theorem setWord_din (a : Nat) (v : Word) : (s.setWord a v).din = s.din := rfl
@[simp] theorem setWord_responses (a : Nat) (v : Word) :
    (s.setWord a v).responses = s.responses := rfl
@[simp] theorem setWord_elem (a : Nat) (v : Word) (r : RegNum) : (s.setWord a v).elem r = s.elem r := rfl
@[simp] theorem setWord_digit (a : Nat) (v : Word) (r : RegNum) : (s.setWord a v).digit r = s.digit r := rfl
@[simp] theorem setWord_p (a : Nat) (v : Word) : (s.setWord a v).p = s.p := rfl

/-! ### `State.setElem` -/

@[simp] theorem setElem_sreg (r : RegNum) (v : Nat) :
    (s.setElem r v).sreg = s.sreg.set r.toNat (BitVec.ofNat 64 v) r.isLt := rfl
@[simp] theorem setElem_dg (r : RegNum) (v : Nat) : (s.setElem r v).dg = s.dg := rfl
@[simp] theorem setElem_csr (r : RegNum) (v : Nat) : (s.setElem r v).csr = s.csr := rfl
@[simp] theorem setElem_pm (r : RegNum) (v : Nat) : (s.setElem r v).pm = s.pm := rfl
@[simp] theorem setElem_input (r : RegNum) (v : Nat) : (s.setElem r v).input = s.input := rfl
@[simp] theorem setElem_din (r : RegNum) (v : Nat) : (s.setElem r v).din = s.din := rfl
@[simp] theorem setElem_responses (r : RegNum) (v : Nat) :
    (s.setElem r v).responses = s.responses := rfl
@[simp] theorem setElem_digit (r : RegNum) (v : Nat) (k : RegNum) : (s.setElem r v).digit k = s.digit k := rfl
@[simp] theorem setElem_word (r : RegNum) (v : Nat) (a : Nat) : (s.setElem r v).word a = s.word a := rfl
@[simp] theorem setElem_p (r : RegNum) (v : Nat) : (s.setElem r v).p = s.p := rfl

/-! ### `State.setDigit` -/

@[simp] theorem setDigit_sreg (r : RegNum) (v : Word) : (s.setDigit r v).sreg = s.sreg := rfl
@[simp] theorem setDigit_dg (r : RegNum) (v : Word) :
    (s.setDigit r v).dg = s.dg.set r.toNat v r.isLt := rfl
@[simp] theorem setDigit_csr (r : RegNum) (v : Word) : (s.setDigit r v).csr = s.csr := rfl
@[simp] theorem setDigit_pm (r : RegNum) (v : Word) : (s.setDigit r v).pm = s.pm := rfl
@[simp] theorem setDigit_input (r : RegNum) (v : Word) : (s.setDigit r v).input = s.input := rfl
@[simp] theorem setDigit_din (r : RegNum) (v : Word) : (s.setDigit r v).din = s.din := rfl
@[simp] theorem setDigit_responses (r : RegNum) (v : Word) :
    (s.setDigit r v).responses = s.responses := rfl
@[simp] theorem setDigit_elem (r : RegNum) (v : Word) (k : RegNum) : (s.setDigit r v).elem k = s.elem k := rfl
@[simp] theorem setDigit_word (r : RegNum) (v : Word) (a : Nat) : (s.setDigit r v).word a = s.word a := rfl
@[simp] theorem setDigit_p (r : RegNum) (v : Word) : (s.setDigit r v).p = s.p := rfl

/-! ### `State.setVec` -/

@[simp] theorem setVec_sreg (vs : List Nat) : (s.setVec vs).sreg = overwrite s.sreg vs := rfl
@[simp] theorem setVec_dg (vs : List Nat) : (s.setVec vs).dg = s.dg := rfl
@[simp] theorem setVec_csr (vs : List Nat) : (s.setVec vs).csr = s.csr := rfl
@[simp] theorem setVec_pm (vs : List Nat) : (s.setVec vs).pm = s.pm := rfl
@[simp] theorem setVec_input (vs : List Nat) : (s.setVec vs).input = s.input := rfl
@[simp] theorem setVec_din (vs : List Nat) : (s.setVec vs).din = s.din := rfl
@[simp] theorem setVec_responses (vs : List Nat) : (s.setVec vs).responses = s.responses := rfl
@[simp] theorem setVec_digit (vs : List Nat) (r : RegNum) : (s.setVec vs).digit r = s.digit r := rfl
@[simp] theorem setVec_word (vs : List Nat) (a : Nat) : (s.setVec vs).word a = s.word a := rfl
@[simp] theorem setVec_p (vs : List Nat) : (s.setVec vs).p = s.p := rfl

/-! ### `State.setDigits` -/

@[simp] theorem setDigits_sreg (ds : List Nat) : (s.setDigits ds).sreg = s.sreg := rfl
@[simp] theorem setDigits_dg (ds : List Nat) : (s.setDigits ds).dg = overwrite s.dg ds := rfl
@[simp] theorem setDigits_csr (ds : List Nat) : (s.setDigits ds).csr = s.csr := rfl
@[simp] theorem setDigits_pm (ds : List Nat) : (s.setDigits ds).pm = s.pm := rfl
@[simp] theorem setDigits_input (ds : List Nat) : (s.setDigits ds).input = s.input := rfl
@[simp] theorem setDigits_din (ds : List Nat) : (s.setDigits ds).din = s.din := rfl
@[simp] theorem setDigits_responses (ds : List Nat) :
    (s.setDigits ds).responses = s.responses := rfl
@[simp] theorem setDigits_elem (ds : List Nat) (r : RegNum) : (s.setDigits ds).elem r = s.elem r := rfl
@[simp] theorem setDigits_word (ds : List Nat) (a : Nat) : (s.setDigits ds).word a = s.word a := rfl
@[simp] theorem setDigits_p (ds : List Nat) : (s.setDigits ds).p = s.p := rfl

/-! ### `State.setCsr` -/

@[simp] theorem setCsr_sreg (c : Csrs) : (s.setCsr c).sreg = s.sreg := rfl
@[simp] theorem setCsr_dg (c : Csrs) : (s.setCsr c).dg = s.dg := rfl
@[simp] theorem setCsr_csr (c : Csrs) : (s.setCsr c).csr = c := rfl
@[simp] theorem setCsr_pm (c : Csrs) : (s.setCsr c).pm = s.pm := rfl
@[simp] theorem setCsr_input (c : Csrs) : (s.setCsr c).input = s.input := rfl
@[simp] theorem setCsr_din (c : Csrs) : (s.setCsr c).din = s.din := rfl
@[simp] theorem setCsr_responses (c : Csrs) : (s.setCsr c).responses = s.responses := rfl
@[simp] theorem setCsr_elem (c : Csrs) (r : RegNum) : (s.setCsr c).elem r = s.elem r := rfl
@[simp] theorem setCsr_digit (c : Csrs) (r : RegNum) : (s.setCsr c).digit r = s.digit r := rfl
@[simp] theorem setCsr_word (c : Csrs) (a : Nat) : (s.setCsr c).word a = s.word a := rfl

/-! ### `State.setSequencer` -/

@[simp] theorem setSequencer_sreg (x : BitVec 2) (n : BitVec 9) :
    (s.setSequencer x n).sreg = s.sreg := rfl
@[simp] theorem setSequencer_dg (x : BitVec 2) (n : BitVec 9) :
    (s.setSequencer x n).dg = s.dg := rfl
@[simp] theorem setSequencer_csr (x : BitVec 2) (n : BitVec 9) :
    (s.setSequencer x n).csr = { s.csr with pstate := x, rnd := n } := rfl
@[simp] theorem setSequencer_pm (x : BitVec 2) (n : BitVec 9) :
    (s.setSequencer x n).pm = s.pm := rfl
@[simp] theorem setSequencer_input (x : BitVec 2) (n : BitVec 9) :
    (s.setSequencer x n).input = s.input := rfl
@[simp] theorem setSequencer_din (x : BitVec 2) (n : BitVec 9) :
    (s.setSequencer x n).din = s.din := rfl
@[simp] theorem setSequencer_responses (x : BitVec 2) (n : BitVec 9) :
    (s.setSequencer x n).responses = s.responses := rfl
@[simp] theorem setSequencer_elem (x : BitVec 2) (n : BitVec 9) (r : RegNum) : (s.setSequencer x n).elem r = s.elem r := rfl
@[simp] theorem setSequencer_digit (x : BitVec 2) (n : BitVec 9) (r : RegNum) : (s.setSequencer x n).digit r = s.digit r := rfl
@[simp] theorem setSequencer_word (x : BitVec 2) (n : BitVec 9) (a : Nat) : (s.setSequencer x n).word a = s.word a := rfl
@[simp] theorem setSequencer_p (x : BitVec 2) (n : BitVec 9) : (s.setSequencer x n).p = s.p := rfl

/-! ### `State.setPhase` -/

@[simp] theorem setPhase_sreg (l : BitVec 1) : (s.setPhase l).sreg = s.sreg := rfl
@[simp] theorem setPhase_dg (l : BitVec 1) : (s.setPhase l).dg = s.dg := rfl
@[simp] theorem setPhase_csr (l : BitVec 1) :
    (s.setPhase l).csr = { s.csr with lock := l, pstate := 0#2, rnd := 0#9 } := rfl
@[simp] theorem setPhase_pm (l : BitVec 1) : (s.setPhase l).pm = s.pm := rfl
@[simp] theorem setPhase_input (l : BitVec 1) : (s.setPhase l).input = s.input := rfl
@[simp] theorem setPhase_din (l : BitVec 1) : (s.setPhase l).din = s.din := rfl
@[simp] theorem setPhase_responses (l : BitVec 1) : (s.setPhase l).responses = s.responses := rfl
@[simp] theorem setPhase_elem (l : BitVec 1) (r : RegNum) : (s.setPhase l).elem r = s.elem r := rfl
@[simp] theorem setPhase_digit (l : BitVec 1) (r : RegNum) : (s.setPhase l).digit r = s.digit r := rfl
@[simp] theorem setPhase_word (l : BitVec 1) (a : Nat) : (s.setPhase l).word a = s.word a := rfl
@[simp] theorem setPhase_p (l : BitVec 1) : (s.setPhase l).p = s.p := rfl

/-! ### `State.setErrFlags` -/

@[simp] theorem setErrFlags_sreg (f : BitVec 9) : (s.setErrFlags f).sreg = s.sreg := rfl
@[simp] theorem setErrFlags_dg (f : BitVec 9) : (s.setErrFlags f).dg = s.dg := rfl
@[simp] theorem setErrFlags_csr (f : BitVec 9) :
    (s.setErrFlags f).csr = { s.csr with errflags := f } := rfl
@[simp] theorem setErrFlags_pm (f : BitVec 9) : (s.setErrFlags f).pm = s.pm := rfl
@[simp] theorem setErrFlags_input (f : BitVec 9) : (s.setErrFlags f).input = s.input := rfl
@[simp] theorem setErrFlags_din (f : BitVec 9) : (s.setErrFlags f).din = s.din := rfl
@[simp] theorem setErrFlags_responses (f : BitVec 9) :
    (s.setErrFlags f).responses = s.responses := rfl
@[simp] theorem setErrFlags_elem (f : BitVec 9) (r : RegNum) : (s.setErrFlags f).elem r = s.elem r := rfl
@[simp] theorem setErrFlags_digit (f : BitVec 9) (r : RegNum) : (s.setErrFlags f).digit r = s.digit r := rfl
@[simp] theorem setErrFlags_word (f : BitVec 9) (a : Nat) : (s.setErrFlags f).word a = s.word a := rfl
@[simp] theorem setErrFlags_p (f : BitVec 9) : (s.setErrFlags f).p = s.p := rfl

/-! ### `State.respond` -/

@[simp] theorem respond_sreg (c : BitVec 8) (d : Word) : (s.respond c d).sreg = s.sreg := rfl
@[simp] theorem respond_dg (c : BitVec 8) (d : Word) : (s.respond c d).dg = s.dg := rfl
@[simp] theorem respond_csr (c : BitVec 8) (d : Word) : (s.respond c d).csr = s.csr := rfl
@[simp] theorem respond_pm (c : BitVec 8) (d : Word) : (s.respond c d).pm = s.pm := rfl
@[simp] theorem respond_input (c : BitVec 8) (d : Word) : (s.respond c d).input = s.input := rfl
@[simp] theorem respond_din (c : BitVec 8) (d : Word) : (s.respond c d).din = s.din := rfl
@[simp] theorem respond_responses (c : BitVec 8) (d : Word) :
    (s.respond c d).responses = s.responses ++ [⟨c, d⟩] := rfl
@[simp] theorem respond_elem (c : BitVec 8) (d : Word) (r : RegNum) : (s.respond c d).elem r = s.elem r := rfl
@[simp] theorem respond_digit (c : BitVec 8) (d : Word) (r : RegNum) : (s.respond c d).digit r = s.digit r := rfl
@[simp] theorem respond_word (c : BitVec 8) (d : Word) (a : Nat) : (s.respond c d).word a = s.word a := rfl
@[simp] theorem respond_p (c : BitVec 8) (d : Word) : (s.respond c d).p = s.p := rfl

/-! ### `State.answer` -/

@[simp] theorem answer_sreg (d : Word) : (s.answer d).sreg = s.sreg := rfl
@[simp] theorem answer_dg (d : Word) : (s.answer d).dg = s.dg := rfl
@[simp] theorem answer_csr (d : Word) : (s.answer d).csr = s.csr := rfl
@[simp] theorem answer_pm (d : Word) : (s.answer d).pm = s.pm := rfl
@[simp] theorem answer_input (d : Word) : (s.answer d).input = s.input := rfl
@[simp] theorem answer_din (d : Word) : (s.answer d).din = s.din := rfl
@[simp] theorem answer_responses (d : Word) :
    (s.answer d).responses = s.responses ++ [⟨0#8, d⟩] := rfl
@[simp] theorem answer_elem (d : Word) (r : RegNum) : (s.answer d).elem r = s.elem r := rfl
@[simp] theorem answer_digit (d : Word) (r : RegNum) : (s.answer d).digit r = s.digit r := rfl
@[simp] theorem answer_word (d : Word) (a : Nat) : (s.answer d).word a = s.word a := rfl
@[simp] theorem answer_p (d : Word) : (s.answer d).p = s.p := rfl

/-! ### `State.raise` -/

@[simp] theorem raise_sreg (e : Err) : (s.raise e).sreg = s.sreg := rfl
@[simp] theorem raise_dg (e : Err) : (s.raise e).dg = s.dg := rfl
@[simp] theorem raise_csr (e : Err) :
    (s.raise e).csr = { s.csr with errflags := stickyFlags s.csr.errflags e } := rfl
@[simp] theorem raise_pm (e : Err) : (s.raise e).pm = s.pm := rfl
@[simp] theorem raise_input (e : Err) : (s.raise e).input = s.input := rfl
@[simp] theorem raise_din (e : Err) : (s.raise e).din = s.din := rfl
@[simp] theorem raise_responses (e : Err) :
    (s.raise e).responses = s.responses ++ [⟨e.code, 0#64⟩] := rfl
@[simp] theorem raise_elem (e : Err) (r : RegNum) : (s.raise e).elem r = s.elem r := rfl
@[simp] theorem raise_digit (e : Err) (r : RegNum) : (s.raise e).digit r = s.digit r := rfl
@[simp] theorem raise_word (e : Err) (a : Nat) : (s.raise e).word a = s.word a := rfl
@[simp] theorem raise_p (e : Err) : (s.raise e).p = s.p := rfl

/-! ### `State.cleared` -/

@[simp] theorem cleared_sreg (f : BitVec 1) : (s.cleared f).sreg = Vector.replicate 32 0#64 := rfl
@[simp] theorem cleared_dg (f : BitVec 1) : (s.cleared f).dg = Vector.replicate 32 0#64 := rfl
@[simp] theorem cleared_csr (f : BitVec 1) :
    (s.cleared f).csr = { State.reset.csr with fsel := f } := rfl
@[simp] theorem cleared_pm (f : BitVec 1) : (s.cleared f).pm = [] := rfl
@[simp] theorem cleared_input (f : BitVec 1) : (s.cleared f).input = s.input := rfl
@[simp] theorem cleared_din (f : BitVec 1) : (s.cleared f).din = s.din := rfl
@[simp] theorem cleared_responses (f : BitVec 1) : (s.cleared f).responses = s.responses := rfl

/-! ### `State.takeReset` -/

@[simp] theorem takeReset_sreg (l : List HostEvent) :
    (s.takeReset l).sreg = Vector.replicate 32 0#64 := rfl
@[simp] theorem takeReset_dg (l : List HostEvent) :
    (s.takeReset l).dg = Vector.replicate 32 0#64 := rfl
@[simp] theorem takeReset_csr (l : List HostEvent) : (s.takeReset l).csr = State.reset.csr := rfl
@[simp] theorem takeReset_pm (l : List HostEvent) : (s.takeReset l).pm = [] := rfl
@[simp] theorem takeReset_input (l : List HostEvent) : (s.takeReset l).input = l := rfl
@[simp] theorem takeReset_din (l : List HostEvent) : (s.takeReset l).din = 0#64 := rfl
@[simp] theorem takeReset_responses (l : List HostEvent) :
    (s.takeReset l).responses = s.responses := rfl

/-! ### `State.takeCommand` -/

@[simp] theorem takeCommand_sreg (d : Word) (l : List HostEvent) :
    (s.takeCommand d l).sreg = s.sreg := rfl
@[simp] theorem takeCommand_dg (d : Word) (l : List HostEvent) :
    (s.takeCommand d l).dg = s.dg := rfl
@[simp] theorem takeCommand_csr (d : Word) (l : List HostEvent) :
    (s.takeCommand d l).csr = s.csr := rfl
@[simp] theorem takeCommand_pm (d : Word) (l : List HostEvent) :
    (s.takeCommand d l).pm = s.pm := rfl
@[simp] theorem takeCommand_input (d : Word) (l : List HostEvent) :
    (s.takeCommand d l).input = l := rfl
@[simp] theorem takeCommand_din (d : Word) (l : List HostEvent) :
    (s.takeCommand d l).din = d := rfl
@[simp] theorem takeCommand_responses (d : Word) (l : List HostEvent) :
    (s.takeCommand d l).responses = s.responses := rfl
@[simp] theorem takeCommand_elem (d : Word) (l : List HostEvent) (r : RegNum) : (s.takeCommand d l).elem r = s.elem r := rfl
@[simp] theorem takeCommand_digit (d : Word) (l : List HostEvent) (r : RegNum) : (s.takeCommand d l).digit r = s.digit r := rfl
@[simp] theorem takeCommand_word (d : Word) (l : List HostEvent) (a : Nat) : (s.takeCommand d l).word a = s.word a := rfl
@[simp] theorem takeCommand_p (d : Word) (l : List HostEvent) : (s.takeCommand d l).p = s.p := rfl

end Sys2Proof.Machine
end

