-- ==== Sys2Proof/Laws/Command.lean ====
section
/-! SUPPORT. What a command can do: every command answers a next state, either by raising the first check
that fails, or by its effect. -/

namespace Sys2Proof.Machine

/-! ### The checks -/

@[simp] theorem firstFailure_nil : firstFailure [] = none := rfl
@[simp] theorem firstFailure_none (cs : List (Option Err)) :
    firstFailure (none :: cs) = firstFailure cs := rfl
@[simp] theorem firstFailure_some (e : Err) (cs : List (Option Err)) :
    firstFailure (some e :: cs) = some e := rfl

/-- No check fails exactly when each passes. -/
theorem firstFailure_eq_none {cs : List (Option Err)} :
    firstFailure cs = none ↔ ∀ c ∈ cs, c = none := by
  induction cs with
  | nil => simp
  | cons c cs ih => cases c <;> simp [ih]

/-- The error raised is one of the checks'. -/
theorem firstFailure_mem {cs : List (Option Err)} {e : Err} (h : firstFailure cs = some e) :
    some e ∈ cs := by
  induction cs with
  | nil => simp at h
  | cons c cs ih =>
    cases c with
    | none => exact List.mem_cons_of_mem _ (ih (by simpa using h))
    | some x => simp_all

@[simp] theorem failIf_true (e : Err) : failIf true e = some e := rfl
@[simp] theorem failIf_false (e : Err) : failIf false e = none := rfl

theorem failIf_eq_none {b : Bool} {e : Err} : failIf b e = none ↔ b = false := by
  cases b <;> simp

theorem needsSealed_eq_none {s : State} : needsSealed s = none ↔ s.csr.lock ≠ 0#1 := by
  simp [needsSealed]

theorem needsUnsealed_eq_none {s : State} : needsUnsealed s = none ↔ s.csr.lock ≠ 1#1 := by
  simp [needsUnsealed]

theorem needsNotInRound_eq_none {s : State} : needsNotInRound s = none ↔ s.csr.pstate ≠ 1#2 := by
  simp [needsNotInRound]

/-! ### The command -/

/-- The first failing check is raised, and the effect plays no part. -/
theorem command_raises {s : State} {cs : List (Option Err)} {e : Err}
    (effect : Except Err (State × Word)) (h : firstFailure cs = some e) :
    command s cs effect = .next (s.raise e) := by
  simp [command, h]

/-- With no check failing, an effect without value is raised. -/
theorem command_error {s : State} {cs : List (Option Err)} (e : Err) (h : firstFailure cs = none) :
    command s cs (.error e) = .next (s.raise e) := by
  simp [command, h]

/-- With no check failing, the effect's state answers OK with its data-out. -/
theorem command_ok {s : State} {cs : List (Option Err)} (t : State) (d : Word)
    (h : firstFailure cs = none) : command s cs (.ok (t, d)) = .next (t.answer d) := by
  simp [command, h]

/-- All that a command can do: raise one error, or answer what its effect gives. -/
theorem command_cases (s : State) (cs : List (Option Err)) (effect : Except Err (State × Word)) :
    (∃ e, (firstFailure cs = some e ∨ firstFailure cs = none ∧ effect = .error e) ∧
      command s cs effect = .next (s.raise e)) ∨
    (∃ t d, firstFailure cs = none ∧ effect = .ok (t, d) ∧
      command s cs effect = .next (t.answer d)) := by
  cases hc : firstFailure cs with
  | some e => exact .inl ⟨e, .inl rfl, command_raises _ hc⟩
  | none =>
    cases effect with
    | error e => exact .inl ⟨e, .inr ⟨rfl, rfl⟩, command_error e hc⟩
    | ok x => exact .inr ⟨x.1, x.2, rfl, rfl, command_ok x.1 x.2 hc⟩

/-! ### The step -/

/-- With no event the unit holds its state. -/
theorem step_idle {s : State} (h : s.input = []) : step s = .next s := by
  simp [step, fetch, h]

/-- A reset event. -/
theorem step_reset {s : State} {rest : List HostEvent} (h : s.input = .reset :: rest) :
    step s = .next (s.takeReset rest) := by
  simp [step, fetch, h]

/-- A command whose word decodes runs. -/
theorem step_run {s : State} {cw : Cmd} {din : Word} {rest : List HostEvent} {i : Instr}
    (h : s.input = .command cw din :: rest) (hd : decode cw = .ok i) :
    step s = exec i (s.takeCommand din rest) := by
  simp [step, fetch, h, hd]

/-- A command whose word does not decode raises IllegalCommand. -/
theorem step_illegal {s : State} {cw : Cmd} {din : Word} {rest : List HostEvent} {e : DecodeError}
    (h : s.input = .command cw din :: rest) (hd : decode cw = .error e) :
    step s = .next ((s.takeCommand din rest).raise .illegalCommand) := by
  simp [step, fetch, h, hd]

end Sys2Proof.Machine
end

