-- ==== Sys2Proof/Laws/Configuration.lean ====
section
/-! SUPPORT. The checks of the configuration as the claims write them: the radix sequence (R180), `SEAL` (R134),
the regions of parameter memory (R63), and what a raise leaves (R292). -/

namespace Sys2Proof.Machine

theorem lock_cases (s : State) : s.csr.lock = 0#1 ∨ s.csr.lock = 1#1 := by
  generalize s.csr.lock = l
  revert l
  decide

theorem radixUsable_iff (s : State) : s.radixUsable = true ↔ RadixUsable s := by
  have h : s.radixUsable = true ↔
      (1 ≤ s.numRadix ∧ s.numRadix ≤ 32) ∧ ∀ k, k < s.numRadix → s.radix k ≠ 0 := by
    simp [State.radixUsable, State.radices]
  rw [h, and_assoc]
  rfl

theorem eq_ofNat_iff {n : Nat} (x : BitVec n) (k : Nat) (hk : k < 2 ^ n) :
    x = BitVec.ofNat n k ↔ x.toNat = k := by
  rw [← BitVec.toNat_inj]
  simp [Nat.mod_eq_of_lt hk]

/-- The checks of `SEAL` as the model runs them, on the numbers the CSRs hold. -/
theorem sealOk_iff_numbers (s : State) :
    sealOk s = true ↔
      (2 ≤ s.csr.t.toNat ∧ s.csr.t.toNat ≤ 32) ∧ s.csr.var.toNat ≤ 4 ∧
      (s.csr.d.toNat = 3 ∨ s.csr.d.toNat = 5 ∨ s.csr.d.toNat = 7) ∧
      s.csr.nbars.toNat ≤ s.csr.t.toNat ∧
      (s.csr.var.toNat ≠ 0 ∨ 1 ≤ s.csr.rfb.toNat + s.csr.rp.toNat + s.csr.rfe.toNat ∧
        s.csr.rfb.toNat + s.csr.rp.toNat + s.csr.rfe.toNat ≤ 256) ∧
      (s.csr.var.toNat = 0 ∨ (s.csr.rp.toNat = 0 ∧ s.csr.rfe.toNat = 0 ∧ 1 ≤ s.csr.rfb.toNat ∧
        s.csr.rfb.toNat ≤ maxRounds s.csr.var)) ∧
      (s.csr.var.toNat ≠ 1 ∨ Nat.gcd s.csr.d.toNat (s.p - 1) = 1) ∧
      (s.csr.var.toNat ≠ 4 ∨ (s.csr.t.toNat = 3 ∧ RadixUsable s)) := by
  simp only [sealOk, sealChecks, List.all_cons, List.all_nil, id, Bool.and_eq_true,
    Bool.or_eq_true, decide_eq_true_eq, bne_iff_ne, beq_iff_eq, radixUsable_iff, ne_eq, and_true,
    eq_ofNat_iff s.csr.var 0 (by decide), eq_ofNat_iff s.csr.var 1 (by decide),
    eq_ofNat_iff s.csr.var 4 (by decide), eq_ofNat_iff s.csr.d 3 (by decide),
    eq_ofNat_iff s.csr.d 5 (by decide), eq_ofNat_iff s.csr.d 7 (by decide),
    eq_ofNat_iff s.csr.rp 0 (by decide), eq_ofNat_iff s.csr.rfe 0 (by decide),
    eq_ofNat_iff s.csr.t 3 (by decide), or_assoc, and_assoc]

/-- The checks of `SEAL` are those of R134. -/
theorem sealOk_iff (s : State) : sealOk s = true ↔ SealConditions s := by
  have hv : s.csr.var.toNat < 8 := s.csr.var.isLt
  rw [sealOk_iff_numbers]
  unfold SealConditions RadixUsable maxRounds
  generalize s.csr.var.toNat = v at *
  interval_cases v <;> simp

/-- An address of 20 bits by its region. -/
theorem regionOf_iff (a : Nat) (ha : a < 2 ^ 20) :
    (regionOf a = none ↔ reservedAddress a) ∧ (regionOf a = some .radix ↔ radixAddress a) ∧
      (regionOf a = some .subst ↔ substAddress a) ∧
      (elementAddress a ↔ ∃ r, regionOf a = some r ∧ r ≠ .radix ∧ r ≠ .subst) := by
  unfold reservedAddress radixAddress substAddress elementAddress regionOf regionMap
  simp only [List.find?]
  repeat' split
  all_goals simp_all
  all_goals omega

/-- What `raise` leaves. -/
theorem raises_raise (s : State) (e : Err) : Raises s (s.raise e) e :=
  ⟨⟨rfl, rfl, rfl⟩, fun _ => rfl, fun _ => rfl, fun _ => rfl, rfl⟩

/-- The one error of a round without a value, by the function that has none. -/
theorem sboxInv_error {s : State} {v : List Nat} {e : Err} (h : sboxInv s v = .error e) :
    e = .invalidConfiguration := by
  unfold sboxInv at h
  split at h <;> cases h
  rfl

theorem rcBars_error {s : State} {v : List Nat} {e : Err} (h : rcBars s v = .error e) :
    e = .invalidConfiguration ∨ e = .notInField := by
  unfold rcBars at h
  split at h
  · split at h <;> cases h
    simp
  · cases h
    simp

end Sys2Proof.Machine
end

