-- ==== Sys2Proof/Laws/Decode.lean ====
section
/-! SUPPORT. What the decoder accepts, said once: the command of the row with the word's opcode, when the word
agrees with the row under its mask (R95). -/

namespace Sys2Proof

/-- A word decodes to a command exactly when it is the opcode's candidate and the row's mask and match agree. -/
theorem decode_eq_ok {cw : Cmd} {i : Instr} :
    decode cw = .ok i ↔ candidate cw = some i ∧ cw &&& i.row.mask = i.row.pattern := by
  unfold decode
  cases h : candidate cw with
  | none => simp
  | some j =>
    simp only [Option.some.injEq]
    split
    · constructor
      · rintro ⟨rfl⟩
        exact ⟨rfl, by assumption⟩
      · rintro ⟨rfl, _⟩
        rfl
    · constructor
      · intro h
        cases h
      · rintro ⟨rfl, h⟩
        contradiction

/-- No word is left undecided. -/
theorem decode_cases (cw : Cmd) : (∃ i, decode cw = .ok i) ∨ ∃ e, decode cw = .error e := by
  cases decode cw with
  | ok i => exact .inl ⟨i, rfl⟩
  | error e => exact .inr ⟨e, rfl⟩

/-- A word that agrees with a row under its mask has the row's opcode. -/
theorem opField_of_row {cw : Cmd} {j : Instr} (h : cw &&& j.row.mask = j.row.pattern) :
    opField cw = opField j.row.pattern := by
  have hm : opField (cw &&& j.row.mask) = opField cw := by
    cases j <;> simp only [Instr.row, opField] <;> (ext i hi; interval_cases i <;> simp)
  rw [← h, hm]

end Sys2Proof
end

