-- ==== Sys2Proof/Laws/Decompose.lean ====
section
/-! SUPPORT. Decomposition and composition, digit by digit, in the terms of the claims (R180, R181). -/

namespace Sys2Proof.Machine

theorem divideDown_length (rs : List Nat) (q : Nat) : (divideDown rs q).length = rs.length + 1 := by
  induction rs generalizing q with
  | nil => rfl
  | cons r rs ih => simp [divideDown, ih]

/-- Entry `k` of repeated division: the quotient by the first `k` divisors, reduced but for the last one. -/
theorem divideDown_getD (rs : List Nat) (q k : Nat) (hk : k ≤ rs.length) :
    (divideDown rs q).getD k 0 =
      if k = rs.length then q / rs.prod else q / (rs.take k).prod % rs.getD k 0 := by
  induction rs generalizing q k with
  | nil =>
    obtain rfl : k = 0 := by simpa using hk
    simp [divideDown]
  | cons r rs ih =>
    cases k with
    | zero => simp [divideDown]
    | succ k =>
      simp only [divideDown, List.getD_cons_succ, List.length_cons, List.prod_cons,
        List.take_succ_cons]
      rw [ih _ _ (by simpa using hk)]
      simp only [Nat.div_div_eq_div_mul, add_left_inj]

theorem decompose_length (rs : List Nat) (x : Nat) (h : rs ≠ []) :
    (decompose rs x).length = rs.length := by
  simp only [decompose, List.length_reverse, divideDown_length, List.length_tail]
  have := List.length_pos_iff.mpr h
  omega

/-- Digit `k`: the quotient by the product of the later radices, reduced but for digit 0. -/
theorem decompose_getD (rs : List Nat) (x k : Nat) (hk : k < rs.length) :
    (decompose rs x).getD k 0 =
      if k = 0 then x / (rs.drop 1).prod else x / (rs.drop (k + 1)).prod % rs.getD k 0 := by
  have hl : (divideDown rs.tail.reverse x).length = rs.length := by
    simp [divideDown_length]
    omega
  unfold decompose
  rw [List.getD_eq_getElem _ _ (by simp [hl]; exact hk), List.getElem_reverse,
    ← List.getD_eq_getElem _ 0, divideDown_getD _ _ _ (by rw [hl]; simp), hl]
  simp only [List.length_reverse, List.length_tail, List.prod_reverse]
  by_cases h0 : k = 0
  · subst h0
    simp
  · rw [if_neg (by omega), if_neg h0]
    congr 1
    · congr 1
      rw [List.take_reverse, List.prod_reverse]
      simp only [List.length_tail]
      rw [show rs.length - 1 - (rs.length - 1 - k) = k by omega, ← List.drop_one, List.drop_drop,
        Nat.add_comm]
    · rw [List.getD_eq_getElem _ _ (by simp; omega), List.getElem_reverse,
        List.getD_eq_getElem _ _ hk]
      simp only [List.getElem_tail, List.length_tail]
      congr 1
      omega

/-- Horner's rule as a weighted sum. -/
theorem hornerFrom_eq (acc : Nat) (rs ds : List Nat) (h : rs.length = ds.length) :
    hornerFrom acc rs ds =
      acc * rs.prod + ∑ k ∈ Finset.range ds.length, ds.getD k 0 * (rs.drop (k + 1)).prod := by
  induction rs generalizing acc ds with
  | nil =>
    obtain rfl : ds = [] := by simpa using h.symm
    simp [hornerFrom]
  | cons r rs ih =>
    cases ds with
    | nil => simp at h
    | cons d ds =>
      rw [hornerFrom, ih _ _ (by simpa using h)]
      simp only [List.length_cons, Finset.sum_range_succ', List.getD_cons_succ,
        List.getD_cons_zero, List.drop_succ_cons, List.drop_zero, List.prod_cons]
      ring

/-- Composition as the sum of the digits by their weights. -/
theorem compose_eq (rs ds : List Nat) (h : rs.length = ds.length) :
    compose rs ds = ∑ k ∈ Finset.range ds.length, ds.getD k 0 * (rs.drop (k + 1)).prod := by
  cases ds with
  | nil => simp [compose]
  | cons d ds =>
    cases rs with
    | nil => simp at h
    | cons r rs =>
      simp only [compose, List.tail_cons]
      rw [hornerFrom_eq _ _ _ (by simpa using h)]
      simp only [List.length_cons, Finset.sum_range_succ', List.getD_cons_succ,
        List.getD_cons_zero, List.drop_succ_cons, List.drop_zero]
      ring

/-! ### The unit's own radix sequence -/

theorem radices_length (s : State) : s.radices.length = s.csr.nradix.toNat := by
  simp [State.radices, State.numRadix]

theorem radices_getD (s : State) (k : Nat) (h : k < s.csr.nradix.toNat) :
    s.radices.getD k 0 = s.radix k := by
  rw [List.getD_eq_getElem _ _ (by rw [radices_length]; exact h)]
  simp [State.radices]

theorem prod_drop_range (f : Nat → Nat) (m n : Nat) :
    (((List.range n).map f).drop m).prod = ∏ j ∈ Finset.Ico m n, f j := by
  induction n with
  | zero => simp
  | succ n ih =>
    rw [List.range_succ, List.map_append]
    by_cases h : m ≤ n
    · rw [List.drop_append_of_le_length (by simpa using h), List.prod_append, ih,
        Finset.prod_Ico_succ_top h]
      simp
    · rw [List.drop_of_length_le (by simp; omega), Finset.Ico_eq_empty (by omega)]
      rfl

/-- The product of the unit's radices after index `k` is the weight of digit `k`. -/
theorem weight_eq (s : State) (k : Nat) : (s.radices.drop (k + 1)).prod = weight s k :=
  prod_drop_range _ _ _

/-- Digit `k` of a decomposition by the unit's radices. -/
theorem decompose_digitOf (s : State) (x k : Nat) (h : k < s.csr.nradix.toNat) :
    (decompose s.radices x).getD k 0 = digitOf s x k := by
  rw [decompose_getD _ _ _ (by rw [radices_length]; exact h), radices_getD _ _ h]
  unfold digitOf
  rw [← weight_eq, ← weight_eq]

/-- The composition of as many digits as the unit has radices. -/
theorem compose_valueOf (s : State) (ds : List Nat) (h : ds.length = s.csr.nradix.toNat) :
    compose s.radices ds = valueOf s fun k => ds.getD k 0 := by
  rw [compose_eq _ _ (by rw [radices_length, h])]
  unfold valueOf
  rw [h]
  exact Finset.sum_congr rfl fun k _ => by rw [weight_eq]

end Sys2Proof.Machine
end

