-- ==== Sys2Proof/Laws/Encoding.lean ====
section
/-! SUPPORT. The fields of an encoded word, format by format (R92): each decoder field reads back what the
encoder placed. -/

namespace Sys2Proof

section FormatR
variable (op : BitVec 8) (rd ra rb : RegNum)

@[simp] theorem opField_encodeR : opField (encodeR op rd ra rb) = op := by
  unfold opField encodeR place; ext i hi; interval_cases i <;> simp

@[simp] theorem rdField_encodeR : rdField (encodeR op rd ra rb) = rd := by
  unfold rdField encodeR place; ext i hi; interval_cases i <;> simp

@[simp] theorem raField_encodeR : raField (encodeR op rd ra rb) = ra := by
  unfold raField encodeR place; ext i hi; interval_cases i <;> simp

@[simp] theorem rbField_encodeR : rbField (encodeR op rd ra rb) = rb := by
  unfold rbField encodeR place; ext i hi; interval_cases i <;> simp

end FormatR

@[simp] theorem opField_encodeM (op : BitVec 8) (addr : PAddr) : opField (encodeM op addr) = op := by
  unfold opField encodeM place; ext i hi; interval_cases i <;> simp

@[simp] theorem addrField_encodeM (op : BitVec 8) (addr : PAddr) :
    addrField (encodeM op addr) = addr := by
  unfold addrField encodeM place; ext i hi; interval_cases i <;> simp

@[simp] theorem opField_encodeC (op csr : BitVec 8) : opField (encodeC op csr) = op := by
  unfold opField encodeC place; ext i hi; interval_cases i <;> simp

@[simp] theorem csrField_encodeC (op csr : BitVec 8) : csrField (encodeC op csr) = csr := by
  unfold csrField encodeC place; ext i hi; interval_cases i <;> simp

section FormatL
variable (op : BitVec 8) (f : BitVec 1) (row : RowNum)

@[simp] theorem opField_encodeL : opField (encodeL op f row) = op := by
  unfold opField encodeL place; ext i hi; interval_cases i <;> simp

@[simp] theorem flagField_encodeL : flagField (encodeL op f row) = f := by
  unfold flagField encodeL place; ext i hi; interval_cases i; simp

@[simp] theorem rowField_encodeL : rowField (encodeL op f row) = row := by
  unfold rowField encodeL place; ext i hi; interval_cases i <;> simp

end FormatL

@[simp] theorem opField_encodeZ (op : BitVec 8) : opField (encodeZ op) = op := by
  unfold opField encodeZ place; ext i hi; interval_cases i <;> simp

end Sys2Proof
end

