-- ==== Sys2Proof/Laws/Registers.lean ====
section
/-! SUPPORT. The register files: what a register holds after one register, or the first registers, are
written, and the state vector as the registers hold it. -/

namespace Sys2Proof.Machine

/-! ### One register -/

/-- `S[k]` after `S[r] <- v`. -/
theorem elem_setElem (s : State) (r k : RegNum) (v : Nat) :
    (s.setElem r v).elem k = if k = r then v % 2 ^ 64 else s.elem k := by
  unfold State.elem
  simp only [setElem_sreg, Vector.getElem_set]
  by_cases h : k = r
  · subst h
    simp
  · have hne : r.toNat ≠ k.toNat := fun e => h (BitVec.eq_of_toNat_eq e.symm)
    rw [if_neg hne, if_neg h]

/-- `DG[k]` after `DG[r] <- v`. -/
theorem digit_setDigit (s : State) (r k : RegNum) (v : Word) :
    (s.setDigit r v).digit k = if k = r then v else s.digit k := by
  unfold State.digit
  simp only [setDigit_dg, Vector.getElem_set]
  by_cases h : k = r
  · subst h
    simp
  · have hne : r.toNat ≠ k.toNat := fun e => h (BitVec.eq_of_toNat_eq e.symm)
    rw [if_neg hne, if_neg h]

/-- A register holds less than `2^64`. -/
theorem elem_lt (s : State) (r : RegNum) : s.elem r < 2 ^ 64 := (s.sreg[r.toNat]'r.isLt).isLt

/-! ### The first registers -/

theorem overwriteFrom_getElem (file : Vector Word 32) (k : Nat) (vs : List Nat) (i : Nat)
    (hi : i < 32) :
    (overwriteFrom file k vs)[i] =
      if k ≤ i ∧ i < k + vs.length then BitVec.ofNat 64 (vs.getD (i - k) 0) else file[i] := by
  induction vs generalizing file k with
  | nil =>
    rw [overwriteFrom, if_neg]
    rintro ⟨h1, h2⟩
    simp at h2
    omega
  | cons v vs ih =>
    rw [overwriteFrom, ih]
    by_cases h : i = k
    · subst h
      rw [if_neg (by omega), if_pos (by simp)]
      simp
    · by_cases h2 : k ≤ i ∧ i < k + (v :: vs).length
      · rw [if_pos h2, if_pos (by simp at h2; omega)]
        obtain ⟨n, hn⟩ : ∃ n, i - k = n + 1 := ⟨i - k - 1, by omega⟩
        rw [hn, show i - (k + 1) = n by omega]
        simp
      · rw [if_neg h2, if_neg (by simp at h2; omega)]
        rw [Vector.getElem_setIfInBounds]
        rw [if_neg (fun e => h e.symm)]

/-- A register of a file after its first registers are written from a list. -/
theorem overwrite_getElem (file : Vector Word 32) (vs : List Nat) (i : Nat) (hi : i < 32) :
    (overwrite file vs)[i] = if i < vs.length then BitVec.ofNat 64 (vs.getD i 0) else file[i] := by
  simp [overwrite, overwriteFrom_getElem]

/-- `S[k]` after `State(S) <- vs`. -/
theorem elem_setVec (s : State) (vs : List Nat) (k : RegNum) :
    (s.setVec vs).elem k =
      if k.toNat < vs.length then vs.getD k.toNat 0 % 2 ^ 64 else s.elem k := by
  unfold State.elem
  simp only [setVec_sreg, overwrite_getElem]
  split <;> simp

/-- `DG[k]` after the first digit registers are written from a list. -/
theorem digit_setDigits (s : State) (ds : List Nat) (k : RegNum) :
    (s.setDigits ds).digit k =
      if k.toNat < ds.length then BitVec.ofNat 64 (ds.getD k.toNat 0) else s.digit k := by
  unfold State.digit
  simp only [setDigits_dg, overwrite_getElem]

/-! ### The state vector -/

theorem vec_length (s : State) : s.vec.length = min s.csr.t.toNat 32 := by
  simp [State.vec]

/-- In a state whose width is at most 32 the vector has `t` words. -/
theorem vec_length_of_le {s : State} (h : s.csr.t.toNat ≤ 32) : s.vec.length = s.csr.t.toNat := by
  rw [vec_length]
  omega

/-- Word `k` of the vector is `S[k]`. -/
theorem vec_getD (s : State) (k : RegNum) (h : k.toNat < s.csr.t.toNat) :
    s.vec.getD k.toNat 0 = s.elem k := by
  have hk : k.toNat < 32 := k.isLt
  unfold State.vec State.elem
  rw [List.getD_eq_getElem _ _ (by simp; omega)]
  simp

/-- The first `n` digit registers, one by one. -/
theorem digits_getD (s : State) (n : Nat) (k : RegNum) (h : k.toNat < n) :
    (s.digits n).getD k.toNat 0 = (s.digit k).toNat := by
  have hk : k.toNat < 32 := k.isLt
  unfold State.digits State.digit
  rw [List.getD_eq_getElem _ _ (by simp; omega)]
  simp

theorem digits_length (s : State) (n : Nat) : (s.digits n).length = min n 32 := by
  simp [State.digits]

end Sys2Proof.Machine
end

