-- ==== Sys2Proof/Laws/Rounds.lean ====
section
/-! SUPPORT. The rounds of the permutation: they keep the number of words, and they read the configuration and the
parameters only. -/

namespace Sys2Proof.Machine

/-! ### The number of words -/

@[simp] theorem lin_length (s : State) (v : List Nat) : (lin s v).length = v.length := by
  unfold lin
  split <;> simp [dense, circ]

@[simp] theorem poseidonRound_length (s : State) (r : Nat) (v : List Nat) :
    (poseidonRound s r v).length = v.length := by
  simp only [poseidonRound]
  (repeat' split) <;> simp [cheap, dense, sboxFull, sboxWord0, addRc]

@[simp] theorem feistelStep_length (s : State) (k : Nat) (rot : Bool) (v : List Nat) :
    (feistelStep s k rot v).length = v.length := by
  simp only [feistelStep]
  split <;> simp

theorem sboxInv_length {s : State} {v w : List Nat} (h : sboxInv s v = .ok w) :
    w.length = v.length := by
  unfold sboxInv at h
  split at h <;> cases h
  simp

theorem rcBars_length {s : State} {v w : List Nat} (h : rcBars s v = .ok w) :
    w.length = v.length := by
  unfold rcBars at h
  (repeat' split at h) <;> cases h
  simp

theorem rescueRound_length {s : State} {r : Nat} {v w : List Nat} (h : rescueRound s r v = .ok w) :
    w.length = v.length := by
  unfold rescueRound at h
  split at h <;> cases h
  rename_i hb
  have := sboxInv_length hb
  simp only [addRc, sboxFull, tabulate_length, lin_length] at this ⊢
  exact this

theorem rcRound_length {s : State} {r : Nat} {v w : List Nat} (h : rcRound s r v = .ok w) :
    w.length = v.length := by
  unfold rcRound at h
  split at h
  · split at h <;> cases h
    rename_i hn
    simp [affine, rcBars_length hn]
  · cases h
    simp [affine, bricks]

/-- A round keeps the number of words. -/
theorem round_length {s : State} {r : Nat} {v w : List Nat} (h : round s r v = .ok w) :
    w.length = v.length := by
  unfold round at h
  split at h
  · cases h; simp
  · exact rescueRound_length h
  · cases h; simp [feistelRound]
  · cases h; simp [monolithRound, addRc, bricks, bars]
  · exact rcRound_length h
  · cases h

/-- So does any run of rounds. -/
theorem runRounds_length {s : State} {n r : Nat} {v w : List Nat}
    (h : runRounds s n r v = .ok w) : w.length = v.length := by
  induction n generalizing r v with
  | zero => cases h; rfl
  | succ n ih =>
    rw [runRounds] at h
    split at h
    · cases h
    · rename_i u hu
      rw [ih h, round_length hu]

/-! ### What the rounds read -/

/-- A unit that differs in its registers and its port runs the same rounds. -/
theorem runRounds_registers (s : State) (file : Vector Word 32) (input : List HostEvent) (d : Word)
    (rs : List Response) (n r : Nat) (v : List Nat) :
    runRounds { s with sreg := file, input := input, din := d, responses := rs } n r v =
      runRounds s n r v := by
  induction n generalizing r v with
  | zero => rfl
  | succ n ih =>
    have h : round { s with sreg := file, input := input, din := d, responses := rs } r v =
        round s r v := rfl
    rw [runRounds, runRounds, h]
    split
    · rfl
    · exact ih _ _

end Sys2Proof.Machine
end

