-- ==== Sys2Proof/Machine/HostCalls.lean ====
section
/-! DEFINITION. The host's use of the unit: the two pseudo-instructions (R100), and the document's three calls
`new`, `permutation`, `get_t` (R271), each as the list of events the host gives to the port and as the result
the host reads from the responses. -/

namespace Sys2Proof.Machine

/-- The transaction of a command with a data-in. -/
def issue (i : Instr) (din : Word) : HostEvent := .command (encode i) din

/-- `zero sD`, an abbreviation of `wrs sD <= 0` (R100). -/
def pseudoZero (rd : RegNum) : HostEvent := issue (.wrs rd) 0#64

/-- `one sD`, an abbreviation of `wrs sD <= 1` (R100). -/
def pseudoOne (rd : RegNum) : HostEvent := issue (.wrs rd) 1#64

/-! ### Running a call -/

/-- `n` steps of the machine, stopping where one gives no next state. -/
def runSteps : Nat → State → Host.Outcome State Fault Refusal
  | 0, s => .next s
  | n + 1, s =>
    match step s with
    | .next t => runSteps n t
    | .fault f => .fault f
    | .refused r => .refused r

/-- A call run to its end: its events are the next ones the unit takes. -/
def runCall (call : List HostEvent) (s : State) : Host.Outcome State Fault Refusal :=
  runSteps call.length { s with input := call ++ s.input }

/-- The responses a call is answered with, in the order of its commands. -/
def callAnswers (call : List HostEvent) (s : State) : List Response :=
  match runCall call s with
  | .next t => t.responses.drop s.responses.length
  | .fault _ | .refused _ => []

/-! ### `new(params)` -/

/-- The document's `FieldParams` as the host loads it: the field, the eleven configuration CSRs of R271's row, and
the parameter words that the variant uses (R322 says which), by address, in the order the host loads them. -/
structure FieldParams where
  fsel : BitVec 1
  t : BitVec 6
  var : BitVec 3
  d : BitVec 3
  rfb : BitVec 8
  rp : BitVec 8
  rfe : BitVec 8
  nbars : BitVec 6
  nradix : BitVec 6
  lsel : BitVec 1
  isel : BitVec 1
  barmask : BitVec 64
  words : List (PAddr × Word)
  deriving DecidableEq, Repr

/-- The configuration CSRs by number, in the order of R271's row. -/
def FieldParams.csrs (ps : FieldParams) : List (CsrNum × Word) :=
  [(0x01#8, ps.t.setWidth 64), (0x02#8, ps.var.setWidth 64), (0x03#8, ps.d.setWidth 64),
   (0x04#8, ps.rfb.setWidth 64), (0x05#8, ps.rp.setWidth 64), (0x06#8, ps.rfe.setWidth 64),
   (0x07#8, ps.nbars.setWidth 64), (0x08#8, ps.nradix.setWidth 64), (0x09#8, ps.lsel.setWidth 64),
   (0x0A#8, ps.isel.setWidth 64), (0x0B#8, ps.barmask)]

/-- The commands of `new`, by the part each plays (R271). -/
inductive NewStep where
  | select (f : BitVec 1)
  | configure (csr : CsrNum) (value : Word)
  | load (addr : PAddr) (value : Word)
  | finish
  deriving DecidableEq, Repr

/-- The transaction of a step of `new`. -/
def NewStep.event : NewStep → HostEvent
  | .select f => issue (.field f) 0#64
  | .configure csr value => issue (.csrw csr) value
  | .load addr value => issue (.wrp addr) value
  | .finish => issue .sealUnit 0#64

/-- The steps of `new(params)`: `field`, a `csrw` for each configuration CSR that is not 0, a `wrp` for each
used parameter word that is not 0, `seal` (R271). -/
def newSteps (ps : FieldParams) : List NewStep :=
  [.select ps.fsel] ++
    (ps.csrs.filter fun c => c.2 != 0#64).map (fun c => .configure c.1 c.2) ++
    (ps.words.filter fun w => w.2 != 0#64).map (fun w => .load w.1 w.2) ++ [.finish]

/-- `new(params)` (R271). -/
def newCall (ps : FieldParams) : List HostEvent := (newSteps ps).map NewStep.event

/-- What `new` comes to (R271). Each result but the first says that the object is not constructed. -/
inductive NewResult where
  /-- Every command returned status 0. -/
  | constructed
  /-- A `wrp` returned a non-zero status. -/
  | notInField
  /-- The `seal` returned a non-zero status. -/
  | invalidConfiguration
  /-- Another command failed, or a command had no response: R271 names no error for this (log entry 24). -/
  | notConstructed
  deriving DecidableEq, Repr

/-- The result when a step of `new` is the first to return a non-zero status (R271). -/
def NewStep.failure : NewStep → NewResult
  | .select _ | .configure _ _ => .notConstructed
  | .load _ _ => .notInField
  | .finish => .invalidConfiguration

/-- The result of steps of `new` and their responses: success when every status is 0, else the failure of the
first step that has another (R271, log entry 24). -/
def newResult : List NewStep → List Response → NewResult
  | [], _ => .constructed
  | _ :: _, [] => .notConstructed
  | c :: cs, r :: rs => if r.st = okCode then newResult cs rs else c.failure

/-- `new(params)` on a unit (R271). -/
def newOn (ps : FieldParams) (s : State) : NewResult :=
  newResult (newSteps ps) (callAnswers (newCall ps) s)

/-! ### `permutation(input)` -/

/-- `wrs s_i <= xs[i]` for the registers from `s_k` on. -/
def writeCalls (k : Nat) : List Word → List HostEvent
  | [] => []
  | x :: xs => issue (.wrs (BitVec.ofNat 5 k)) x :: writeCalls (k + 1) xs

/-- `rds s_i` for the registers listed. -/
def readCalls (is : List Nat) : List HostEvent :=
  is.map fun i => issue (.rds (BitVec.ofNat 5 i)) 0#64

/-- `permutation(input)` at the width `t`: `wrs s_i <= input[i]`, `perm`, `rds s_i`, for `i = 0..t-1` (R271).
Where the host has fewer than `t` words the other registers keep what they held. -/
def permutationCall (t : Nat) (xs : List Word) : List HostEvent :=
  writeCalls 0 (xs.take t) ++ [issue .perm 0#64] ++ readCalls (List.range t)

/-- `output[i]`: the data-out of the `i`-th `rds` of the call (R271). -/
def permutationOutput (t : Nat) (xs : List Word) (rs : List Response) : List Word :=
  ((rs.drop ((xs.take t).length + 1)).take t).map (·.dout)

/-- The result of the call: the first non-zero status, of a `wrs` (NotInField: an input word is no element of the
field, R271) or of the `perm`, is its failure (R279); else the output. -/
def permutationResult (t : Nat) (xs : List Word) (rs : List Response) :
    Except (BitVec 8) (List Word) :=
  match rs.find? fun r => r.st != okCode with
  | some r => .error r.st
  | none => .ok (permutationOutput t xs rs)

/-- `permutation(input)` on a unit, at its width `CSR.T` (R271). -/
def permutationOn (xs : List Word) (s : State) : Except (BitVec 8) (List Word) :=
  permutationResult s.csr.t.toNat xs (callAnswers (permutationCall s.csr.t.toNat xs) s)

/-! ### `get_t()` -/

/-- `get_t()` (R271). -/
def getTCall : List HostEvent := [issue .gett 0#64]

/-- The result of `get_t()`: the data-out of its one response (R271). -/
def getTResult (rs : List Response) : Option Word := rs.head?.map (·.dout)

/-- `get_t()` on a unit (R271). -/
def getTOn (s : State) : Option Word := getTResult (callAnswers getTCall s)

end Sys2Proof.Machine
end

