-- ==== Sys2Proof/Laws/HostCalls.lean ====
section
/-! SUPPORT. What the host's calls come to: `new` succeeds exactly when every command answers OK, `get_t` answers
the width, and `permutation` answers the permutation of its input. -/

namespace Sys2Proof.Machine

/-! ### Runs -/

/-- A run cut in two. -/
theorem runSteps_add {m : Nat} {s t : State} (n : Nat) (h : runSteps m s = .next t) :
    runSteps (m + n) s = runSteps n t := by
  induction m generalizing s with
  | zero =>
    rw [Nat.zero_add]
    injection h with h
    rw [h]
  | succ m ih =>
    rw [Nat.add_right_comm, runSteps]
    rw [runSteps] at h
    cases hs : step s with
    | next u =>
      rw [hs] at h
      exact ih h
    | fault f => simp [hs] at h
    | refused r => simp [hs] at h

/-- The first command of a run. -/
theorem runSteps_issue {i : Instr} {din : Word} {rest : List HostEvent} {s t : State} (n : Nat)
    (hi : s.input = issue i din :: rest) (hd : decode (encode i) = .ok i)
    (he : exec i (s.takeCommand din rest) = .next t) : runSteps (n + 1) s = runSteps n t := by
  rw [runSteps, step_run hi hd, he]

/-! ### `new(params)` -/

/-- `new` constructs exactly when each of its commands answers with status 0. -/
theorem newResult_constructed_iff {cs : List NewStep} {rs : List Response}
    (h : cs.length ≤ rs.length) :
    newResult cs rs = .constructed ↔ ∀ r ∈ rs.take cs.length, r.st = okCode := by
  induction cs generalizing rs with
  | nil => simp [newResult]
  | cons c cs ih =>
    cases rs with
    | nil => simp at h
    | cons r rs =>
      have hc : c.failure ≠ .constructed := by cases c <;> simp [NewStep.failure]
      by_cases hr : r.st = okCode
      · simp [newResult, hr, ih (by simpa using h)]
      · simp [newResult, hr, hc]

/-- No step of `new` writes a zero: those words and CSRs hold 0 after `field` (R271). -/
theorem newSteps_nonzero (ps : FieldParams) :
    (∀ csr v, NewStep.configure csr v ∈ newSteps ps → v ≠ 0#64) ∧
      ∀ a v, NewStep.load a v ∈ newSteps ps → v ≠ 0#64 := by
  constructor <;> intro a v h hv <;> subst hv <;> simp [newSteps] at h

/-! ### `get_t()` -/

/-- `get_t` answers `T`, in every state. -/
theorem getTOn_eq (s : State) : getTOn s = some (s.csr.t.setWidth 64) := by
  unfold getTOn callAnswers runCall getTCall
  rw [List.length_singleton, runSteps_issue 0 rfl (by decide) (t := ((s.takeCommand 0#64 s.input).answer
    (s.csr.t.setWidth 64)))]
  · simp [runSteps, getTResult, State.answer, State.respond, State.takeCommand]
  · rfl

/-! ### `permutation(input)` -/

theorem decode_encode_wrs : ∀ r : RegNum, decode (encode (.wrs r)) = .ok (.wrs r) := by decide
theorem decode_encode_rds : ∀ r : RegNum, decode (encode (.rds r)) = .ok (.rds r) := by decide

/-- `wrs` of canonical words outside a round: the registers are written one after the other, each command
answers OK, nothing else of the unit changes. -/
theorem runSteps_writeCalls {s : State} {xs : List Word} {k : Nat} {rest : List HostEvent}
    (hi : s.input = writeCalls k xs ++ rest) (hk : k + xs.length ≤ 32) (hr : s.csr.pstate ≠ 1#2)
    (hx : ∀ x ∈ xs, x.toNat < s.p) :
    ∃ d, runSteps (writeCalls k xs).length s = .next
      { s with sreg := overwriteFrom s.sreg k (xs.map BitVec.toNat), input := rest, din := d,
               responses := s.responses ++ List.replicate xs.length ⟨okCode, 0#64⟩ } := by
  induction xs generalizing s k with
  | nil =>
    refine ⟨s.din, ?_⟩
    simp only [writeCalls, List.nil_append] at hi
    subst hi
    simp [writeCalls, runSteps, overwriteFrom]
  | cons x xs ih =>
    simp only [List.length_cons] at hk
    have hk32 : (BitVec.ofNat 5 k).toNat = k := by simp; omega
    have hexec : exec (.wrs (BitVec.ofNat 5 k)) (s.takeCommand x (writeCalls (k + 1) xs ++ rest)) =
        .next ((((s.takeCommand x (writeCalls (k + 1) xs ++ rest)).setElem (BitVec.ofNat 5 k)
          x.toNat)).answer 0#64) := by
      refine command_ok _ _ (firstFailure_eq_none.mpr ?_)
      intro c hc
      simp only [List.mem_cons, List.not_mem_nil, or_false] at hc
      rcases hc with rfl | rfl
      · exact needsNotInRound_eq_none.mpr hr
      · exact failIf_eq_none.mpr (decide_eq_false (Nat.not_le.mpr (hx x (by simp))))
    obtain ⟨d, hd⟩ := ih (s := ((s.takeCommand x (writeCalls (k + 1) xs ++ rest)).setElem
      (BitVec.ofNat 5 k) x.toNat).answer 0#64) (k := k + 1) rfl (by omega) hr
      (fun y hy => hx y (by simp [hy]))
    refine ⟨d, ?_⟩
    rw [writeCalls, List.length_cons, runSteps_issue _ hi (decode_encode_wrs _) hexec, hd]
    have hset : (s.sreg.set (BitVec.ofNat 5 k).toNat (BitVec.ofNat 64 x.toNat) (BitVec.ofNat 5 k).isLt) =
        s.sreg.setIfInBounds k (BitVec.ofNat 64 x.toNat) := by
      apply Vector.ext
      intro i hi'
      rw [Vector.getElem_set, Vector.getElem_setIfInBounds, hk32]
    simp only [State.answer, State.respond, State.setElem, State.takeCommand, hset, List.map_cons,
      overwriteFrom, List.append_assoc, List.length_cons, List.replicate_succ, List.singleton_append]

/-- `rds` of the registers listed: each answers its register, nothing of the unit changes. -/
theorem runSteps_readCalls {s : State} {is : List Nat} {rest : List HostEvent}
    (hi : s.input = readCalls is ++ rest) :
    ∃ d, runSteps (readCalls is).length s = .next
      { s with input := rest, din := d,
               responses := s.responses ++
                 is.map fun i => ⟨okCode, BitVec.ofNat 64 (s.elem (BitVec.ofNat 5 i))⟩ } := by
  induction is generalizing s with
  | nil =>
    refine ⟨s.din, ?_⟩
    simp only [readCalls, List.map_nil, List.nil_append] at hi
    subst hi
    simp [readCalls, runSteps]
  | cons i is ih =>
    have hexec : exec (.rds (BitVec.ofNat 5 i)) (s.takeCommand 0#64 (readCalls is ++ rest)) =
        .next ((s.takeCommand 0#64 (readCalls is ++ rest)).answer
          (BitVec.ofNat 64 (s.elem (BitVec.ofNat 5 i)))) := by
      exact command_ok (s := s.takeCommand 0#64 (readCalls is ++ rest)) (cs := []) _ _ rfl
    obtain ⟨d, hd⟩ := ih (s := (s.takeCommand 0#64 (readCalls is ++ rest)).answer
      (BitVec.ofNat 64 (s.elem (BitVec.ofNat 5 i)))) rfl
    refine ⟨d, ?_⟩
    have hlen : (readCalls (i :: is)).length = (readCalls is).length + 1 := by simp [readCalls]
    rw [hlen, runSteps_issue _ hi (decode_encode_rds _) hexec, hd]
    simp only [State.answer, State.respond, State.takeCommand, State.elem, List.append_assoc,
      List.map_cons, List.singleton_append]

/-- The state vector after the first registers are written from a list of the unit's width. -/
theorem vec_of_overwrite {s : State} {file : Vector Word 32} {xs : List Word}
    (hs : s.sreg = overwrite file (xs.map BitVec.toNat)) (hl : xs.length = s.csr.t.toNat)
    (ht : s.csr.t.toNat ≤ 32) : s.vec = xs.map BitVec.toNat := by
  apply List.ext_getElem
  · simp [vec_length_of_le ht, hl]
  · intro i h1 h2
    have hi : i < xs.length := by simpa using h2
    have h32 : i < 32 := by omega
    simp only [State.vec, List.getElem_map, List.getElem_take, Vector.getElem_toList, hs,
      overwrite_getElem _ _ i h32]
    rw [if_pos (by simpa using hi), List.getD_eq_getElem _ _ (by simpa using hi)]
    simp

/-- `PERM` on a sealed unit outside a round, where the permutation has a value. -/
theorem exec_perm_of_permutation {u : State} {v : List Nat} (hl : u.csr.lock ≠ 0#1)
    (hr : u.csr.pstate ≠ 1#2) (hv : permutation u u.vec = .ok v) :
    exec .perm u = .next (((u.setSequencer 2#2 (BitVec.ofNat 9 u.rounds)).setVec v).answer 0#64) := by
  show execPerm u = _
  rw [execPerm, show u.nextRound = 0 from if_neg hr, Nat.sub_zero,
    show runRounds u u.rounds 0 u.vec = .ok v from hv]
  refine command_ok _ _ (firstFailure_eq_none.mpr ?_)
  intro c hc
  rw [List.mem_singleton] at hc
  rw [hc]
  exact needsSealed_eq_none.mpr hl

/-- `permutation(input)` on a sealed unit that is not in a round answers `Permutation` of its input, whenever
that has a value (R271, R252). -/
theorem permutationOn_eq {s : State} {xs : List Word} {v : List Nat} (hs : s.csr.lock = 1#1)
    (hr : s.csr.pstate ≠ 1#2) (ht : s.csr.t.toNat ≤ 32) (hl : xs.length = s.csr.t.toNat)
    (hx : ∀ x ∈ xs, x.toNat < s.p) (hv : permutation s (xs.map BitVec.toNat) = .ok v) :
    permutationOn xs s = .ok (v.map (BitVec.ofNat 64)) := by
  have htake : xs.take s.csr.t.toNat = xs := by rw [← hl, List.take_length]
  have hlock : s.csr.lock ≠ 0#1 := by simp [hs]
  obtain ⟨reads, hreads⟩ : ∃ reads, reads = readCalls (List.range s.csr.t.toNat) := ⟨_, rfl⟩
  obtain ⟨d, hw⟩ := runSteps_writeCalls
    (s := { s with input := writeCalls 0 xs ++ (issue .perm 0#64 :: (reads ++ s.input)) })
    (xs := xs) (k := 0) rfl (by omega) hr hx
  obtain ⟨w, hwd⟩ : ∃ w : State, w =
      { s with sreg := overwrite s.sreg (xs.map BitVec.toNat),
               input := issue .perm 0#64 :: (reads ++ s.input), din := d,
               responses := s.responses ++ List.replicate xs.length ⟨okCode, 0#64⟩ } := ⟨_, rfl⟩
  have hwvec : w.vec = xs.map BitVec.toNat := by
    subst hwd
    exact vec_of_overwrite rfl hl ht
  obtain ⟨u, hu⟩ : ∃ u, u = w.takeCommand 0#64 (reads ++ s.input) := ⟨_, rfl⟩
  have hp : exec .perm u =
      .next (((u.setSequencer 2#2 (BitVec.ofNat 9 u.rounds)).setVec v).answer 0#64) := by
    refine exec_perm_of_permutation (by subst hu hwd; exact hlock) (by subst hu hwd; exact hr) ?_
    rw [show u.vec = xs.map BitVec.toNat by rw [← hwvec, hu]; rfl]
    subst hu hwd
    exact (runRounds_registers s _ _ _ _ _ _ _).trans hv
  obtain ⟨y, hy⟩ : ∃ y : State,
      y = ((u.setSequencer 2#2 (BitVec.ofNat 9 u.rounds)).setVec v).answer 0#64 := ⟨_, rfl⟩
  obtain ⟨d', hrd⟩ := runSteps_readCalls (s := y) (is := List.range s.csr.t.toNat) (rest := s.input)
    (by subst hy hu hwd; rw [← hreads]; rfl)
  have hvl : v.length = s.csr.t.toNat := by
    rw [runRounds_length hv, List.length_map, hl]
  have hout : (List.range s.csr.t.toNat).map (fun i => BitVec.ofNat 64 (y.elem (BitVec.ofNat 5 i))) =
      v.map (BitVec.ofNat 64) := by
    apply List.ext_getElem
    · simp [hvl]
    · intro i h1 h2
      have hi : i < v.length := by simpa using h2
      have hm : i % 32 = i := Nat.mod_eq_of_lt (by omega)
      have he : y.elem (BitVec.ofNat 5 i) = v.getD i 0 % 2 ^ 64 := by
        subst hy
        rw [show ∀ z : State, (z.answer 0#64).elem (BitVec.ofNat 5 i) = z.elem (BitVec.ofNat 5 i) from
          fun _ => rfl, elem_setVec]
        simp [hm, hi]
      simp only [List.getElem_map, List.getElem_range, he]
      rw [List.getD_eq_getElem _ _ hi]
      exact BitVec.eq_of_toNat_eq (by simp)
  have hresp : y.responses = s.responses ++ List.replicate xs.length ⟨okCode, 0#64⟩ ++
      [⟨okCode, 0#64⟩] := by
    subst hy hu hwd
    rfl
  have hall : callAnswers (permutationCall s.csr.t.toNat xs) s =
      List.replicate xs.length ⟨okCode, 0#64⟩ ++ [⟨okCode, 0#64⟩] ++
        (List.range s.csr.t.toNat).map
          fun i => ⟨okCode, BitVec.ofNat 64 (y.elem (BitVec.ofNat 5 i))⟩ := by
    have hstate : runCall (permutationCall s.csr.t.toNat xs) s =
        runSteps ((writeCalls 0 xs).length + (reads.length + 1))
          { s with input := writeCalls 0 xs ++ (issue .perm 0#64 :: (reads ++ s.input)) } := by
      simp only [runCall, permutationCall, htake, ← hreads, List.append_assoc, List.length_append,
        List.cons_append, List.nil_append, List.length_cons]
    have hperm : runSteps (reads.length + 1) w = runSteps reads.length y :=
      runSteps_issue (i := .perm) (din := 0#64) (rest := reads ++ s.input) _ (by rw [hwd]) (by decide)
        (by rw [← hu, hp, hy])
    have hfirst : runSteps (writeCalls 0 xs).length
        { s with input := writeCalls 0 xs ++ (issue .perm 0#64 :: (reads ++ s.input)) } = .next w := by
      rw [hw, hwd]
      rfl
    rw [callAnswers, hstate, runSteps_add _ hfirst, hperm, hreads, hrd]
    simp only [hresp, List.append_assoc, List.drop_left]
  have hnone : (callAnswers (permutationCall s.csr.t.toNat xs) s).find? (fun r => r.st != okCode) =
      none := by
    rw [hall, List.find?_eq_none]
    intro r h
    simp only [List.mem_append, List.mem_replicate, List.mem_singleton, List.mem_map] at h
    rcases h with (⟨-, rfl⟩ | rfl) | ⟨_, -, rfl⟩ <;> simp
  rw [permutationOn, permutationResult, hnone]
  simp only [permutationOutput, htake, hall]
  rw [List.drop_left' (by simp), List.take_of_length_le (by simp), List.map_map]
  exact congrArg _ hout

end Sys2Proof.Machine
end

