-- ==== Sys2Proof/Laws/Memory.lean ====
section
/-! SUPPORT. Parameter memory: what a read gives after a write, and that every operation keeps the canonical
form. -/

namespace Sys2Proof.Machine

/-- Every address a memory lists is at least `lo`. -/
def Memory.above (lo : Nat) (m : Memory) : Prop := ∀ e ∈ m, lo ≤ e.1

theorem wf_cons_iff (a : Nat) (w : Word) (m : Memory) :
    Memory.wf ((a, w) :: m) = true ↔
      w ≠ unlistedWord ∧ Memory.above (a + 1) m ∧ Memory.wf m = true := by
  induction m generalizing a w with
  | nil => simp [Memory.wf, Memory.above]
  | cons e m ih =>
    obtain ⟨b, x⟩ := e
    rw [Memory.wf, Bool.and_eq_true, Bool.and_eq_true]
    constructor
    · rintro ⟨⟨hw, hab⟩, hm⟩
      have hlt : a < b := by simpa using hab
      refine ⟨by simpa using hw, ?_, hm⟩
      intro e he
      rcases List.mem_cons.mp he with rfl | he
      · exact hlt
      · have := ((ih b x).mp hm).2.1 e he
        omega
    · rintro ⟨hw, hab, hm⟩
      have hlt : a + 1 ≤ b := hab (b, x) (List.mem_cons_self ..)
      exact ⟨⟨by simpa using hw, by simpa using hlt⟩, hm⟩

/-- An address below every listed one reads as an unlisted address does. -/
theorem memRead_of_above {m : Memory} {lo a : Nat} (h : Memory.above lo m) (ha : a < lo) :
    memRead m a = unlistedWord := by
  induction m with
  | nil => rfl
  | cons e m ih =>
    obtain ⟨b, w⟩ := e
    have hb : lo ≤ b := h (b, w) (List.mem_cons_self ..)
    rw [memRead, if_neg (by omega)]
    exact ih fun e he => h e (List.mem_cons_of_mem _ he)

/-- A write lists no address below both the one written and those listed before. -/
theorem memWrite_above {m : Memory} {lo a : Nat} {v : Word} (h : Memory.above lo m) (ha : lo ≤ a) :
    Memory.above lo (memWrite m a v) := by
  induction m with
  | nil =>
    intro e he
    rw [memWrite] at he
    split at he
    · simp at he
    · simp only [List.mem_singleton] at he
      rw [he]; exact ha
  | cons e m ih =>
    obtain ⟨b, w⟩ := e
    have htail : Memory.above lo m := fun e he => h e (List.mem_cons_of_mem _ he)
    have hb : lo ≤ b := h (b, w) (List.mem_cons_self ..)
    intro e he
    rw [memWrite] at he
    split at he
    · split at he
      · exact h e he
      · rcases List.mem_cons.mp he with rfl | he
        · exact ha
        · exact h e he
    · split at he
      · split at he
        · exact htail e he
        · rcases List.mem_cons.mp he with rfl | he
          · exact ha
          · exact htail e he
      · rcases List.mem_cons.mp he with rfl | he
        · exact hb
        · exact ih htail e he

/-- A write keeps the canonical form. -/
theorem memWrite_wf {m : Memory} (a : Nat) (v : Word) (h : Memory.wf m = true) :
    Memory.wf (memWrite m a v) = true := by
  induction m with
  | nil =>
    rw [memWrite]
    split
    · rfl
    · rename_i hv
      simpa [Memory.wf] using hv
  | cons e m ih =>
    obtain ⟨b, w⟩ := e
    obtain ⟨hw, hab, hm⟩ := (wf_cons_iff b w m).mp h
    rw [memWrite]
    split
    · rename_i hlt
      split
      · exact h
      · rename_i hv
        refine (wf_cons_iff a v _).mpr ⟨hv, ?_, h⟩
        intro e he
        rcases List.mem_cons.mp he with rfl | he
        · exact hlt
        · have := hab e he
          omega
    · split
      · rename_i heq
        split
        · exact hm
        · rename_i hv
          exact (wf_cons_iff a v m).mpr ⟨hv, heq ▸ hab, hm⟩
      · rename_i hlt hne
        exact (wf_cons_iff b w _).mpr ⟨hw, memWrite_above hab (by omega), ih hm⟩

/-- What a read gives after a write: the word written at its address, the old word elsewhere. -/
theorem memRead_memWrite {m : Memory} (a b : Nat) (v : Word) (h : Memory.wf m = true) :
    memRead (memWrite m a v) b = if b = a then v else memRead m b := by
  induction m with
  | nil =>
    rw [memWrite]
    split
    · rename_i hv
      split <;> simp_all [memRead]
    · simp [memRead]
  | cons e m ih =>
    obtain ⟨c, w⟩ := e
    obtain ⟨hw, hab, hm⟩ := (wf_cons_iff c w m).mp h
    rw [memWrite]
    split
    · rename_i hlt
      have hun : memRead ((c, w) :: m) a = unlistedWord :=
        memRead_of_above (lo := c)
          (fun e he => by
            rcases List.mem_cons.mp he with rfl | he
            · exact Nat.le_refl _
            · have := hab e he
              omega) hlt
      split
      · rename_i hv
        split
        · rename_i hb
          rw [hb, hun, hv]
        · rfl
      · rw [memRead]
    · split
      · rename_i heq
        subst heq
        have hun : memRead m a = unlistedWord := memRead_of_above hab (Nat.lt_succ_self a)
        split
        · rename_i hv
          rw [memRead]
          split
          · rename_i hb
            rw [hb, hun, hv]
          · rfl
        · rw [memRead, memRead]
          split <;> rfl
      · rename_i hlt hne
        rw [memRead, memRead, ih hm]
        split
        · rename_i hb
          rw [if_neg (by omega)]
        · rfl

/-- Two memories in canonical form that read the same at every address are equal. -/
theorem memory_ext {m n : Memory} (hm : Memory.wf m = true) (hn : Memory.wf n = true)
    (h : ∀ a, memRead m a = memRead n a) : m = n := by
  induction m generalizing n with
  | nil =>
    cases n with
    | nil => rfl
    | cons e n =>
      obtain ⟨b, w⟩ := e
      have := h b
      simp only [memRead, if_true] at this
      exact absurd this.symm ((wf_cons_iff b w n).mp hn).1
  | cons e m ih =>
    obtain ⟨a, v⟩ := e
    obtain ⟨hv, hva, hm'⟩ := (wf_cons_iff a v m).mp hm
    cases n with
    | nil =>
      have := h a
      simp only [memRead, if_true] at this
      exact absurd this hv
    | cons e n =>
      obtain ⟨b, w⟩ := e
      obtain ⟨hw, hwa, hn'⟩ := (wf_cons_iff b w n).mp hn
      have hab : a = b := by
        rcases Nat.lt_trichotomy a b with hlt | heq | hgt
        · have h1 := h a
          rw [memRead, if_pos rfl, memRead, if_neg (by omega),
            memRead_of_above hwa (by omega)] at h1
          exact absurd h1 hv
        · exact heq
        · have h1 := h b
          rw [memRead, if_neg (by omega), memRead_of_above hva (by omega), memRead,
            if_pos rfl] at h1
          exact absurd h1.symm hw
      subst hab
      have hvw : v = w := by
        have h1 := h a
        rwa [memRead, if_pos rfl, memRead, if_pos rfl] at h1
      subst hvw
      congr 1
      refine ih hm' hn' fun c => ?_
      by_cases hc : c = a
      · subst hc
        rw [memRead_of_above hva (Nat.lt_succ_self c), memRead_of_above hwa (Nat.lt_succ_self c)]
      · have h1 := h c
        rwa [memRead, if_neg hc, memRead, if_neg hc] at h1

/-- The memory after reset is in canonical form. -/
theorem reset_pm_wf : Memory.wf State.reset.pm = true := rfl

end Sys2Proof.Machine
end

