-- ==== Sys2Proof/Laws/Invariant.lean ====
section
/-! SUPPORT. A check that can be run and that implies the invariants, for concrete states. -/

namespace Sys2Proof.Machine

/-- Every listed word lies in a region and keeps the bound of its region. -/
def memoryChecks (p : Nat) (m : Memory) : Bool :=
  m.all fun e =>
    match regionOf e.1 with
    | none => false
    | some .radix | some .subst => e.2.toNat ≤ 65535
    | some _ => e.2.toNat < p

/-- The invariants as one check on a concrete state. -/
def invChecks (s : State) : Bool :=
  decide (∀ r, s.elem r < s.p) && s.pm.wf && memoryChecks s.p s.pm &&
    decide (s.csr.lock = 0#1 → s.csr.pstate = 0#2 ∧ s.csr.rnd = 0#9) &&
    (s.csr.lock == 0#1 || sealOk s) &&
    decide (s.csr.pstate = 0#2 → s.csr.rnd = 0#9) &&
    decide (s.csr.pstate = 1#2 → s.csr.rnd.toNat < s.rounds) &&
    decide (s.csr.pstate = 2#2 → s.csr.rnd.toNat = s.rounds) &&
    decide (s.csr.pstate ≠ 3#2) && !s.csr.errflags.getLsbD 0 && !s.csr.errflags.getLsbD 3

/-- An address reads as a listed entry or as an unlisted one. -/
theorem memRead_mem (m : Memory) (a : Nat) : (a, memRead m a) ∈ m ∨ memRead m a = unlistedWord := by
  induction m with
  | nil => exact .inr rfl
  | cons e m ih =>
    obtain ⟨b, w⟩ := e
    rw [memRead]
    split
    · rename_i h
      subst h
      exact .inl (List.mem_cons_self ..)
    · exact ih.imp (List.mem_cons_of_mem _) id

/-- A state that passes the check meets the invariants. -/
theorem inv_of_checks {s : State} (h : invChecks s = true) : Inv s := by
  simp only [invChecks, Bool.and_eq_true, decide_eq_true_eq, Bool.or_eq_true, beq_iff_eq,
    Bool.not_eq_true'] at h
  obtain ⟨⟨⟨⟨⟨⟨⟨⟨⟨⟨h1, h2⟩, h3⟩, h4⟩, h5⟩, h6⟩, h7⟩, h8⟩, h9⟩, h10⟩, h11⟩ := h
  have hm : ∀ a, (a, s.word a) ∈ s.pm → _ := fun a ha => List.all_eq_true.mp h3 _ ha
  refine ⟨h1, ?_, h4, ?_, h6, h7, h8, h9, ⟨h10, h11⟩, h2, ?_⟩
  · intro a region hr
    rcases memRead_mem s.pm a with ha | ha
    · have := hm a ha
      simp only [hr] at this
      cases region <;> simpa [wordInRegion] using this
    · have h0 : s.word a = 0#64 := ha
      have hp : 0 < s.p := Nat.lt_of_le_of_lt (Nat.zero_le _) (h1 0)
      rw [h0]
      cases region <;> simp [wordInRegion, hp]
  · intro hl
    rcases h5 with h | h
    · simp [h] at hl
    · exact h
  · intro a hr
    rcases memRead_mem s.pm a with ha | ha
    · have := hm a ha
      simp [hr] at this
    · exact ha

end Sys2Proof.Machine
end

