-- ==== Sys2Proof/Laws/PerInstr.lean ====
section
/-! SUPPORT. Facts made per command. EncodingMatchesRow: the encoded word of a command, under the mask of its
row of the opcode map, is the row's match value (R95). -/

namespace Sys2Proof.Laws

/-- The encoded word spells the command's row: `encode i AND mask = match`. -/
def EncodingMatchesRow.Statement (i : Instr) : Prop := encode i &&& i.row.mask = i.row.pattern

theorem EncodingMatchesRow.nop : EncodingMatchesRow.Statement .nop := rfl

theorem EncodingMatchesRow.wrs (rd : RegNum) : EncodingMatchesRow.Statement (.wrs rd) := by
  simp only [EncodingMatchesRow.Statement, encode, encodeR, Instr.row, place]
  ext i hi; interval_cases i <;> simp

theorem EncodingMatchesRow.rds (ra : RegNum) : EncodingMatchesRow.Statement (.rds ra) := by
  simp only [EncodingMatchesRow.Statement, encode, encodeR, Instr.row, place]
  ext i hi; interval_cases i <;> simp

theorem EncodingMatchesRow.mov (rd ra : RegNum) : EncodingMatchesRow.Statement (.mov rd ra) := by
  simp only [EncodingMatchesRow.Statement, encode, encodeR, Instr.row, place]
  ext i hi; interval_cases i <;> simp

theorem EncodingMatchesRow.wrd (rd : RegNum) : EncodingMatchesRow.Statement (.wrd rd) := by
  simp only [EncodingMatchesRow.Statement, encode, encodeR, Instr.row, place]
  ext i hi; interval_cases i <;> simp

theorem EncodingMatchesRow.rdd (ra : RegNum) : EncodingMatchesRow.Statement (.rdd ra) := by
  simp only [EncodingMatchesRow.Statement, encode, encodeR, Instr.row, place]
  ext i hi; interval_cases i <;> simp

theorem EncodingMatchesRow.wrp (addr : PAddr) : EncodingMatchesRow.Statement (.wrp addr) := by
  simp only [EncodingMatchesRow.Statement, encode, encodeM, Instr.row, place]
  ext i hi; interval_cases i <;> simp

theorem EncodingMatchesRow.rdp (addr : PAddr) : EncodingMatchesRow.Statement (.rdp addr) := by
  simp only [EncodingMatchesRow.Statement, encode, encodeM, Instr.row, place]
  ext i hi; interval_cases i <;> simp

theorem EncodingMatchesRow.csrw (csr : CsrNum) : EncodingMatchesRow.Statement (.csrw csr) := by
  simp only [EncodingMatchesRow.Statement, encode, encodeC, Instr.row, place]
  ext i hi; interval_cases i <;> simp

theorem EncodingMatchesRow.csrr (csr : CsrNum) : EncodingMatchesRow.Statement (.csrr csr) := by
  simp only [EncodingMatchesRow.Statement, encode, encodeC, Instr.row, place]
  ext i hi; interval_cases i <;> simp

theorem EncodingMatchesRow.gett : EncodingMatchesRow.Statement .gett := rfl

theorem EncodingMatchesRow.field (f : BitVec 1) : EncodingMatchesRow.Statement (.field f) := by
  simp only [EncodingMatchesRow.Statement, encode, encodeL, Instr.row, place]
  ext i hi; interval_cases i <;> simp

theorem EncodingMatchesRow.sealUnit : EncodingMatchesRow.Statement .sealUnit := rfl

theorem EncodingMatchesRow.unsealUnit : EncodingMatchesRow.Statement .unsealUnit := rfl

theorem EncodingMatchesRow.clrerr : EncodingMatchesRow.Statement .clrerr := rfl

theorem EncodingMatchesRow.fadd (rd ra rb : RegNum) : EncodingMatchesRow.Statement (.fadd rd ra rb) := by
  simp only [EncodingMatchesRow.Statement, encode, encodeR, Instr.row, place]
  ext i hi; interval_cases i <;> simp

theorem EncodingMatchesRow.fsub (rd ra rb : RegNum) : EncodingMatchesRow.Statement (.fsub rd ra rb) := by
  simp only [EncodingMatchesRow.Statement, encode, encodeR, Instr.row, place]
  ext i hi; interval_cases i <;> simp

theorem EncodingMatchesRow.fmul (rd ra rb : RegNum) : EncodingMatchesRow.Statement (.fmul rd ra rb) := by
  simp only [EncodingMatchesRow.Statement, encode, encodeR, Instr.row, place]
  ext i hi; interval_cases i <;> simp

theorem EncodingMatchesRow.fsqr (rd ra : RegNum) : EncodingMatchesRow.Statement (.fsqr rd ra) := by
  simp only [EncodingMatchesRow.Statement, encode, encodeR, Instr.row, place]
  ext i hi; interval_cases i <;> simp

theorem EncodingMatchesRow.fdbl (rd ra : RegNum) : EncodingMatchesRow.Statement (.fdbl rd ra) := by
  simp only [EncodingMatchesRow.Statement, encode, encodeR, Instr.row, place]
  ext i hi; interval_cases i <;> simp

theorem EncodingMatchesRow.fneg (rd ra : RegNum) : EncodingMatchesRow.Statement (.fneg rd ra) := by
  simp only [EncodingMatchesRow.Statement, encode, encodeR, Instr.row, place]
  ext i hi; interval_cases i <;> simp

theorem EncodingMatchesRow.finv (rd ra : RegNum) : EncodingMatchesRow.Statement (.finv rd ra) := by
  simp only [EncodingMatchesRow.Statement, encode, encodeR, Instr.row, place]
  ext i hi; interval_cases i <;> simp

theorem EncodingMatchesRow.fpow (rd ra : RegNum) : EncodingMatchesRow.Statement (.fpow rd ra) := by
  simp only [EncodingMatchesRow.Statement, encode, encodeR, Instr.row, place]
  ext i hi; interval_cases i <;> simp

theorem EncodingMatchesRow.decomp (ra : RegNum) : EncodingMatchesRow.Statement (.decomp ra) := by
  simp only [EncodingMatchesRow.Statement, encode, encodeR, Instr.row, place]
  ext i hi; interval_cases i <;> simp

theorem EncodingMatchesRow.comp (rd : RegNum) : EncodingMatchesRow.Statement (.comp rd) := by
  simp only [EncodingMatchesRow.Statement, encode, encodeR, Instr.row, place]
  ext i hi; interval_cases i <;> simp

theorem EncodingMatchesRow.mdsd (bank : BitVec 1) : EncodingMatchesRow.Statement (.mdsd bank) := by
  simp only [EncodingMatchesRow.Statement, encode, encodeL, Instr.row, place]
  ext i hi; interval_cases i <;> simp

theorem EncodingMatchesRow.mdsc : EncodingMatchesRow.Statement .mdsc := rfl

theorem EncodingMatchesRow.mdsch : EncodingMatchesRow.Statement .mdsch := rfl

theorem EncodingMatchesRow.affine (row : RowNum) : EncodingMatchesRow.Statement (.affine row) := by
  simp only [EncodingMatchesRow.Statement, encode, encodeL, Instr.row, place]
  ext i hi; interval_cases i <;> simp

theorem EncodingMatchesRow.arc (row : RowNum) : EncodingMatchesRow.Statement (.arc row) := by
  simp only [EncodingMatchesRow.Statement, encode, encodeL, Instr.row, place]
  ext i hi; interval_cases i <;> simp

theorem EncodingMatchesRow.sboxf : EncodingMatchesRow.Statement .sboxf := rfl

theorem EncodingMatchesRow.sbox0 : EncodingMatchesRow.Statement .sbox0 := rfl

theorem EncodingMatchesRow.sboxi : EncodingMatchesRow.Statement .sboxi := rfl

theorem EncodingMatchesRow.bricks : EncodingMatchesRow.Statement .bricks := rfl

theorem EncodingMatchesRow.bars (impl : BitVec 1) : EncodingMatchesRow.Statement (.bars impl) := by
  simp only [EncodingMatchesRow.Statement, encode, encodeL, Instr.row, place]
  ext i hi; interval_cases i <;> simp

theorem EncodingMatchesRow.rcbars : EncodingMatchesRow.Statement .rcbars := rfl

theorem EncodingMatchesRow.feis (rot : BitVec 1) (row : RowNum) : EncodingMatchesRow.Statement (.feis rot row) := by
  simp only [EncodingMatchesRow.Statement, encode, encodeL, Instr.row, place]
  ext i hi; interval_cases i <;> simp

theorem EncodingMatchesRow.pstart : EncodingMatchesRow.Statement .pstart := rfl

theorem EncodingMatchesRow.pstep : EncodingMatchesRow.Statement .pstep := rfl

theorem EncodingMatchesRow.perm : EncodingMatchesRow.Statement .perm := rfl

theorem EncodingMatchesRow.preset : EncodingMatchesRow.Statement .preset := rfl

end Sys2Proof.Laws
end

