-- ==== Sys2Proof/Laws/Primes.lean ====
section
/-! SUPPORT. The two moduli of R7 are prime, by the order of 7 modulo each, computed by the model's own
square-and-multiply. -/

namespace Sys2Proof.Machine

/-- A modulus is prime when 7 has order `p - 1`, shown on the primes that divide `p - 1`. -/
theorem prime_of_order_seven {p : Nat} (h1 : 1 < p) (h64 : p < 2 ^ 64) (ps : List Nat)
    (hps : ∀ q, q.Prime → q ∣ p - 1 → q ∈ ps) (hone : powMod p 7 (p - 1) = 1)
    (hq : ∀ q ∈ ps, powMod p 7 ((p - 1) / q) ≠ 1) : p.Prime := by
  have key : ∀ k, k < 2 ^ 64 → (powMod p 7 k = 1 ↔ (7 : ZMod p) ^ k = 1) := by
    intro k hk
    rw [powMod_eq h1 _ _ hk]
    have h := ZMod.natCast_eq_natCast_iff' (7 ^ k) 1 p
    rw [Nat.mod_eq_of_lt h1] at h
    rw [← h]
    push_cast
    rfl
  refine lucas_primality p (7 : ZMod p) ((key _ (by omega)).mp hone) fun q hqp hd => ?_
  have hlt : (p - 1) / q < 2 ^ 64 := lt_of_le_of_lt (Nat.div_le_self _ _) (by omega)
  exact fun h => hq q (hps q hqp hd) ((key _ hlt).mpr h)

/-- A prime that divides a product of primes' powers is one of them. -/
theorem mem_of_dvd_prod {q : Nat} (hq : q.Prime) {l : List (Nat × Nat)}
    (hl : ∀ e ∈ l, e.1.Prime) (h : q ∣ (l.map fun e => e.1 ^ e.2).prod) : q ∈ l.map (·.1) := by
  induction l with
  | nil => exact absurd (Nat.dvd_one.mp (by simpa using h)) hq.one_lt.ne'
  | cons e l ih =>
    rw [List.map_cons, List.prod_cons, hq.dvd_mul] at h
    rcases h with h | h
    · have := (Nat.prime_dvd_prime_iff_eq hq (hl e (List.mem_cons_self ..))).mp
        (hq.dvd_of_dvd_pow h)
      simp [this]
    · exact List.mem_cons_of_mem _ (ih (fun x hx => hl x (List.mem_cons_of_mem _ hx)) h)

theorem modulus_f64_prime : Field.f64.modulus.Prime :=
  prime_of_order_seven (by decide) (by decide) [2, 3, 5, 17, 257, 65537]
    (fun _ hq hd => mem_of_dvd_prod (l := [(2, 32), (3, 1), (5, 1), (17, 1), (257, 1), (65537, 1)]) hq
      (by norm_num) (by norm_num [Field.modulus] at hd ⊢; exact hd))
    (by decide +kernel) (by decide +kernel)

theorem modulus_f31_prime : Field.f31.modulus.Prime :=
  prime_of_order_seven (by decide) (by decide) [2, 3, 7, 11, 31, 151, 331]
    (fun _ hq hd => mem_of_dvd_prod
      (l := [(2, 1), (3, 2), (7, 1), (11, 1), (31, 1), (151, 1), (331, 1)]) hq
      (by norm_num) (by norm_num [Field.modulus] at hd ⊢; exact hd))
    (by decide +kernel) (by decide +kernel)

theorem modulus_prime (f : Field) : f.modulus.Prime := by
  cases f
  · exact modulus_f64_prime
  · exact modulus_f31_prime

end Sys2Proof.Machine
end

