-- ==== Sys2Proof/Machine/Assembler.lean ====
section
/-! DEFINITION. The assembler text of a command (R99): the mnemonic in lower case, the operands separated by
commas, destination first, and after `<=` the data-in of a command that uses it. The two pseudo-instructions
of R100 stand in `Machine/HostCalls.lean`. -/

namespace Sys2Proof.Machine

/-- A hexadecimal digit. -/
def hexDigit (n : Nat) : String :=
  ["0", "1", "2", "3", "4", "5", "6", "7", "8", "9", "A", "B", "C", "D", "E", "F"].getD (n % 16) "0"

/-- A number as `0x` and `count` hexadecimal digits. -/
def hexText (count n : Nat) : String :=
  (List.range count).foldl (fun text k => text ++ hexDigit (n / 16 ^ (count - 1 - k))) "0x"

/-- A state register, `s0` to `s31`. -/
def stateRegText (r : RegNum) : String := "s" ++ toString r.toNat

/-- A digit register, `g0` to `g31`. -/
def digitRegText (r : RegNum) : String := "g" ++ toString r.toNat

/-- The name of a CSR (R29); the number itself where no CSR has it. -/
def csrText (n : CsrNum) : String :=
  match n.toNat with
  | 0x00 => "FSEL"
  | 0x01 => "T"
  | 0x02 => "VAR"
  | 0x03 => "D"
  | 0x04 => "RFB"
  | 0x05 => "RP"
  | 0x06 => "RFE"
  | 0x07 => "NBARS"
  | 0x08 => "NRADIX"
  | 0x09 => "LSEL"
  | 0x0A => "ISEL"
  | 0x0B => "BARMASK"
  | 0x10 => "LOCK"
  | 0x11 => "PSTATE"
  | 0x12 => "RND"
  | 0x13 => "ERRFLAGS"
  | k => hexText 2 k

/-- The data-in of a command that uses it, after `<=`, in decimal (R99; log entry 23). -/
def dinText (din : Word) : String := " <= " ++ toString din.toNat

/-- The two or three state registers of a command, destination first. -/
def regsText (rs : List RegNum) : String := ", ".intercalate (rs.map stateRegText)

/-- The assembler text of a command with its data-in (R99). -/
def asmText (i : Instr) (din : Word) : String :=
  match i with
  | .nop => "nop"
  | .wrs rd => "wrs " ++ stateRegText rd ++ dinText din
  | .rds ra => "rds " ++ regsText [ra]
  | .mov rd ra => "mov " ++ regsText [rd, ra]
  | .wrd rd => "wrd " ++ digitRegText rd ++ dinText din
  | .rdd ra => "rdd " ++ digitRegText ra
  | .wrp addr => "wrp " ++ hexText 5 addr.toNat ++ dinText din
  | .rdp addr => "rdp " ++ hexText 5 addr.toNat
  | .csrw csr => "csrw " ++ csrText csr ++ dinText din
  | .csrr csr => "csrr " ++ csrText csr
  | .gett => "gett"
  | .field f => if f = 1#1 then "field f31" else "field f64"
  | .sealUnit => "seal"
  | .unsealUnit => "unseal"
  | .clrerr => "clrerr"
  | .fadd rd ra rb => "fadd " ++ regsText [rd, ra, rb]
  | .fsub rd ra rb => "fsub " ++ regsText [rd, ra, rb]
  | .fmul rd ra rb => "fmul " ++ regsText [rd, ra, rb]
  | .fsqr rd ra => "fsqr " ++ regsText [rd, ra]
  | .fdbl rd ra => "fdbl " ++ regsText [rd, ra]
  | .fneg rd ra => "fneg " ++ regsText [rd, ra]
  | .finv rd ra => "finv " ++ regsText [rd, ra]
  | .fpow rd ra => "fpow " ++ regsText [rd, ra] ++ dinText din
  | .decomp ra => "decomp " ++ regsText [ra]
  | .comp rd => "comp " ++ regsText [rd]
  | .mdsd bank => "mdsd " ++ toString bank.toNat
  | .mdsc => "mdsc"
  | .mdsch => "mdsch"
  | .affine row => "affine " ++ toString row.toNat
  | .arc row => "arc " ++ toString row.toNat
  | .sboxf => "sboxf"
  | .sbox0 => "sbox0"
  | .sboxi => "sboxi"
  | .bricks => "bricks"
  | .bars impl => if impl = 1#1 then "bars.lut" else "bars"
  | .rcbars => "rcbars"
  | .feis rot row => (if rot = 1#1 then "feis.rot " else "feis ") ++ toString row.toNat
  | .pstart => "pstart"
  | .pstep => "pstep"
  | .perm => "perm"
  | .preset => "preset"

end Sys2Proof.Machine
end

