-- ==== Sys2Proof/Tests/Slice0.lean ====
section
/-! SUPPORT. The model's own tests. Expected words and values are those of `spec/30_encoding.md` R99 and of
`spec/95_test_vectors.md`; the witnesses show states that meet the hypotheses of the statements. -/

namespace Sys2Proof.Tests

open Sys2Proof.Machine

/-! ### Well-formedness (R96 (c), (d)) -/

theorem test_ill_formed_csrw_fsel : (Instr.csrw 0x00).wellFormed = false := by decide
theorem test_ill_formed_csrw_lock : (Instr.csrw 0x10).wellFormed = false := by decide
theorem test_ill_formed_csrw_reserved : (Instr.csrw 0x0C).wellFormed = false := by decide
theorem test_ill_formed_csrr_hole : (Instr.csrr 0x0C).wellFormed = false := by decide
theorem test_ill_formed_csrr_past_end : (Instr.csrr 0x14).wellFormed = false := by decide
theorem test_well_formed_csrs :
    (Instr.csrw 0x0B).wellFormed = true ∧ (Instr.csrr 0x13).wellFormed = true := by decide

/-! ### Decoding: the word of every command (R99), and illegal words (section 2.1 of the vectors) -/

theorem test_decode_nop : decode 0x00000000#32 = .ok (.nop) := by decide
theorem test_decode_wrs : decode 0x01180000#32 = .ok (.wrs 3) := by decide
theorem test_decode_rds : decode 0x0200C000#32 = .ok (.rds 3) := by decide
theorem test_decode_mov : decode 0x03088000#32 = .ok (.mov 1 2) := by decide
theorem test_decode_wrd : decode 0x04100000#32 = .ok (.wrd 2) := by decide
theorem test_decode_rdd : decode 0x05008000#32 = .ok (.rdd 2) := by decide
theorem test_decode_wrp : decode 0x06002800#32 = .ok (.wrp 0x02800) := by decide
theorem test_decode_rdp : decode 0x07002800#32 = .ok (.rdp 0x02800) := by decide
theorem test_decode_csrw : decode 0x08010000#32 = .ok (.csrw 0x01) := by decide
theorem test_decode_csrr : decode 0x09110000#32 = .ok (.csrr 0x11) := by decide
theorem test_decode_gett : decode 0x0A000000#32 = .ok (.gett) := by decide
theorem test_decode_field : decode 0x0B800000#32 = .ok (.field 1) := by decide
theorem test_decode_seal : decode 0x0C000000#32 = .ok (.sealUnit) := by decide
theorem test_decode_unseal : decode 0x0D000000#32 = .ok (.unsealUnit) := by decide
theorem test_decode_clrerr : decode 0x0E000000#32 = .ok (.clrerr) := by decide
theorem test_decode_fadd : decode 0x10184400#32 = .ok (.fadd 3 1 2) := by decide
theorem test_decode_fsub : decode 0x11184400#32 = .ok (.fsub 3 1 2) := by decide
theorem test_decode_fmul : decode 0x12184400#32 = .ok (.fmul 3 1 2) := by decide
theorem test_decode_fsqr : decode 0x13104000#32 = .ok (.fsqr 2 1) := by decide
theorem test_decode_fdbl : decode 0x14104000#32 = .ok (.fdbl 2 1) := by decide
theorem test_decode_fneg : decode 0x15104000#32 = .ok (.fneg 2 1) := by decide
theorem test_decode_finv : decode 0x16004000#32 = .ok (.finv 0 1) := by decide
theorem test_decode_fpow : decode 0x17104000#32 = .ok (.fpow 2 1) := by decide
theorem test_decode_decomp : decode 0x18004000#32 = .ok (.decomp 1) := by decide
theorem test_decode_comp : decode 0x19100000#32 = .ok (.comp 2) := by decide
theorem test_decode_mdsd : decode 0x20800000#32 = .ok (.mdsd 1) := by decide
theorem test_decode_mdsc : decode 0x21000000#32 = .ok (.mdsc) := by decide
theorem test_decode_mdsch : decode 0x22000000#32 = .ok (.mdsch) := by decide
theorem test_decode_affine : decode 0x23000002#32 = .ok (.affine 2) := by decide
theorem test_decode_arc : decode 0x28000007#32 = .ok (.arc 7) := by decide
theorem test_decode_sboxf : decode 0x29000000#32 = .ok (.sboxf) := by decide
theorem test_decode_sbox0 : decode 0x2A000000#32 = .ok (.sbox0) := by decide
theorem test_decode_sboxi : decode 0x2B000000#32 = .ok (.sboxi) := by decide
theorem test_decode_bricks : decode 0x2C000000#32 = .ok (.bricks) := by decide
theorem test_decode_bars : decode 0x2D800000#32 = .ok (.bars 1) := by decide
theorem test_decode_rcbars : decode 0x2E000000#32 = .ok (.rcbars) := by decide
theorem test_decode_feis : decode 0x2F800003#32 = .ok (.feis 1 3) := by decide
theorem test_decode_pstart : decode 0x30000000#32 = .ok (.pstart) := by decide
theorem test_decode_pstep : decode 0x31000000#32 = .ok (.pstep) := by decide
theorem test_decode_perm : decode 0x32000000#32 = .ok (.perm) := by decide
theorem test_decode_preset : decode 0x33000000#32 = .ok (.preset) := by decide

theorem test_illegal_reserved_low : legalWord 0x0F000000#32 = false := by decide
theorem test_illegal_reserved_1a : legalWord 0x1A000000#32 = false := by decide
theorem test_illegal_reserved_24 : legalWord 0x24000000#32 = false := by decide
theorem test_illegal_reserved_34 : legalWord 0x34000000#32 = false := by decide
theorem test_illegal_reserved_ff : legalWord 0xFFFFFFFF#32 = false := by decide
theorem test_illegal_nop_bit : legalWord 0x00000001#32 = false := by decide
theorem test_illegal_wrs_ra : legalWord 0x01184000#32 = false := by decide
theorem test_illegal_fadd_bit8 : legalWord 0x10FFFF00#32 = false := by decide
theorem test_illegal_fsqr_rb : legalWord 0x13084200#32 = false := by decide
theorem test_illegal_wrp_bit20 : legalWord 0x06100000#32 = false := by decide
theorem test_illegal_affine_f : legalWord 0x23800002#32 = false := by decide
theorem test_illegal_bars_row : legalWord 0x2D000001#32 = false := by decide
theorem test_illegal_csrr_14 : legalWord 0x09140000#32 = false := by decide
theorem test_illegal_csrr_0c : legalWord 0x090C0000#32 = false := by decide
theorem test_illegal_csrw_lock : legalWord 0x08100000#32 = false := by decide
theorem test_illegal_csrw_fsel : legalWord 0x08000000#32 = false := by decide
theorem test_legal_corners : legalWord 0x10FFFE00#32 = true ∧ legalWord 0x060FFFFF#32 = true ∧
    legalWord 0x09130000#32 = true ∧ legalWord 0x2F8000FF#32 = true := by decide
theorem test_bytes_little : decodeBytes .little [0x00, 0x44, 0x18, 0x10, 0x7F] =
    .ok (.fadd 3 1 2, [0x7F]) := by decide
theorem test_bytes_big : decodeBytes .big [0x10, 0x18, 0x44, 0x00] = .ok (.fadd 3 1 2, []) := by decide
theorem test_bytes_short : decodeBytes .little [0x00, 0x44, 0x18] = .error .tooShort := by decide
theorem test_table_word : decodeTableWord 32 0x10184400 = some (.fadd 3 1 2) := by decide

/-! ### Small states -/

/-- The CSRs of a unit of width 3, variant 0, degree 3, one round, in the construction phase. -/
def base : Csrs := { State.reset.csr with t := 3, d := 3, rfb := 1 }

/-- The unit after reset with these CSRs, this parameter memory, and words in `S[0..2]`. -/
def at3 (c : Csrs) (pm : Memory) (a b d : Nat) : State :=
  { State.reset with csr := c, pm := pm }.setVec [a, b, d]

/-- The parameters of section 2.5 of the vectors. -/
def layers : Memory :=
  [(0x0040, 10), (0x0041, 20), (0x0042, 30), (0x2000, 2), (0x2001, 1), (0x2002, 1), (0x2020, 1),
   (0x2021, 2), (0x2022, 1), (0x2040, 1), (0x2041, 1), (0x2042, 2), (0x2400, 1), (0x2401, 2),
   (0x2402, 3), (0x2420, 3), (0x2421, 1), (0x2422, 2), (0x2440, 2), (0x2441, 3), (0x2442, 1),
   (0x2800, 1), (0x2801, 2), (0x2802, 3), (0x2820, 2), (0x2821, 3), (0x2822, 4), (0x2841, 5),
   (0x2842, 6), (0x2861, 7), (0x2862, 8)]

/-- The cheap layer's coefficients with bank 1 the matrix `SP` of section 2.5, bank 0 and `CROW` a circulant
pair. -/
def pairs : Memory :=
  [(0x2000, 1), (0x2001, 2), (0x2002, 3), (0x2020, 3), (0x2021, 1), (0x2022, 2), (0x2040, 2),
   (0x2041, 3), (0x2042, 1), (0x2400, 2), (0x2401, 3), (0x2402, 4), (0x2420, 5), (0x2421, 7),
   (0x2440, 6), (0x2442, 8), (0x2800, 1), (0x2801, 2), (0x2802, 3), (0x2820, 2), (0x2821, 3),
   (0x2822, 4), (0x2841, 5), (0x2842, 6), (0x2861, 7), (0x2862, 8)]

/-- The radices of section 2.4, with one substitute. -/
def radixWords : Memory := [(0x2880, 10), (0x2881, 7), (0x2882, 5), (0x10004, 3)]

/-- A unit in the construction phase. -/
def opened : State := at3 base layers 1 2 3

/-- A sealed unit, not in a round. -/
def locked : State := at3 { base with lock := 1 } layers 1 2 3

/-- A sealed unit in round 0 of 1. -/
def running : State := at3 { base with lock := 1, pstate := 1 } layers 1 2 3

/-- A sealed unit in the first of two rounds, with a flag set. -/
def runningTwo : State := at3 { base with rp := 1, lock := 1, pstate := 1, errflags := 2 } layers 1 2 3

/-- A sealed unit that is Done. -/
def finished : State := at3 { base with lock := 1, pstate := 2, rnd := 1 } layers 1 2 3

/-- A sealed unit whose degree 7 has an inverse exponent in F64. -/
def locked7 : State := at3 { base with d := 7, lock := 1 } layers 0 2 3

/-- A sealed unit with a usable radix sequence of length 3. -/
def radixed : State := at3 { base with nradix := 3, lock := 1 } radixWords 1000 349 4

/-- The same with `S[0]` the greatest element and the substitute of digit 2 as large as can be. -/
def overflowing : State :=
  at3 { base with nradix := 2, lock := 1 } [(0x2880, 10), (0x2881, 7), (0x10005, 65535)]
    0xFFFFFFFF00000000 0 0

/-- A sealed unit of variant 1 in F64, of variant 2 and of variant 3. -/
def rescue : State := at3 { base with d := 7, var := 1, lock := 1 } layers 0 1 2
def feistel : State := at3 { base with var := 2, rfb := 2, lock := 1 } layers 1 2 3
def monolith : State := at3 { base with var := 3, nbars := 1, lock := 1 } layers 0x0306 2 3
/-- A sealed unit with the circulant strategy. -/
def circulantUnit : State := at3 { base with lsel := 1, lock := 1 } layers 1 2 3

/-- A sealed unit of variant 4, two rounds, the second with bars. -/
def rcVariant : State :=
  at3 { base with var := 4, rfb := 2, nradix := 3, barmask := 2, lock := 1 } radixWords 4 0 0

/-- A sealed unit of variant 4 whose bars round has a word that does not recompose into the field. -/
def rcFailing : State :=
  at3 { base with var := 4, nradix := 2, barmask := 1, lock := 1 }
    [(0x2880, 10), (0x2881, 7), (0x10005, 65535)] 0xFFFFFFFF00000000 0 0

/-- The state after a command. -/
def after (i : Instr) (s : State) : State :=
  match exec i s with
  | .next t => t
  | .fault _ => s
  | .refused _ => s

/-- The status and the data-out of a command. -/
def said (i : Instr) (s : State) : Option (Nat × Nat) :=
  ((after i s).responses.getLast?).map fun r => (r.st.toNat, r.dout.toNat)

/-- The first words after a command. -/
def vec3 (i : Instr) (s : State) : Nat × Nat × Nat :=
  ((after i s).elem 0, (after i s).elem 1, (after i s).elem 2)

/-- A state with data-in. -/
def din (v : Word) (s : State) : State := { s with din := v }

/-! ### One command each, against the vectors (sections 2.2 to 2.7) -/

theorem test_nop :
    said .nop opened = some (0, 0) ∧ (after .nop opened).unit = opened.unit := by decide
theorem test_wrs_top :
    (after (.wrs 0) (din 0xFFFFFFFF00000000 opened)).elem 0 = 0xFFFFFFFF00000000 := by decide
theorem test_wrs_range :
    said (.wrs 0) (din 0xFFFFFFFF00000001 opened) = some (1, 0) := by decide
theorem test_rds :
    said (.rds 1) opened = some (0, 2) := by decide
theorem test_mov :
    (after (.mov 31 2) opened).elem 31 = 3 := by decide
theorem test_wrd :
    (after (.wrd 31) (din 0xFFFFFFFFFFFFFFFF running)).digit 31 = 0xFFFFFFFFFFFFFFFF#64 := by decide
theorem test_rdd :
    said (.rdd 31) (after (.wrd 31) (din 9 running)) = some (0, 9) := by decide
theorem test_wrp :
    (after (.wrp 0x0287F) (din 7 opened)).word 0x287F = 7#64 := by decide
theorem test_wrp_reserved :
    said (.wrp 0x028A0) (din 1 opened) = some (8, 0) := by decide
theorem test_rdp :
    said (.rdp 0x02802) locked = some (0, 3) := by decide
theorem test_rdp_reserved :
    said (.rdp 0x0FFFF) opened = some (8, 0) := by decide
theorem test_csrw_masks :
    (after (.csrw 0x01) (din 0x43 opened)).csr.t = 3#6 := by decide
theorem test_csrw_sealed :
    said (.csrw 0x01) (din 3 locked) = some (6, 0) := by decide
theorem test_csrr :
    said (.csrr 0x13) (after (.wrs 0) (din 0xFFFFFFFF00000001 opened)) = some (0, 2) := by decide
theorem test_gett :
    said .gett opened = some (0, 3) := by decide
theorem test_field :
    (after (.field 1) (din 5 runningTwo)).unit = { State.reset with csr := { State.reset.csr with fsel := 1 } } := by decide
theorem test_seal :
    said .sealUnit opened = some (0, 0) ∧ (after .sealUnit opened).csr.lock = 1#1 := by decide
theorem test_seal_reset :
    said .sealUnit State.reset = some (4, 0) := by decide
theorem test_unseal :
    (after .unsealUnit running).csr.lock = 0#1 ∧ (after .unsealUnit running).csr.pstate = 0#2 := by decide
theorem test_clrerr :
    (after .clrerr runningTwo).csr.errflags = 0#9 := by decide
theorem test_fadd_wraps :
    (after (.fadd 0 1 2) (at3 base [] 0 0xFFFFFFFF00000000 0xFFFFFFFF00000000)).elem 0 = 0xFFFFFFFEFFFFFFFF := by decide
theorem test_fsub_wraps :
    (after (.fsub 0 1 2) (at3 base [] 0 3 5)).elem 0 = 0xFFFFFFFEFFFFFFFF := by decide
theorem test_fmul :
    (after (.fmul 0 1 2) (at3 base [] 0 0x7EE3946B2C3FF33B 0xC4DB0B0B722B9398)).elem 0 = 0x0C094D8B44AABE53 := by decide
theorem test_fmul_f31 :
    (after (.fmul 0 1 2) (at3 { base with fsel := 1 } [] 0 0x12345678 0x7654321)).elem 0 = 0x71C5D10A := by decide
theorem test_fsqr :
    (after (.fsqr 1 1) (at3 base [] 0 0xFFFFFFFF00000000 0)).elem 1 = 1 := by decide
theorem test_fdbl :
    (after (.fdbl 0 1) (at3 base [] 0 0x8000000000000000 0)).elem 0 = 0xFFFFFFFF := by decide
theorem test_fneg :
    (after (.fneg 0 1) (at3 { base with fsel := 1 } [] 0 1 0)).elem 0 = 0x7FFFFFFE := by decide
theorem test_finv :
    (after (.finv 0 1) (at3 base [] 99 3 0)).elem 0 = 0xAAAAAAAA00000001 := by decide +kernel
theorem test_finv_zero :
    said (.finv 0 1) (at3 base [] 99 0 0) = some (2, 0) ∧ (after (.finv 0 1) (at3 base [] 99 0 0)).elem 0 = 99 := by decide
theorem test_fpow :
    (after (.fpow 0 1) (din 32 (at3 base [] 0 7 0))).elem 0 = 0x33CDC3006AFFAB59 := by decide +kernel
theorem test_fpow_zero :
    (after (.fpow 0 1) (din 0 (at3 base [] 0 0 0))).elem 0 = 1 := by decide +kernel
theorem test_decomp :
    (after (.decomp 0) radixed).digit 0 = 28#64 ∧ (after (.decomp 0) radixed).digit 1 = 4#64 := by decide
theorem test_comp :
    (after (.comp 2) (after (.decomp 1) radixed)).elem 2 = 349 := by decide
theorem test_comp_range :
    said (.comp 2) (after (.wrd 0) (din 0xFFFFFFFFFFFFFFFF radixed)) = some (1, 0) := by decide
theorem test_mdsd :
    vec3 (.mdsd 1) locked = (14, 11, 11) := by decide
theorem test_mdsd_open :
    said (.mdsd 0) opened = some (4, 0) := by decide
theorem test_mdsc :
    vec3 .mdsc locked = (14, 11, 11) := by decide
theorem test_mdsch :
    vec3 .mdsch locked = (20, 19, 30) := by decide
theorem test_affine :
    vec3 (.affine 2) locked = (17, 28, 39) := by decide
theorem test_arc :
    vec3 (.arc 2) locked = (11, 22, 33) := by decide
theorem test_sboxf :
    vec3 .sboxf (at3 locked.csr [] 2 3 4) = (8, 27, 64) := by decide +kernel
theorem test_sbox0 :
    vec3 .sbox0 (at3 locked.csr [] 2 3 4) = (8, 3, 4) := by decide +kernel
theorem test_sboxi_undoes :
    vec3 .sboxi (after .sboxf locked7) = (0, 2, 3) := by decide +kernel
theorem test_sboxi_none :
    said .sboxi locked = some (4, 0) := by decide
theorem test_bricks :
    vec3 .bricks locked = (1, 3, 7) := by decide
theorem test_bars :
    vec3 (.bars 0) monolith = (0x0B16, 2, 3) ∧ vec3 (.bars 1) monolith = (0x0B16, 2, 3) := by decide
theorem test_rcbars :
    vec3 .rcbars (at3 radixed.csr radixWords 4 0 9) = (3, 0, 3) := by decide
theorem test_rcbars_range :
    said .rcbars overflowing = some (1, 0) := by decide
theorem test_feis :
    vec3 (.feis 1 0) locked = (3, 4, 1) := by decide +kernel
theorem test_pstart :
    (after .pstart finished).csr.pstate = 1#2 ∧ (after .pstart finished).csr.rnd = 0#9 := by decide
theorem test_pstep_done :
    (after .pstep running).csr.pstate = 2#2 ∧ (after .pstep running).csr.rnd = 1#9 := by decide +kernel
theorem test_pstep_sequence :
    said .pstep locked = some (7, 0) := by decide
theorem test_perm :
    (after .perm rcVariant).csr.rnd = 2#9 ∧ said .perm rcVariant = some (0, 0) := by decide +kernel
theorem test_perm_range :
    said .perm rcFailing = some (1, 0) ∧ (after .perm rcFailing).csr.pstate = 0#2 := by decide
theorem test_preset :
    (after .preset runningTwo).csr.pstate = 0#2 ∧ (after .preset runningTwo).csr.lock = 1#1 := by decide

/-! ### Assembler and host calls -/

theorem test_asm_fadd : asmText (.fadd 3 1 2) 0 = "fadd s3, s1, s2" := by decide
theorem test_asm_bars_lut : asmText (.bars 1) 0 = "bars.lut" := by decide

/-- Parameters of width 3 with a radix left at 0. -/
def sample : FieldParams :=
  { fsel := 0, t := 3, var := 0, d := 0, rfb := 0, rp := 0, rfe := 0, nbars := 0, nradix := 0, lsel := 0,
    isel := 0, barmask := 0, words := [(0x02880, 0), (0x02000, 2)] }

theorem test_new_skips_zeros :
    newSteps sample = [.select 0, .configure 0x01 3, .load 0x02000 2, .finish] := by decide
theorem test_new_word_refused :
    newResult [.select 0, .load 0x02000 2, .finish] [⟨0, 0⟩, ⟨1, 0⟩, ⟨0, 0⟩] = .notInField := by decide
theorem test_new_all_zero :
    newOn { sample with t := 0, words := [] } State.reset = .invalidConfiguration := by decide
theorem test_permutation_call_reads_width : (permutationCall 3 [5]).length = 1 + 1 + 3 := by decide
theorem test_permutation_output :
    permutationResult 2 [5, 6] [⟨0, 0⟩, ⟨0, 0⟩, ⟨0, 0⟩, ⟨0, 7⟩, ⟨0, 8⟩] = .ok [7, 8] := by decide
theorem test_permutation_input_refused :
    permutationResult 2 [5, 6] [⟨0, 0⟩, ⟨1, 0⟩, ⟨0, 0⟩, ⟨0, 5⟩, ⟨0, 0⟩] = .error 1 := by decide
theorem test_get_t : getTOn opened = some 3 := by decide

/-! ### The states above meet the invariants -/

theorem inv_opened : Inv opened := inv_of_checks (by decide +kernel)
theorem inv_locked : Inv locked := inv_of_checks (by decide +kernel)
theorem inv_running : Inv running := inv_of_checks (by decide +kernel)
theorem inv_running_two : Inv runningTwo := inv_of_checks (by decide +kernel)
theorem inv_finished : Inv finished := inv_of_checks (by decide +kernel)
theorem inv_locked7 : Inv locked7 := inv_of_checks (by decide +kernel)
theorem inv_radixed : Inv radixed := inv_of_checks (by decide +kernel)
theorem inv_overflowing : Inv overflowing := inv_of_checks (by decide +kernel)
theorem inv_rescue : Inv rescue := inv_of_checks (by decide +kernel)
theorem inv_feistel : Inv feistel := inv_of_checks (by decide +kernel)
theorem inv_monolith : Inv monolith := inv_of_checks (by decide +kernel)
theorem inv_rc_variant : Inv rcVariant := inv_of_checks (by decide +kernel)
theorem inv_rc_failing : Inv rcFailing := inv_of_checks (by decide +kernel)

/-! ### Witnesses of the statements' hypotheses, clause by clause -/

theorem witness_DecodeThenEncode : decode 0x10184400#32 = .ok (.fadd 3 1 2) := by decide

theorem witness_StepRunsDecodedCommand :
    ({ opened with input := [.command 0x10184400#32 7#64] } : State).input =
        .command 0x10184400#32 7#64 :: [] ∧
      decode 0x10184400#32 = .ok (.fadd 3 1 2) := ⟨rfl, by decide⟩

theorem witness_IllegalWords_input :
    ({ opened with input := [.command 0x0F000000#32 0#64] } : State).input =
      .command 0x0F000000#32 0#64 :: [] := rfl

/-- Case (a) at the edges of its ranges, and case (b). -/
theorem witness_IllegalWords_opcodes :
    IllegalWord 0x0F000000#32 ∧ IllegalWord 0x1A000000#32 ∧ IllegalWord 0x1F000000#32 ∧
      IllegalWord 0x24000000#32 ∧ IllegalWord 0x27000000#32 ∧ IllegalWord 0x34000000#32 ∧
      IllegalWord 0xFF000000#32 ∧ IllegalWord 0x00000001#32 := by
  unfold IllegalWord reservedOpcode
  exact ⟨.inl (by decide), .inl (by decide), .inl (by decide), .inl (by decide), .inl (by decide),
    .inl (by decide), .inl (by decide), .inr (.inl ⟨.nop, by decide, by decide⟩)⟩

/-- Cases (c) and (d) at the edges of their ranges. -/
theorem witness_IllegalWords_csrs :
    IllegalWord 0x090C0000#32 ∧ IllegalWord 0x090F0000#32 ∧ IllegalWord 0x09140000#32 ∧
      IllegalWord 0x09FF0000#32 ∧ IllegalWord 0x08000000#32 ∧ IllegalWord 0x08100000#32 ∧
      IllegalWord 0x08130000#32 := by
  unfold IllegalWord
  exact ⟨.inr (.inr (.inl (by decide))), .inr (.inr (.inl (by decide))), .inr (.inr (.inl (by decide))),
    .inr (.inr (.inl (by decide))), .inr (.inr (.inr (by decide))), .inr (.inr (.inr (by decide))),
    .inr (.inr (.inr (by decide)))⟩

/-- Legal words at the edges: the last opcode, the first and last CSR. -/
theorem witness_IllegalWords_legal :
    ¬IllegalWord 0x33000000#32 ∧ ¬IllegalWord 0x080B0000#32 ∧ ¬IllegalWord 0x09000000#32 ∧
      ¬IllegalWord 0x09130000#32 := by
  unfold IllegalWord reservedOpcode
  refine ⟨?_, ?_, ?_, ?_⟩ <;>
    · rintro (h | ⟨j, h1, h2⟩ | h | h)
      · exact absurd h (by decide)
      · cases j <;> dsimp only [Instr.row] at h1 h2 <;>
          first
          | exact absurd h1 (by decide)
          | exact h2 (by decide)
      · exact absurd h (by decide)
      · exact absurd h (by decide)

/-- An OK answer, a raise, and the two commands that clear. -/
theorem witness_ErrorFlagsAreSticky :
    (∃ t, exec .nop runningTwo = .next t ∧ Responds runningTwo t 0#8 0#64) ∧
      (∃ t, exec .pstart runningTwo = .next t ∧ Responds runningTwo t 7#8 0#64) ∧
      (∃ t, exec .clrerr runningTwo = .next t ∧ Responds runningTwo t 0#8 0#64) ∧
      ∃ t, exec (.field 1) runningTwo = .next t ∧ Responds runningTwo t 0#8 0#64 :=
  ⟨⟨_, rfl, rfl, rfl, rfl⟩, ⟨_, rfl, rfl, rfl, rfl⟩, ⟨_, rfl, rfl, rfl, rfl⟩, ⟨_, rfl, rfl, rfl, rfl⟩⟩

theorem witness_PhaseAndSequencerTable :
    (Inv opened ∧ ¬Sealed opened ∧ needsSealedPhase .mdsc = true) ∧
      (Inv locked ∧ Sealed locked ∧ needsConstruction .sealUnit = true) ∧
      (Inv running ∧ InRound running ∧ refusedInRound .pstart = true) ∧
      (Inv finished ∧ Sealed finished ∧ ¬InRound finished) ∧
      (Inv opened ∧ ¬Sealed opened ∧ needsSealedPhase .sealUnit = false) ∧
      (Inv locked ∧ Sealed locked ∧ ¬InRound locked ∧ needsConstruction .mdsc = false ∧
        Instr.mdsc ≠ .pstep) ∧
      (Inv running ∧ InRound running ∧ needsConstruction .pstep = false ∧
        refusedInRound .pstep = false) :=
  ⟨⟨inv_opened, by decide, rfl⟩, ⟨inv_locked, by decide, rfl⟩, ⟨inv_running, by decide, rfl⟩,
    ⟨inv_finished, by decide, by decide⟩, ⟨inv_opened, by decide, rfl⟩,
    ⟨inv_locked, by decide, by decide, rfl, by decide⟩, ⟨inv_running, by decide, rfl, rfl⟩⟩

theorem witness_SealedParametersAreImmutable :
    Sealed locked ∧ Instr.mdsc ≠ .unsealUnit ∧ (∀ f, Instr.mdsc ≠ .field f) ∧
      ∃ t, exec .mdsc locked = .next t :=
  ⟨by decide, by decide, fun _ => by simp, _, rfl⟩

theorem witness_OnlyNamedCommandsWrite :
    (writesRegs .pstart = false ∧ ∃ t, exec .pstart locked = .next t) ∧
      (writesVector .mdsc = true ∧ ∃ t, exec .mdsc locked = .next t) ∧
      (writesDigits (.comp 2) = false ∧ ∃ t, exec (.comp 2) radixed = .next t) ∧
      (changesSequencer .clrerr = false ∧ ∃ t, exec .clrerr running = .next t) :=
  ⟨⟨rfl, _, rfl⟩, ⟨rfl, _, rfl⟩, ⟨rfl, _, rfl⟩, ⟨rfl, _, rfl⟩⟩

theorem witness_StepKeepsInvariants :
    Inv { locked with input := [.command 0x21000000#32 0#64] } ∧
      ∃ t, step { locked with input := [.command 0x21000000#32 0#64] } = .next t :=
  ⟨inv_of_checks (by decide +kernel), _, rfl⟩

theorem witness_ResetEventClearsUnit :
    ({ running with input := [.reset, .command 0#32 0#64] } : State).input =
      .reset :: [.command 0#32 0#64] := rfl

/-- Two states that differ at the port only. -/
theorem witness_StateIsFullyReadable :
    Inv locked ∧ Inv (din 5 locked) ∧
      ∀ (i : Instr) (s' t' : State), readsState i = true → exec i locked = .next s' →
        exec i (din 5 locked) = .next t' → s'.responses.getLast? = t'.responses.getLast? := by
  refine ⟨inv_locked, inv_of_checks (by decide +kernel), ?_⟩
  intro i s' t' hi hs ht
  cases i <;> simp only [readsState, Bool.false_eq_true] at hi
  case rds r => cases hs; cases ht; rfl
  case rdd r => cases hs; cases ht; rfl
  case rdp a =>
    simp only [exec, execRdp, command, reply] at hs ht
    revert hs ht
    cases regionOf a.toNat <;> (intro hs ht; cases hs; cases ht; rfl)
  case csrr n =>
    simp only [exec, execCsrr, command, reply, din] at hs ht
    revert hs ht
    cases isCsr n <;> cases readCsr locked.csr n <;> (intro hs ht; cases hs; cases ht; rfl)

theorem witness_WrsChecksRangeAndWrites :
    InRound running ∧
      (¬InRound (din 0xFFFFFFFF00000001 opened) ∧
        (din 0xFFFFFFFF00000001 opened).p = (din 0xFFFFFFFF00000001 opened).din.toNat) ∧
      ¬InRound (din 0xFFFFFFFF00000000 opened) ∧
        (din 0xFFFFFFFF00000000 opened).din.toNat + 1 = (din 0xFFFFFFFF00000000 opened).p := by
  decide

theorem witness_InRound_and_not : InRound running ∧ ¬InRound opened := by decide

theorem witness_WrpChecks_refusals :
    (Inv locked ∧ Sealed locked) ∧ (Inv opened ∧ ¬Sealed opened) ∧
      (reservedAddress 0x028A0 ∧ reservedAddress 0x0FFFF ∧ reservedAddress 0x20000 ∧
        reservedAddress 0xFFFFF) ∧
      (radixAddress 0x02880 ∧ radixAddress 0x0289F ∧ substAddress 0x10000 ∧ substAddress 0x1FFFF ∧
        elementAddress 0x00000 ∧ elementAddress 0x0287F) := by
  refine ⟨⟨inv_locked, by decide⟩, ⟨inv_opened, by decide⟩, ?_, ?_⟩
  · unfold reservedAddress
    decide
  · unfold radixAddress substAddress elementAddress
    decide

/-- The values at which the write checks turn. -/
theorem witness_WrpChecks_values :
    (Inv (din 0 opened) ∧ ¬Sealed (din 0 opened) ∧ (din 0 opened).din.toNat = 0) ∧
      (Inv (din 65535 opened) ∧ ¬Sealed (din 65535 opened) ∧ (din 65535 opened).din.toNat = 65535) ∧
      (Inv (din 65536 opened) ∧ ¬Sealed (din 65536 opened) ∧ (din 65536 opened).din.toNat = 65536) ∧
      (Inv (din 0xFFFFFFFF00000001 opened) ∧ ¬Sealed (din 0xFFFFFFFF00000001 opened) ∧
        (din 0xFFFFFFFF00000001 opened).din.toNat = (din 0xFFFFFFFF00000001 opened).p) ∧
      (Inv (din 0xFFFFFFFF00000000 opened) ∧ ¬Sealed (din 0xFFFFFFFF00000000 opened) ∧
        (din 0xFFFFFFFF00000000 opened).din.toNat + 1 = (din 0xFFFFFFFF00000000 opened).p) :=
  ⟨⟨inv_of_checks (by decide +kernel), by decide, by decide⟩,
    ⟨inv_of_checks (by decide +kernel), by decide, by decide⟩,
    ⟨inv_of_checks (by decide +kernel), by decide, by decide⟩,
    ⟨inv_of_checks (by decide +kernel), by decide, by decide⟩,
    ⟨inv_of_checks (by decide +kernel), by decide, by decide⟩⟩

theorem witness_RdpReadsOrRaises :
    reservedAddress (0x028A0#20).toNat ∧ reservedAddress (0xFFFFF#20).toNat ∧
      ¬reservedAddress (0x0289F#20).toNat ∧ ¬reservedAddress (0x10000#20).toNat ∧
      ¬reservedAddress (0x1FFFF#20).toNat := by
  unfold reservedAddress
  decide

theorem witness_CsrwMasksToWidth :
    (0x00#8 ∉ writableWidths.map (·.1) ∧ 0x0C#8 ∉ writableWidths.map (·.1) ∧
        0x13#8 ∉ writableWidths.map (·.1)) ∧
      (0x01#8 ∈ writableWidths.map (·.1) ∧ Sealed locked) ∧
      ((0x01#8, 6) ∈ writableWidths ∧ (0x0B#8, 64) ∈ writableWidths ∧ ¬Sealed opened) := by
  decide

theorem witness_CsrrReadsEveryCsr :
    (0x0C#8 ∉ (csrTable opened.csr).map (·.1) ∧ 0x14#8 ∉ (csrTable opened.csr).map (·.1)) ∧
      (0x00#8, 0) ∈ csrTable opened.csr ∧ (0x01#8, 3) ∈ csrTable opened.csr ∧
      (0x13#8, 0) ∈ csrTable opened.csr := by
  decide

/-- Variant 0 of width 32 with 256 rounds, and with 257. -/
def widest : State := at3 { base with t := 32, d := 7, rfb := 255, rp := 1 } [] 0 0 0
def tooLong : State := at3 { base with t := 32, d := 7, rfb := 255, rp := 1, rfe := 1 } [] 0 0 0

theorem witness_SealChecksAndLocks :
    Sealed locked ∧ (¬Sealed State.reset ∧ ¬SealConditions State.reset) ∧
      (¬Sealed widest ∧ SealConditions widest) ∧ ¬Sealed tooLong ∧ ¬SealConditions tooLong :=
  ⟨by decide, ⟨by decide, fun h => absurd h.1 (by decide)⟩,
    ⟨by decide, by decide, by decide, by decide, by decide, by decide, by decide, by decide, by decide⟩,
    by decide, fun h => absurd (h.2.2.2.2.1 rfl).2 (by decide)⟩

theorem witness_FieldCommands : InRound running ∧ ¬InRound opened ∧ Inv opened :=
  ⟨by decide, by decide, inv_opened⟩

theorem witness_FinvIsTheInverse :
    InRound running ∧ (¬InRound locked7 ∧ locked7.elem 0#5 = 0) ∧
      Inv locked7 ∧ ¬InRound locked7 ∧ locked7.elem 1#5 ≠ 0 :=
  ⟨by decide, by decide, inv_locked7, by decide, by decide⟩

theorem witness_FpowResult :
    InRound running ∧ (¬InRound (din 0 opened) ∧ (din 0 opened).din.toNat = 0) ∧
      Inv (din 0xFFFFFFFF00000000 opened) ∧ ¬InRound (din 0xFFFFFFFF00000000 opened) ∧
      (din 0xFFFFFFFF00000000 opened).elem 1#5 ≠ 0 ∧
      (din 0xFFFFFFFF00000000 opened).din.toNat = (din 0xFFFFFFFF00000000 opened).p - 1 :=
  ⟨by decide, by decide, inv_of_checks (by decide +kernel), by decide, by decide, by decide⟩

theorem witness_ReductionDatapathIsExact :
    0xFFFFFFFF00000000 < Field.f64.modulus ∧ 0x7FFFFFFE < Field.f31.modulus := by decide

theorem witness_DecompWritesDigits :
    ¬Sealed opened ∧ (Sealed locked ∧ ¬RadixUsable locked) ∧ Sealed radixed ∧ RadixUsable radixed := by
  unfold RadixUsable
  decide

theorem witness_CompWritesValue :
    ¬Sealed opened ∧ (Sealed running ∧ InRound running) ∧
      (Sealed locked ∧ ¬InRound locked ∧ ¬RadixUsable locked) ∧
      (Sealed (radixed.setDigit 0 0xFFFFFFFFFFFFFFFF) ∧ ¬InRound (radixed.setDigit 0 0xFFFFFFFFFFFFFFFF) ∧
        RadixUsable (radixed.setDigit 0 0xFFFFFFFFFFFFFFFF) ∧
        (radixed.setDigit 0 0xFFFFFFFFFFFFFFFF).p ≤
          valueOf (radixed.setDigit 0 0xFFFFFFFFFFFFFFFF)
            (fun k => ((radixed.setDigit 0 0xFFFFFFFFFFFFFFFF).digit (BitVec.ofNat 5 k)).toNat)) ∧
      (Sealed radixed ∧ ¬InRound radixed ∧ RadixUsable radixed ∧
        valueOf radixed (fun k => (radixed.digit (BitVec.ofNat 5 k)).toNat) < radixed.p) := by
  unfold RadixUsable
  decide

theorem witness_ComposeUndoesDecompose :
    ([10, 7, 5] ≠ [] ∧ ∀ r ∈ [10, 7, 5], r ≠ 0) ∧
      ([10, 7, 5] ≠ [] ∧ [28, 6, 4].length = [10, 7, 5].length ∧
        ∀ k, 1 ≤ k → k < [10, 7, 5].length → [28, 6, 4].getD k 0 < [10, 7, 5].getD k 0) := by
  refine ⟨by decide, by decide, by decide, ?_⟩
  intro k h1 h2
  have h2 : k < 3 := h2
  interval_cases k <;> decide

theorem witness_CompUndoesDecomp :
    Inv radixed ∧ Sealed radixed ∧ ¬InRound radixed ∧ RadixUsable radixed :=
  ⟨inv_radixed, by decide, by decide, by unfold RadixUsable; decide⟩

/-- The hypotheses of every layer and round command's result, and of its two refusals. -/
theorem witness_LayerCommands :
    ¬Sealed opened ∧ (Sealed running ∧ InRound running) ∧ Inv locked ∧ Sealed locked ∧ ¬InRound locked :=
  ⟨by decide, by decide, inv_locked, by decide, by decide⟩

theorem witness_CirculantEqualsDense : locked.csr.t.toNat ≤ 32 ∧ BankIsCirculant locked 1#1 := by
  refine ⟨by decide, ?_⟩
  intro i j hi hj
  have hi : i < 3 := hi
  have hj : j < 3 := hj
  interval_cases i <;> interval_cases j <;> decide

/-- The sealed unit with the circulant and the cheap pair loaded. -/
def paired : State := at3 { base with rp := 1, lock := 1 } pairs 1 2 3

theorem paired_circulant : BankIsCirculant paired 0#1 := by
  intro i j hi hj
  have hi : i < 3 := hi
  have hj : j < 3 := hj
  interval_cases i <;> interval_cases j <;> decide

theorem paired_cheap : BankIsCheap paired 1#1 := by
  constructor
  · intro j hj
    have hj : j < 3 := hj
    interval_cases j <;> decide
  · intro i h1 hi
    have hi : i < 3 := hi
    refine ⟨by interval_cases i <;> decide, by interval_cases i <;> decide, ?_⟩
    intro j hj hj3 hne
    have hj3 : j < 3 := hj3
    interval_cases i <;> interval_cases j <;> first | omega | decide

theorem witness_CheapEqualsDense : paired.csr.t.toNat ≤ 32 ∧ BankIsCheap paired 1#1 :=
  ⟨by decide, paired_cheap⟩

theorem witness_SboxiInversePower :
    (Sealed locked ∧ ¬InRound locked ∧ Nat.gcd locked.csr.d.toNat (locked.p - 1) ≠ 1) ∧
      Inv locked7 ∧ Sealed locked7 ∧ ¬InRound locked7 ∧
      Nat.gcd locked7.csr.d.toNat (locked7.p - 1) = 1 :=
  ⟨by decide +kernel, inv_locked7, by decide, by decide, by decide +kernel⟩

theorem witness_InverseSboxUndoesSbox :
    Inv locked7 ∧ Sealed locked7 ∧ ¬InRound locked7 ∧
      Nat.gcd locked7.csr.d.toNat (locked7.p - 1) = 1 :=
  ⟨inv_locked7, by decide, by decide, by decide +kernel⟩

theorem witness_BarsMapLanes :
    Inv monolith ∧ Sealed monolith ∧ ¬InRound monolith ∧ (0#5).toNat < monolith.csr.nbars.toNat ∧
      ¬(1#5).toNat < monolith.csr.nbars.toNat ∧ (2#5).toNat < monolith.csr.t.toNat :=
  ⟨inv_monolith, by decide⟩

theorem witness_BarWordIsBijection :
    (0xFFFFFFFF00000000#64).toNat < Field.f64.modulus ∧ (0x7FFFFFFE#64).toNat < Field.f31.modulus := by
  decide

theorem witness_RcbarsSubstituteDigits :
    (Sealed locked ∧ ¬InRound locked ∧ ¬RadixUsable locked) ∧
      (Inv overflowing ∧ Sealed overflowing ∧ ¬InRound overflowing ∧ RadixUsable overflowing ∧
        ∃ k : RegNum, k.toNat < overflowing.csr.t.toNat ∧
          overflowing.p ≤ rcBarValue overflowing (overflowing.elem k)) ∧
      (Inv radixed ∧ Sealed radixed ∧ ¬InRound radixed ∧ RadixUsable radixed ∧
        ∀ k : RegNum, k.toNat < radixed.csr.t.toNat →
          rcBarValue radixed (radixed.elem k) < radixed.p) := by
  refine ⟨by unfold RadixUsable; decide,
    ⟨inv_overflowing, by decide, by decide, by unfold RadixUsable; decide, 0#5, by decide +kernel⟩,
    inv_radixed, by decide, by decide, by unfold RadixUsable; decide, by decide +kernel⟩

theorem witness_FeisAddsAndRotates :
    Inv locked ∧ Sealed locked ∧ ¬InRound locked ∧
      ∃ (u : Nat) (m : Nat → Nat),
        u = (locked.elem 0#5 + locked.rc (0x02#8).toNat 0) ^ locked.csr.d.toNat % locked.p ∧
          m 0 = locked.elem 0#5 ∧
          ∀ i, 1 ≤ i → i < locked.csr.t.toNat → m i = (stateWord locked i + u) % locked.p :=
  ⟨inv_locked, by decide, by decide, 1331,
    fun i => if i = 0 then 1 else (stateWord locked i + 1331) % locked.p, by decide, by decide,
    fun i h _ => if_neg (by omega)⟩

theorem witness_BricksAndFeistelAreBijections :
    2 ≤ locked.csr.t.toNat ∧ CanonicalVec locked [0, 5, 0xFFFFFFFF00000000] := by
  unfold CanonicalVec
  decide

/-- The case conditions of the rounds: both strategies of the linear layer; the first and last full round and a
middle round; each variant; the last Feistel round; a bricks round and a bars round; each a round below `R`. -/
theorem witness_RoundStructures :
    (runningTwo.csr.lsel = 0#1 ∧ circulantUnit.csr.lsel = 1#1) ∧
      (runningTwo.csr.var = 0#3 ∧ 0 < runningTwo.rounds ∧ 0 < runningTwo.csr.rfb.toNat) ∧
      (runningTwo.csr.var = 0#3 ∧ 1 < runningTwo.rounds ∧ runningTwo.csr.rfb.toNat ≤ 1 ∧
        1 < runningTwo.csr.rfb.toNat + runningTwo.csr.rp.toNat) ∧
      (rescue.csr.var = 1#3 ∧ 0 < rescue.rounds ∧
        ∃ b, sboxInv rescue (addRc rescue (2 * 0) (lin rescue (sboxFull rescue rescue.vec))) = .ok b) ∧
      (feistel.csr.var = 2#3 ∧ 0 + 1 < feistel.rounds ∧ feistel.rounds = 1 + 1) ∧
      (monolith.csr.var = 3#3 ∧ 0 < monolith.rounds) ∧
      (rcVariant.csr.var = 4#3 ∧ 1 < rcVariant.rounds ∧ rcVariant.csr.barmask.getLsbD 0 = false ∧
        rcVariant.csr.barmask.getLsbD 1 = true ∧ ∃ n, rcBars rcVariant rcVariant.vec = .ok n) ∧
      (rcFailing.csr.var = 4#3 ∧ 0 < rcFailing.rounds ∧ rcFailing.csr.barmask.getLsbD 0 = true ∧
        rcBars rcFailing rcFailing.vec = .error .notInField) := by
  refine ⟨by decide, by decide, by decide, ⟨by decide, by decide, _, rfl⟩, by decide, by decide,
    ⟨by decide, by decide, by decide, by decide, _, rfl⟩, by decide, by decide, by decide, rfl⟩

/-- `PSTART` is allowed in NotStarted and in Done. -/
theorem witness_PstartEntersRoundZero :
    ¬Sealed opened ∧ (Sealed running ∧ InRound running) ∧ (Sealed locked ∧ ¬InRound locked) ∧
      Sealed finished ∧ ¬InRound finished := by
  decide

/-- The variant 4 unit in round 0, a bars round without a value. -/
def rcFailingRound : State := { rcFailing with csr := { rcFailing.csr with pstate := 1 } }

theorem witness_PstepAppliesOneRound :
    ¬Sealed opened ∧ (Sealed finished ∧ ¬InRound finished) ∧
      (Sealed rcFailingRound ∧ InRound rcFailingRound ∧
        round rcFailingRound rcFailingRound.csr.rnd.toNat rcFailingRound.vec = .error .notInField) ∧
      (Inv running ∧ Sealed running ∧ InRound running ∧
        running.csr.rnd.toNat + 1 = running.rounds ∧
        ∃ v, round running running.csr.rnd.toNat running.vec = .ok v) ∧
      (Inv runningTwo ∧ Sealed runningTwo ∧ InRound runningTwo ∧
        runningTwo.csr.rnd.toNat + 1 < runningTwo.rounds ∧
        ∃ v, round runningTwo runningTwo.csr.rnd.toNat runningTwo.vec = .ok v) :=
  ⟨by decide, by decide, ⟨by decide, by decide, rfl⟩,
    ⟨inv_running, by decide, by decide, by decide, _, rfl⟩,
    ⟨inv_running_two, by decide, by decide, by decide, _, rfl⟩⟩

/-- The states a run of rounds goes through from a given one, 0 words past an error. -/
def runVec (s : State) (v : List Nat) (r0 k : Nat) : List Nat :=
  match runRounds s (k - r0) r0 v with
  | .ok w => w
  | .error _ => []

theorem witness_PermAppliesRemainingRounds_error :
    (0 = if rcFailing.csr.pstate = 1#2 then rcFailing.csr.rnd.toNat else 0) ∧
      runVec rcFailing rcFailing.vec 0 0 = rcFailing.vec ∧ Sealed rcFailing ∧ 0 ≤ 0 ∧
      0 < rcFailing.rounds ∧
      (∀ j, 0 ≤ j → j < 0 → round rcFailing j (runVec rcFailing rcFailing.vec 0 j) =
        .ok (runVec rcFailing rcFailing.vec 0 (j + 1))) ∧
      round rcFailing 0 (runVec rcFailing rcFailing.vec 0 0) = .error .notInField :=
  ⟨rfl, rfl, by decide, by decide, by decide, fun j _ h => absurd h (Nat.not_lt_zero j), rfl⟩

theorem witness_PermAppliesRemainingRounds_result :
    ¬Sealed opened ∧
      (0 = if running.csr.pstate = 1#2 then running.csr.rnd.toNat else 0) ∧
      runVec running running.vec 0 0 = running.vec ∧ Inv running ∧ Sealed running ∧
      ∀ j, 0 ≤ j → j < running.rounds → round running j (runVec running running.vec 0 j) =
        .ok (runVec running running.vec 0 (j + 1)) := by
  refine ⟨by decide, rfl, rfl, inv_running, by decide, ?_⟩
  intro j _ h
  have h : j < 1 := h
  interval_cases j
  rfl

theorem witness_PermEqualsStartAndSteps :
    (Inv feistel ∧ Sealed feistel ∧ ¬InRound feistel ∧
      ∃ v, permutation feistel feistel.vec = .ok v) ∧
      Inv runningTwo ∧ Sealed runningTwo ∧ InRound runningTwo ∧
      ∃ v, runRounds runningTwo (runningTwo.rounds - runningTwo.csr.rnd.toNat)
        runningTwo.csr.rnd.toNat runningTwo.vec = .ok v :=
  ⟨⟨inv_feistel, by decide, by decide, _, rfl⟩, inv_running_two, by decide, by decide, _, rfl⟩

theorem witness_FeistelPermutationIsBijection :
    Inv feistel ∧ Sealed feistel ∧ feistel.csr.var = 2#3 ∧ CanonicalVec feistel [1, 2, 3] :=
  ⟨inv_feistel, by decide, by decide, by unfold CanonicalVec; decide⟩

theorem witness_FastAndReferencePathsAgree :
    Inv paired ∧ Sealed paired ∧ BankIsCheap paired 1#1 ∧ BankIsCirculant paired 0#1 :=
  ⟨inv_of_checks (by decide +kernel), by decide, paired_cheap, paired_circulant⟩

end Sys2Proof.Tests
end

/-! # The state: what a command leaves, its frame, the invariants, reading the unit out

The statements of the family of the state (R20 to R48). The frames and the invariants rest on one inversion
lemma, `exec_ends`: what state a command of each kind can leave. -/

namespace Sys2Proof.Machine

/-! ### Canonical vectors

Every function of the layers, of the rounds and of the S-boxes takes a vector of canonical words to a
vector of canonical words (R9, R156). -/

/-- Every word of a vector is canonical modulo `p`. -/
def WordsBelow (p : Nat) (v : List Nat) : Prop := ∀ x ∈ v, x < p

theorem wordsBelow_tabulate {p t : Nat} {f : Nat → Nat} (h : ∀ i, f i < p) :
    WordsBelow p (tabulate t f) := by
  intro x hx
  obtain ⟨i, -, rfl⟩ := List.mem_map.mp hx
  exact h i

theorem wordsBelow_map {p : Nat} {v : List Nat} {f : Nat → Nat} (h : ∀ x ∈ v, f x < p) :
    WordsBelow p (v.map f) := by
  intro y hy
  obtain ⟨x, hx, rfl⟩ := List.mem_map.mp hy
  exact h x hx

/-- Word `i`, 0 past the end, of a canonical vector is canonical. -/
theorem WordsBelow.getD_lt {p : Nat} (hp : 0 < p) {v : List Nat} (hv : WordsBelow p v) (i : Nat) :
    v.getD i 0 < p := by
  by_cases hi : i < v.length
  · rw [List.getD_eq_getElem _ _ hi]
    exact hv _ (List.getElem_mem hi)
  · rw [List.getD_eq_default _ _ (by omega)]
    exact hp

section Layers

variable {s : State} {v : List Nat}

theorem WordsBelow.wordAt_lt (hv : WordsBelow s.p v) (i : Nat) : wordAt v i < s.p :=
  hv.getD_lt (p_pos s) i

theorem dense_below (s : State) (b : BitVec 1) (v : List Nat) : WordsBelow s.p (dense s b v) :=
  wordsBelow_tabulate fun _ => dotMod_lt (p_pos s) _ _

theorem circ_below (s : State) (v : List Nat) : WordsBelow s.p (circ s v) :=
  wordsBelow_tabulate fun _ => dotMod_lt (p_pos s) _ _

theorem cheap_below (s : State) (v : List Nat) : WordsBelow s.p (cheap s v) :=
  wordsBelow_tabulate fun i => by
    split
    · exact dotMod_lt (p_pos s) _ _
    · exact addMod_lt (p_pos s) _ _

theorem lin_below (s : State) (v : List Nat) : WordsBelow s.p (lin s v) := by
  unfold lin
  split
  · exact dense_below s _ v
  · exact circ_below s v

theorem affine_below (s : State) (k : Nat) (v : List Nat) : WordsBelow s.p (affine s k v) :=
  wordsBelow_tabulate fun _ => addMod_lt (p_pos s) _ _

theorem addRc_below (s : State) (k : Nat) (v : List Nat) : WordsBelow s.p (addRc s k v) :=
  wordsBelow_tabulate fun _ => addMod_lt (p_pos s) _ _

theorem sboxFull_below (s : State) (v : List Nat) : WordsBelow s.p (sboxFull s v) :=
  wordsBelow_tabulate fun _ => powMod_lt (one_lt_p s) _ _

theorem sboxWord0_below (hv : WordsBelow s.p v) : WordsBelow s.p (sboxWord0 s v) :=
  wordsBelow_tabulate fun i => by
    split
    · exact powMod_lt (one_lt_p s) _ _
    · exact hv.wordAt_lt i

theorem sboxInv_below {w : List Nat} (h : sboxInv s v = .ok w) : WordsBelow s.p w := by
  unfold sboxInv at h
  split at h <;> cases h
  exact wordsBelow_tabulate fun i => by
    split
    · exact p_pos s
    · exact powMod_lt (one_lt_p s) _ _

theorem bricks_below (hv : WordsBelow s.p v) : WordsBelow s.p (bricks s v) :=
  wordsBelow_tabulate fun i => by
    split
    · exact hv.wordAt_lt 0
    · exact addMod_lt (p_pos s) _ _

theorem rcBars_below {w : List Nat} (h : rcBars s v = .ok w) : WordsBelow s.p w := by
  unfold rcBars at h
  split at h
  · split at h <;> cases h
    rename_i hall
    exact wordsBelow_map fun x hx => by
      by_contra hge
      exact hall (List.any_eq_true.mpr ⟨x, hx, by simpa using hge⟩)
  · cases h

theorem feistelStep_below (hv : WordsBelow s.p v) (k : Nat) (rot : Bool) :
    WordsBelow s.p (feistelStep s k rot v) := by
  have hmid : ∀ u, WordsBelow s.p (tabulate v.length fun i =>
      if i = 0 then wordAt v 0 else addMod s.p (wordAt v i) u) := fun u =>
    wordsBelow_tabulate fun i => by
      split
      · exact hv.wordAt_lt 0
      · exact addMod_lt (p_pos s) _ _
  unfold feistelStep
  dsimp only
  split
  · exact wordsBelow_tabulate fun i => (hmid _).wordAt_lt _
  · exact hmid _

end Layers

/-! ### The bar map keeps an element canonical (R219, R220) -/

theorem toNat_append_eq_add {m n : Nat} (x : BitVec m) (y : BitVec n) :
    (x ++ y).toNat = x.toNat * 2 ^ n + y.toNat := by
  rw [BitVec.toNat_append, ← Nat.shiftLeft_add_eq_or_of_lt y.isLt, Nat.shiftLeft_eq]

/-- An 8-bit lane maps 0 to 0, and only the lane of all ones to all ones. -/
theorem barLane8_ends (a : BitVec 8) :
    (a.toNat = 0 → (barLane a).toNat = 0) ∧ ((barLane a).toNat = 255 → a.toNat = 255) := by
  revert a
  decide

theorem barLane7_ends (a : BitVec 7) :
    (a.toNat = 0 → (barLane a).toNat = 0) ∧ ((barLane a).toNat = 127 → a.toNat = 127) := by
  revert a
  decide

theorem lane8_toNat (x : Word) (k : Nat) : (lane8 x k).toNat = x.toNat / 2 ^ (8 * k) % 256 := by
  rw [lane8, BitVec.extractLsb'_toNat, Nat.shiftRight_eq_div_pow]

theorem lane7_toNat (x : Word) : (lane7 x).toNat = x.toNat / 2 ^ 24 % 128 := by
  rw [lane7, BitVec.extractLsb'_toNat, Nat.shiftRight_eq_div_pow]

/-- In F64 a word is at least `p` exactly when its upper four lanes are all ones and its lower four are not
all 0; the bar map makes no such word from a smaller one. -/
theorem barWord_f64_lt {x : Word} (h : x.toNat < Field.f64.modulus) :
    (barWord .f64 x).toNat < Field.f64.modulus := by
  have hlane := fun k => barLane8_ends (lane8 x k)
  have hlt := fun k => (barLane (lane8 x k)).isLt
  simp only [lane8_toNat] at hlane
  have h0 := hlane 0; have h1 := hlane 1; have h2 := hlane 2; have h3 := hlane 3
  have h4 := hlane 4; have h5 := hlane 5; have h6 := hlane 6; have h7 := hlane 7
  have l0 := hlt 0; have l1 := hlt 1; have l2 := hlt 2; have l3 := hlt 3
  have l4 := hlt 4; have l5 := hlt 5; have l6 := hlt 6; have l7 := hlt 7
  simp only [barWord, toNat_append_eq_add, Field.modulus] at h ⊢
  omega

theorem barWord_f31_lt {x : Word} (h : x.toNat < Field.f31.modulus) :
    (barWord .f31 x).toNat < Field.f31.modulus := by
  have hlane := fun k => barLane8_ends (lane8 x k)
  have hlt := fun k => (barLane (lane8 x k)).isLt
  have h3 := barLane7_ends (lane7 x)
  have l3 := (barLane (lane7 x)).isLt
  simp only [lane8_toNat] at hlane
  rw [lane7_toNat] at h3
  have h0 := hlane 0; have h1 := hlane 1; have h2 := hlane 2
  have l0 := hlt 0; have l1 := hlt 1; have l2 := hlt 2
  simp only [barWord, toNat_append_eq_add, Field.modulus, BitVec.toNat_ofNat] at h ⊢
  omega

theorem barWord_lt {f : Field} {x : Word} (h : x.toNat < f.modulus) :
    (barWord f x).toNat < f.modulus := by
  cases f with
  | f64 => exact barWord_f64_lt h
  | f31 => exact barWord_f31_lt h

/-- A field of a field is a field of the whole word. -/
theorem extractLsb'_extractLsb' {w : Nat} (x : BitVec w) {a b m n : Nat} (h : b + m ≤ n) :
    (x.extractLsb' a n).extractLsb' b m = x.extractLsb' (a + b) m := by
  ext i hi
  simp only [BitVec.getElem_extractLsb', BitVec.getLsbD_extractLsb']
  simp [show b + i < n by omega, Nat.add_assoc]

theorem lut16_eq (x : Word) (k : Nat) :
    lut16 (x.extractLsb' (8 * k) 16) = barLane (lane8 x (k + 1)) ++ barLane (lane8 x k) := by
  rw [lut16, extractLsb'_extractLsb' x (by decide), extractLsb'_extractLsb' x (by decide)]
  rfl

theorem lut15_eq (x : Word) :
    lut15 (x.extractLsb' 16 15) = barLane (lane7 x) ++ barLane (lane8 x 2) := by
  rw [lut15, extractLsb'_extractLsb' x (by decide), extractLsb'_extractLsb' x (by decide)]
  rfl

/-- The lookup tables give the word of the bit-trick implementation (R222). -/
theorem barWordLut_eq_barWord (f : Field) (x : Word) : barWordLut f x = barWord f x := by
  have h0 : lut16 (x.extractLsb' 0 16) = barLane (lane8 x 1) ++ barLane (lane8 x 0) := lut16_eq x 0
  have h2 : lut16 (x.extractLsb' 16 16) = barLane (lane8 x 3) ++ barLane (lane8 x 2) := lut16_eq x 2
  have h4 : lut16 (x.extractLsb' 32 16) = barLane (lane8 x 5) ++ barLane (lane8 x 4) := lut16_eq x 4
  have h6 : lut16 (x.extractLsb' 48 16) = barLane (lane8 x 7) ++ barLane (lane8 x 6) := lut16_eq x 6
  apply BitVec.eq_of_toNat_eq
  cases f with
  | f64 =>
    simp only [barWordLut, barWord, h0, h2, h4, h6, toNat_append_eq_add]
    omega
  | f31 =>
    simp only [barWordLut, barWord, h0, lut15_eq, toNat_append_eq_add]
    omega

theorem bars_below {s : State} {v : List Nat} {wordMap : Field → Word → Word}
    (hmap : ∀ f x, x.toNat < f.modulus → (wordMap f x).toNat < f.modulus) (hv : WordsBelow s.p v) :
    WordsBelow s.p (bars s wordMap v) :=
  wordsBelow_tabulate fun i => by
    have hword : wordAt v i < s.p := hv.wordAt_lt i
    split
    · refine hmap s.field _ ?_
      rw [BitVec.toNat_ofNat, Nat.mod_eq_of_lt (hword.trans (p_lt s))]
      exact hword
    · exact hword

/-! ### Rounds keep a vector canonical -/

section Rounds

variable {s : State} {v w : List Nat} {r : Nat}

theorem poseidonRound_below (s : State) (r : Nat) (v : List Nat) :
    WordsBelow s.p (poseidonRound s r v) := by
  simp only [poseidonRound]
  split
  · exact lin_below s _
  · split
    · exact cheap_below s _
    · exact dense_below s _ _

theorem rescueRound_below (h : rescueRound s r v = .ok w) : WordsBelow s.p w := by
  unfold rescueRound at h
  split at h <;> cases h
  exact addRc_below s _ _

theorem rcRound_below (h : rcRound s r v = .ok w) : WordsBelow s.p w := by
  unfold rcRound at h
  split at h
  · split at h <;> cases h
    exact affine_below s r _
  · cases h
    exact affine_below s r _

theorem round_below (hv : WordsBelow s.p v) (h : round s r v = .ok w) : WordsBelow s.p w := by
  unfold round at h
  split at h
  · cases h
    exact poseidonRound_below s r v
  · exact rescueRound_below h
  · cases h
    exact feistelStep_below hv r _
  · cases h
    exact addRc_below s r _
  · exact rcRound_below h
  · cases h

theorem runRounds_below {n : Nat} (hv : WordsBelow s.p v) (h : runRounds s n r v = .ok w) :
    WordsBelow s.p w := by
  induction n generalizing r v with
  | zero =>
    cases h
    exact hv
  | succ n ih =>
    rw [runRounds] at h
    split at h
    · cases h
    · rename_i u hu
      exact ih (round_below hv hu) h

end Rounds

/-! ### No round raises NotFound (R290) -/

theorem sboxInv_ne_notFound {s : State} {v : List Nat} : sboxInv s v ≠ .error .notFound :=
  fun h => by cases sboxInv_error h

theorem rcBars_ne_notFound {s : State} {v : List Nat} : rcBars s v ≠ .error .notFound :=
  fun h => by rcases rcBars_error h with h | h <;> cases h

theorem rescueRound_ne_notFound {s : State} {r : Nat} {v : List Nat} :
    rescueRound s r v ≠ .error .notFound := by
  intro h
  unfold rescueRound at h
  split at h <;> cases h
  exact sboxInv_ne_notFound ‹_›

theorem rcRound_ne_notFound {s : State} {r : Nat} {v : List Nat} :
    rcRound s r v ≠ .error .notFound := by
  intro h
  unfold rcRound at h
  split at h
  · split at h <;> cases h
    exact rcBars_ne_notFound ‹_›
  · cases h

theorem round_ne_notFound {s : State} {r : Nat} {v : List Nat} :
    round s r v ≠ .error .notFound := by
  intro h
  unfold round at h
  split at h
  · cases h
  · exact rescueRound_ne_notFound h
  · cases h
  · cases h
  · exact rcRound_ne_notFound h
  · cases h

theorem runRounds_ne_notFound {s : State} {n r : Nat} {v : List Nat} :
    runRounds s n r v ≠ .error .notFound := by
  induction n generalizing r v with
  | zero => intro h; cases h
  | succ n ih =>
    intro h
    rw [runRounds] at h
    split at h
    · rename_i e he
      cases h
      exact round_ne_notFound he
    · exact ih h

/-! ### What a command leaves

One inversion lemma for all 41 commands: a command that does not raise leaves one of the states `Leaves`
lists, and answers from it. -/

/-- `Leaves i s u`: the command `i`, run to its end from `s`, can leave `u`, the response not yet given.
A value written to a register carries that it is canonical when the registers read are. -/
inductive Leaves : Instr → State → State → Prop where
  | same {i s} : Leaves i s s
  | register {i s rd v} (writes : writesRegs i = true) (single : writesVector i = false)
      (below : (∀ r, s.elem r < s.p) → v < s.p) : Leaves i s (s.setElem rd v)
  | digit {s rd} : Leaves (.wrd rd) s (s.setDigit rd s.din)
  | digits {s ra ds} : Leaves (.decomp ra) s (s.setDigits ds)
  | word {s addr region} (opened : s.csr.lock ≠ 1#1) (lies : regionOf addr.toNat = some region)
      (fits : wordCheck s.p region s.din = none) : Leaves (.wrp addr) s (s.setWord addr.toNat s.din)
  | csrs {s n c} (opened : s.csr.lock ≠ 1#1) (written : writeCsr s.csr n s.din = some c) :
      Leaves (.csrw n) s (s.setCsr c)
  | cleared {s f} : Leaves (.field f) s (s.cleared f)
  | sealing {s} (opened : s.csr.lock ≠ 1#1) (checked : sealOk s = true) :
      Leaves .sealUnit s (s.setPhase 1#1)
  | unsealing {s} : Leaves .unsealUnit s (s.setPhase 0#1)
  | flagsCleared {s} : Leaves .clrerr s (s.setErrFlags 0#9)
  | vector {i s v} (writes : writesVector i = true) (length : v.length = s.vec.length)
      (below : WordsBelow s.p s.vec → WordsBelow s.p v) : Leaves i s (s.setVec v)
  | started {s} (locked : Sealed s) : Leaves .pstart s (s.setSequencer 1#2 0#9)
  | stepped {s v} (locked : Sealed s) (inRound : InRound s) (length : v.length = s.vec.length)
      (below : WordsBelow s.p s.vec → WordsBelow s.p v) : Leaves .pstep s (s.advanceRound.setVec v)
  | permuted {s v} (locked : Sealed s) (length : v.length = s.vec.length)
      (below : WordsBelow s.p s.vec → WordsBelow s.p v) :
      Leaves .perm s ((s.setSequencer 2#2 (BitVec.ofNat 9 s.rounds)).setVec v)
  | idle {s} : Leaves .preset s (s.setSequencer 0#2 0#9)

/-- How a command ends: it raises an error, never NotFound (R290), or answers from a state it leaves. -/
def Ends (i : Instr) (s t : State) : Prop :=
  (∃ e, e ≠ Err.notFound ∧ t = s.raise e) ∨ ∃ u d, Leaves i s u ∧ t = u.answer d

theorem sealed_of_lock_ne {s : State} (h : s.csr.lock ≠ 0#1) : Sealed s :=
  (lock_cases s).resolve_left h

/-! #### No check raises NotFound -/

@[simp] theorem needsSealed_ne_notFound (s : State) : needsSealed s ≠ some .notFound := by
  simp [needsSealed]

@[simp] theorem needsUnsealed_ne_notFound (s : State) : needsUnsealed s ≠ some .notFound := by
  simp [needsUnsealed]

@[simp] theorem needsNotInRound_ne_notFound (s : State) : needsNotInRound s ≠ some .notFound := by
  simp [needsNotInRound]

@[simp] theorem failIf_ne_some {b : Bool} {e f : Err} (h : e ≠ f) : failIf b e ≠ some f := by
  cases b <;> simp [h]

@[simp] theorem wordCheck_ne_notFound (p : Nat) (region : Region) (v : Word) :
    wordCheck p region v ≠ some .notFound := by
  cases region <;> simp [wordCheck]

/-! #### The frame of a command, by the kind of its effect -/

section Kinds

variable {i : Instr} {s : State} {cs : List (Option Err)}

theorem command_ends {effect : Except Err (State × Word)} (hcs : ∀ c ∈ cs, c ≠ some .notFound)
    (herr : effect ≠ .error .notFound)
    (hok : (∀ c ∈ cs, c = none) → ∀ u d, effect = .ok (u, d) → Leaves i s u) :
    ∃ t, command s cs effect = .next t ∧ Ends i s t := by
  obtain ⟨e, he, h⟩ | ⟨u, d, hnone, hu, h⟩ := command_cases s cs effect
  · refine ⟨_, h, .inl ⟨e, ?_, rfl⟩⟩
    rintro rfl
    obtain hc | ⟨-, hc⟩ := he
    · exact hcs _ (firstFailure_mem hc) rfl
    · exact herr hc
  · exact ⟨_, h, .inr ⟨u, d, hok (firstFailure_eq_none.mp hnone) u d hu, rfl⟩⟩

/-- A command whose effect always has a value. -/
theorem done_ends {u : State} {d : Word} (hcs : ∀ c ∈ cs, c ≠ some .notFound)
    (hu : (∀ c ∈ cs, c = none) → Leaves i s u) :
    ∃ t, command s cs (.ok (u, d)) = .next t ∧ Ends i s t :=
  command_ends hcs nofun fun hnone _ _ h => by
    cases h
    exact hu hnone

/-- A command without checks. -/
theorem unchecked_ends {u : State} {d : Word} (hu : Leaves i s u) :
    ∃ t, command s [] (.ok (u, d)) = .next t ∧ Ends i s t :=
  done_ends nofun fun _ => hu

/-- A field command (R150). -/
theorem fieldCommand_ends {rd : RegNum} {v : Nat} (hw : writesRegs i = true)
    (hs : writesVector i = false) (hv : v < s.p) :
    ∃ t, fieldCommand s rd v = .next t ∧ Ends i s t :=
  done_ends (by simp) fun _ => .register hw hs fun _ => hv

/-- A layer or round command (R202, R210). -/
theorem vectorCommand_ends {result : Except Err (List Nat)} (hw : writesVector i = true)
    (herr : result ≠ .error .notFound) (hlen : ∀ v, result = .ok v → v.length = s.vec.length)
    (hbelow : ∀ v, result = .ok v → WordsBelow s.p s.vec → WordsBelow s.p v) :
    ∃ t, vectorCommand s result = .next t ∧ Ends i s t := by
  refine command_ends (by simp) ?_ fun _ u d h => ?_
  · cases result with
    | error e => exact fun h => herr (by cases h; rfl)
    | ok v => exact nofun
  · cases result with
    | error e => cases h
    | ok v =>
      cases h
      exact .vector hw (hlen v rfl) (hbelow v rfl)

/-- A layer or round command whose function always has a value. -/
theorem vectorCommand_ok_ends {v : List Nat} (hw : writesVector i = true)
    (hlen : v.length = s.vec.length) (hbelow : WordsBelow s.p s.vec → WordsBelow s.p v) :
    ∃ t, vectorCommand s (.ok v) = .next t ∧ Ends i s t :=
  vectorCommand_ends hw nofun (fun _ h => by cases h; exact hlen) fun _ h => by cases h; exact hbelow

end Kinds

/-! #### The commands with checks or effects of their own -/

theorem execWrs_ends (rd : RegNum) (s : State) : ∃ t, execWrs rd s = .next t ∧ Ends (.wrs rd) s t :=
  done_ends (by simp) fun hnone => .register rfl rfl fun _ => by
    simpa [failIf_eq_none] using hnone (failIf (s.p ≤ s.din.toNat) .notInField) (by simp)

theorem execComp_ends (rd : RegNum) (s : State) :
    ∃ t, execComp rd s = .next t ∧ Ends (.comp rd) s t :=
  done_ends (by simp [needsUsableRadix]) fun hnone => .register rfl rfl fun _ => by
    simpa [failIf_eq_none] using
      hnone (failIf (s.p ≤ compose s.radices (s.digits s.numRadix)) .notInField) (by simp)

theorem execWrp_ends (addr : PAddr) (s : State) :
    ∃ t, execWrp addr s = .next t ∧ Ends (.wrp addr) s t := by
  refine done_ends ?_ fun hnone => ?_
  · cases regionOf addr.toNat <;> simp
  · obtain ⟨hopen, hregion, hfits⟩ :
        needsUnsealed s = none ∧ failIf (regionOf addr.toNat).isNone .badAddress = none ∧
          ((regionOf addr.toNat).bind fun region => wordCheck s.p region s.din) = none := by
      simpa using hnone
    cases hr : regionOf addr.toNat with
    | none => simp [hr] at hregion
    | some region =>
      rw [hr] at hfits
      exact .word (needsUnsealed_eq_none.mp hopen) hr hfits

theorem execCsrw_ends (n : CsrNum) (s : State) :
    ∃ t, execCsrw n s = .next t ∧ Ends (.csrw n) s t := by
  refine command_ends (by simp) ?_ fun hnone u d h => ?_
  · split <;> exact nofun
  · have hopen := needsUnsealed_eq_none.mp (hnone (needsUnsealed s) (by simp))
    split at h <;> cases h
    exact .csrs hopen ‹_›

theorem execCsrr_ends (n : CsrNum) (s : State) :
    ∃ t, execCsrr n s = .next t ∧ Ends (.csrr n) s t := by
  refine command_ends (by simp) ?_ fun _ u d h => ?_
  · split <;> exact nofun
  · split at h <;> cases h
    exact .same

theorem execSealUnit_ends (s : State) : ∃ t, execSealUnit s = .next t ∧ Ends .sealUnit s t :=
  done_ends (by simp) fun hnone =>
    .sealing (needsUnsealed_eq_none.mp (hnone (needsUnsealed s) (by simp)))
      (by simpa [failIf_eq_none] using hnone (failIf (!sealOk s) .invalidConfiguration) (by simp))

theorem execPstart_ends (s : State) : ∃ t, execPstart s = .next t ∧ Ends .pstart s t :=
  done_ends (by simp) fun hnone =>
    .started (sealed_of_lock_ne (needsSealed_eq_none.mp (hnone (needsSealed s) (by simp))))

theorem execPstep_ends (s : State) : ∃ t, execPstep s = .next t ∧ Ends .pstep s t := by
  refine command_ends (by simp) ?_ fun hnone u d h => ?_
  · split
    · rename_i e he
      exact fun h => round_ne_notFound (by cases h; exact he)
    · exact nofun
  · obtain ⟨hseal, hround⟩ :
        needsSealed s = none ∧ failIf (s.csr.pstate != 1#2) .badSequence = none := by
      simpa using hnone
    split at h <;> cases h
    rename_i v hv
    exact .stepped (sealed_of_lock_ne (needsSealed_eq_none.mp hseal))
      (by simpa [failIf_eq_none] using hround) (round_length hv) fun hb => round_below hb hv

theorem execPerm_ends (s : State) : ∃ t, execPerm s = .next t ∧ Ends .perm s t := by
  refine command_ends (by simp) ?_ fun hnone u d h => ?_
  · split
    · rename_i e he
      exact fun h => runRounds_ne_notFound (by cases h; exact he)
    · exact nofun
  · have hseal := needsSealed_eq_none.mp (hnone (needsSealed s) (by simp))
    split at h <;> cases h
    rename_i v hv
    exact .permuted (sealed_of_lock_ne hseal) (runRounds_length hv) fun hb => runRounds_below hb hv

/-- Every command answers once, and ends in one of the states listed. -/
theorem exec_ends (i : Instr) (s : State) : ∃ t, exec i s = .next t ∧ Ends i s t := by
  cases i with
  | nop => exact unchecked_ends .same
  | wrs rd => exact execWrs_ends rd s
  | rds ra => exact unchecked_ends .same
  | mov rd ra => exact done_ends (by simp) fun _ => .register rfl rfl fun h => h ra
  | wrd rd => exact unchecked_ends .digit
  | rdd ra => exact unchecked_ends .same
  | wrp addr => exact execWrp_ends addr s
  | rdp addr => exact done_ends (by simp) fun _ => .same
  | csrw n => exact execCsrw_ends n s
  | csrr n => exact execCsrr_ends n s
  | gett => exact unchecked_ends .same
  | field f => exact unchecked_ends .cleared
  | sealUnit => exact execSealUnit_ends s
  | unsealUnit => exact unchecked_ends .unsealing
  | clrerr => exact unchecked_ends .flagsCleared
  | fadd rd ra rb => exact fieldCommand_ends rfl rfl (addMod_lt (p_pos s) _ _)
  | fsub rd ra rb => exact fieldCommand_ends rfl rfl (subMod_lt (p_pos s) _ _)
  | fmul rd ra rb => exact fieldCommand_ends rfl rfl (mulMod_lt (p_pos s) _ _)
  | fsqr rd ra => exact fieldCommand_ends rfl rfl (mulMod_lt (p_pos s) _ _)
  | fdbl rd ra => exact fieldCommand_ends rfl rfl (mulMod_lt (p_pos s) _ _)
  | fneg rd ra => exact fieldCommand_ends rfl rfl (negMod_lt (p_pos s) _)
  | finv rd ra =>
    exact done_ends (by simp) fun _ => .register rfl rfl fun _ => powMod_lt (one_lt_p s) _ _
  | fpow rd ra => exact fieldCommand_ends rfl rfl (powMod_lt (one_lt_p s) _ _)
  | decomp ra => exact done_ends (by simp [needsUsableRadix]) fun _ => .digits
  | comp rd => exact execComp_ends rd s
  | mdsd bank => exact vectorCommand_ok_ends rfl (tabulate_length _ _) fun _ => dense_below s bank _
  | mdsc => exact vectorCommand_ok_ends rfl (tabulate_length _ _) fun _ => circ_below s _
  | mdsch => exact vectorCommand_ok_ends rfl (tabulate_length _ _) fun _ => cheap_below s _
  | affine row => exact vectorCommand_ok_ends rfl (tabulate_length _ _) fun _ => affine_below s _ _
  | arc row => exact vectorCommand_ok_ends rfl (tabulate_length _ _) fun _ => addRc_below s _ _
  | sboxf => exact vectorCommand_ok_ends rfl (tabulate_length _ _) fun _ => sboxFull_below s _
  | sbox0 => exact vectorCommand_ok_ends rfl (tabulate_length _ _) sboxWord0_below
  | sboxi =>
    exact vectorCommand_ends rfl sboxInv_ne_notFound (fun _ h => sboxInv_length h)
      fun _ h _ => sboxInv_below h
  | bricks => exact vectorCommand_ok_ends rfl (tabulate_length _ _) bricks_below
  | bars impl =>
    refine vectorCommand_ok_ends rfl (tabulate_length _ _) (bars_below fun f x hx => ?_)
    split
    · exact barWord_lt hx
    · rw [barWordLut_eq_barWord]
      exact barWord_lt hx
  | rcbars =>
    exact vectorCommand_ends rfl rcBars_ne_notFound (fun _ h => rcBars_length h)
      fun _ h _ => rcBars_below h
  | feis rot row =>
    exact vectorCommand_ok_ends rfl (feistelStep_length s _ _ _) fun h => feistelStep_below h _ _
  | pstart => exact execPstart_ends s
  | pstep => exact execPstep_ends s
  | perm => exact execPerm_ends s
  | preset => exact unchecked_ends .idle

theorem ends_of_exec {i : Instr} {s t : State} (h : exec i s = .next t) : Ends i s t := by
  obtain ⟨t', h', ht⟩ := exec_ends i s
  cases h.symm.trans h'
  exact ht

/-! ### What a command leaves unchanged (R23, R24, R25, R240) -/

theorem writesRegs_of_writesVector {i : Instr} (h : writesVector i = true) : writesRegs i = true := by
  cases i with
  | mdsd | mdsc | mdsch | affine | arc | sboxf | sbox0 | sboxi | bricks | bars | rcbars | feis | pstep
  | perm => rfl
  | _ => cases h

/-- `CSRW` reaches none of the read-only CSRs (R29, R129). -/
theorem writeCsr_readOnly {c c' : Csrs} {n : CsrNum} {v : Word} (h : writeCsr c n v = some c') :
    c'.fsel = c.fsel ∧ c'.lock = c.lock ∧ c'.pstate = c.pstate ∧ c'.rnd = c.rnd ∧
      c'.errflags = c.errflags := by
  unfold writeCsr at h
  split at h <;> cases h <;> exact ⟨rfl, rfl, rfl, rfl, rfl⟩

/-- Writing a vector of the unit's width leaves the scratch registers. -/
theorem setVec_sameScratch {s : State} {v : List Nat} (h : v.length = s.vec.length) :
    SameScratch s (s.setVec v) := by
  intro r hr
  rw [elem_setVec, if_neg]
  rw [h, vec_length]
  omega

namespace Leaves

variable {i : Instr} {s u : State}

theorem sameRegs (h : Leaves i s u) (hi : writesRegs i = false) : SameRegs s u := by
  cases h with
  | register writes => simp [hi] at writes
  | vector writes => simp [writesRegs_of_writesVector writes] at hi
  | cleared | stepped | permuted => cases hi
  | same | digit | digits | word | csrs | sealing | unsealing | flagsCleared | started | idle =>
    exact fun _ => rfl

theorem sameScratch (h : Leaves i s u) (hi : writesVector i = true) : SameScratch s u := by
  cases h with
  | register _ single => simp [hi] at single
  | vector _ length => exact setVec_sameScratch length
  | stepped _ _ length => exact setVec_sameScratch (s := s.advanceRound) length
  | permuted _ length => exact setVec_sameScratch (s := s.setSequencer _ _) length
  | same => exact fun _ _ => rfl
  | digit | digits | word | csrs | cleared | sealing | unsealing | flagsCleared | started | idle =>
    cases hi

theorem sameDigits (h : Leaves i s u) (hi : writesDigits i = false) : SameDigits s u := by
  cases h with
  | digit | digits | cleared => cases hi
  | same | register | word | csrs | sealing | unsealing | flagsCleared | vector | started | stepped
  | permuted | idle => exact fun _ => rfl

theorem sameSequencer (h : Leaves i s u) (hi : changesSequencer i = false) :
    u.csr.pstate = s.csr.pstate ∧ u.csr.rnd = s.csr.rnd := by
  cases h with
  | csrs _ written =>
    obtain ⟨-, -, hpstate, hrnd, -⟩ := writeCsr_readOnly written
    exact ⟨hpstate, hrnd⟩
  | cleared | sealing | unsealing | started | stepped | permuted | idle => cases hi
  | same | register | digit | digits | word | flagsCleared | vector => exact ⟨rfl, rfl⟩

/-- In the sealed phase only `FIELD` and `UNSEAL` reach a parameter word or the configuration (R40, R73). -/
theorem sealedFrame (h : Leaves i s u) (hs : Sealed s) (hu : i ≠ .unsealUnit)
    (hf : ∀ f, i ≠ .field f) :
    SameMemory s u ∧
      u.csr = { s.csr with pstate := u.csr.pstate, rnd := u.csr.rnd, errflags := u.csr.errflags } := by
  cases h with
  | word opened => exact absurd hs opened
  | csrs opened => exact absurd hs opened
  | sealing opened => exact absurd hs opened
  | cleared => exact absurd rfl (hf _)
  | unsealing => exact absurd rfl hu
  | same | register | digit | digits | flagsCleared | vector | started | stepped | permuted | idle =>
    exact ⟨fun _ => rfl, rfl⟩

end Leaves

/-- Settles O11, by the frame of each state a command can leave. -/
theorem onlyNamedCommandsWrite : Obligations.OnlyNamedCommandsWrite := by
  intro i s t h
  obtain ⟨e, -, rfl⟩ | ⟨u, d, hu, rfl⟩ := ends_of_exec h
  · exact ⟨fun _ _ => rfl, fun _ _ _ => rfl, fun _ _ => rfl, fun _ => ⟨rfl, rfl⟩⟩
  · exact ⟨hu.sameRegs, hu.sameScratch, hu.sameDigits, hu.sameSequencer⟩

/-- Settles O10, by the frame of the sealed phase. -/
theorem sealedParametersAreImmutable : Obligations.SealedParametersAreImmutable := by
  intro i s t hs hunseal hfield h
  obtain ⟨e, -, rfl⟩ | ⟨u, d, hu, rfl⟩ := ends_of_exec h
  · exact ⟨fun _ => rfl, rfl⟩
  · exact hu.sealedFrame hs hunseal hfield

/-! ### The step and the state after reset -/

/-- Settles O5: `State.takeCommand` is the port's bookkeeping. -/
theorem stepRunsDecodedCommand : Obligations.StepRunsDecodedCommand :=
  fun _ _ _ _ _ hinput hdecode => step_run hinput hdecode

/-- A cleared register file reads 0. -/
theorem elem_of_zeroed {s : State} (h : s.sreg = Vector.replicate 32 0#64) (r : RegNum) :
    s.elem r = 0 := by
  simp [State.elem, h]

/-- An empty memory reads 0 at every address (R47, R68). -/
theorem word_of_empty {s : State} (h : s.pm = []) (a : Nat) : s.word a = 0#64 := by
  rw [State.word, h]
  rfl

/-- Settles O14: the register files and the memory in general, the CSRs one by one. -/
theorem resetStateIsAllZero : Obligations.ResetStateIsAllZero := by
  refine ⟨elem_of_zeroed rfl, fun r => ?_, by decide, word_of_empty rfl, by decide, by decide, rfl⟩
  simp [State.digit, State.reset]

/-! ### Reading the unit out (R45, R326) -/

theorem exec_rds (ra : RegNum) (s : State) :
    exec (.rds ra) s = .next (s.answer (BitVec.ofNat 64 (s.elem ra))) := rfl

theorem exec_rdd (ra : RegNum) (s : State) : exec (.rdd ra) s = .next (s.answer (s.digit ra)) := rfl

/-- `RDP` answers every word that lies in a region (R128). -/
theorem exec_rdp {addr : PAddr} {region : Region} (h : regionOf addr.toNat = some region)
    (s : State) : exec (.rdp addr) s = .next (s.answer (s.word addr.toNat)) :=
  command_ok _ _ (by simp [h])

/-- `CSRR` answers every CSR (R130). -/
theorem exec_csrr {n : CsrNum} {v : Word} {s : State} (hn : isCsr n = true)
    (h : readCsr s.csr n = some v) : exec (.csrr n) s = .next (s.answer v) := by
  rw [show exec (.csrr n) s = execCsrr n s from rfl, execCsrr, h]
  exact command_ok _ _ (by simp [hn])

theorem getLast?_answer (s : State) (d : Word) :
    (s.answer d).responses.getLast? = some ⟨okCode, d⟩ :=
  List.getLast?_concat ..

theorem setWidth_64_inj {w : Nat} (hw : w ≤ 64) {x y : BitVec w}
    (h : x.setWidth 64 = y.setWidth 64) : x = y := by
  have hx := congrArg (BitVec.setWidth w) h
  rwa [BitVec.setWidth_setWidth_of_le _ hw, BitVec.setWidth_setWidth_of_le _ hw,
    BitVec.setWidth_eq, BitVec.setWidth_eq] at hx

/-- The sixteen CSR numbers show every bit of the CSRs. -/
theorem csrs_ext {c c' : Csrs}
    (h : ∀ n v v', isCsr n = true → readCsr c n = some v → readCsr c' n = some v' → v = v') :
    c = c' := by
  cases c
  cases c'
  congr 1
  · exact setWidth_64_inj (by decide) (h 0x00 _ _ rfl rfl rfl)
  · exact setWidth_64_inj (by decide) (h 0x01 _ _ rfl rfl rfl)
  · exact setWidth_64_inj (by decide) (h 0x02 _ _ rfl rfl rfl)
  · exact setWidth_64_inj (by decide) (h 0x03 _ _ rfl rfl rfl)
  · exact setWidth_64_inj (by decide) (h 0x04 _ _ rfl rfl rfl)
  · exact setWidth_64_inj (by decide) (h 0x05 _ _ rfl rfl rfl)
  · exact setWidth_64_inj (by decide) (h 0x06 _ _ rfl rfl rfl)
  · exact setWidth_64_inj (by decide) (h 0x07 _ _ rfl rfl rfl)
  · exact setWidth_64_inj (by decide) (h 0x08 _ _ rfl rfl rfl)
  · exact setWidth_64_inj (by decide) (h 0x09 _ _ rfl rfl rfl)
  · exact setWidth_64_inj (by decide) (h 0x0A _ _ rfl rfl rfl)
  · exact h 0x0B _ _ rfl rfl rfl
  · exact setWidth_64_inj (by decide) (h 0x10 _ _ rfl rfl rfl)
  · exact setWidth_64_inj (by decide) (h 0x11 _ _ rfl rfl rfl)
  · exact setWidth_64_inj (by decide) (h 0x12 _ _ rfl rfl rfl)
  · exact setWidth_64_inj (by decide) (h 0x13 _ _ rfl rfl rfl)

/-- The 32 register numbers show a whole register file. -/
theorem file_ext {f g : Vector Word 32} (h : ∀ r : RegNum, f[r.toNat]'r.isLt = g[r.toNat]'r.isLt) :
    f = g := by
  ext1 i hi
  simpa [Nat.mod_eq_of_lt hi] using h (BitVec.ofNat 5 i)

/-- Every region lies below `2^20`, so `RDP` names each of its words (R63, R93). -/
theorem lt_of_regionOf {a : Nat} {region : Region} (h : regionOf a = some region) : a < 2 ^ 20 := by
  obtain ⟨row, hrow, -⟩ := Option.map_eq_some_iff.mp h
  have hin := List.find?_some hrow
  have hmem := List.mem_of_find?_eq_some hrow
  have hend : ∀ row ∈ regionMap, row.2.1 + row.2.2 ≤ 2 ^ 20 := by decide
  have := hend row hmem
  simp only [Bool.and_eq_true, decide_eq_true_eq] at hin
  omega

/-- Every read command answers alike in both states. -/
def ReadsAlike (s t : State) : Prop :=
  ∀ (i : Instr) (s' t' : State), readsState i = true → exec i s = .next s' → exec i t = .next t' →
    s'.responses.getLast? = t'.responses.getLast?

namespace ReadsAlike

variable {s t : State}

theorem dout_eq (h : ReadsAlike s t) {i : Instr} (hi : readsState i = true) {d d' : Word}
    (hs : exec i s = .next (s.answer d)) (ht : exec i t = .next (t.answer d')) : d = d' := by
  have heq := h i _ _ hi hs ht
  rw [getLast?_answer, getLast?_answer] at heq
  cases heq
  rfl

theorem sreg_eq (h : ReadsAlike s t) : s.sreg = t.sreg :=
  file_ext fun r => by
    have heq := h.dout_eq rfl (exec_rds r s) (exec_rds r t)
    simpa only [State.elem, BitVec.ofNat_toNat, BitVec.setWidth_eq] using heq

theorem dg_eq (h : ReadsAlike s t) : s.dg = t.dg :=
  file_ext fun r => h.dout_eq rfl (exec_rdd r s) (exec_rdd r t)

theorem csr_eq (h : ReadsAlike s t) : s.csr = t.csr :=
  csrs_ext fun _ _ _ hn hv hv' => h.dout_eq rfl (exec_csrr hn hv) (exec_csrr hn hv')

/-- The words of the regions are read; the reserved addresses hold none. -/
theorem pm_eq (h : ReadsAlike s t) (hs : Inv s) (ht : Inv t) : s.pm = t.pm := by
  refine memory_ext hs.memory ht.memory fun a => ?_
  change s.word a = t.word a
  cases hr : regionOf a with
  | none => rw [hs.reserved a hr, ht.reserved a hr]
  | some region =>
    have ha : (BitVec.ofNat 20 a).toNat = a := Nat.mod_eq_of_lt (lt_of_regionOf hr)
    rw [← ha] at hr ⊢
    exact h.dout_eq rfl (exec_rdp hr s) (exec_rdp hr t)

end ReadsAlike

/-- Settles O16: each part of the unit is what its read command answers. -/
theorem stateIsFullyReadable : Obligations.StateIsFullyReadable := by
  intro s t hs ht h
  have halike : ReadsAlike s t := h
  simp only [State.unit, halike.sreg_eq, halike.dg_eq, halike.csr_eq, halike.pm_eq hs ht]

/-! ### The invariants (R43, R48), kept by each update of the state -/

/-- The words of the state vector are registers. -/
theorem vec_below {s : State} (h : ∀ r, s.elem r < s.p) : WordsBelow s.p s.vec := by
  intro x hx
  obtain ⟨w, hw, rfl⟩ := List.mem_map.mp hx
  obtain ⟨k, hk, rfl⟩ := List.getElem_of_mem (List.mem_of_mem_take hw)
  have hk32 : k < 32 := by simpa using hk
  simpa [State.elem, Nat.mod_eq_of_lt hk32] using h (BitVec.ofNat 5 k)

theorem wordInRegion_of_wordCheck {p : Nat} {region : Region} {v : Word}
    (h : wordCheck p region v = none) : wordInRegion p region v := by
  cases region with
  | radix =>
    simp only [wordCheck, ite_eq_right_iff, reduceCtorEq, imp_false, not_or] at h
    exact Nat.le_of_not_lt h.2
  | subst => simpa [wordCheck, wordInRegion] using h
  | rc | mat0 | mat1 | crow | what | v | mu => simpa [wordCheck, wordInRegion] using h

theorem wordInRegion_unlistedWord {p : Nat} (hp : 0 < p) (region : Region) :
    wordInRegion p region unlistedWord := by
  cases region with
  | radix | subst => exact Nat.zero_le _
  | rc | mat0 | mat1 | crow | what | v | mu => exact hp

/-- What a word reads as after a write. -/
theorem word_setWord {s : State} (h : Memory.wf s.pm = true) (a b : Nat) (v : Word) :
    (s.setWord a v).word b = if b = a then v else s.word b :=
  memRead_memWrite a b v h

/-- A sealed unit has between 1 and 256 rounds (R134 (e), (f)). -/
theorem rounds_of_sealOk {s : State} (h : sealOk s = true) : 1 ≤ s.rounds ∧ s.rounds ≤ 256 := by
  obtain ⟨-, -, -, -, hzero, hother, -⟩ := (sealOk_iff s).mp h
  have hrfb := s.csr.rfb.isLt
  unfold State.rounds
  split
  · rename_i hv
    exact hzero (by rw [hv]; rfl)
  · rename_i hv
    obtain ⟨-, -, hpos, -⟩ := hother fun h0 => hv ((eq_ofNat_iff _ 0 (by decide)).mpr h0)
    omega

/-- The flags that no error of a command sets (R43). -/
theorem stickyFlags_reserved {flags : BitVec 9} {e : Err} (he : e ≠ .notFound)
    (h : flags.getLsbD 0 = false ∧ flags.getLsbD 3 = false) :
    (stickyFlags flags e).getLsbD 0 = false ∧ (stickyFlags flags e).getLsbD 3 = false := by
  cases e with
  | notFound => exact absurd rfl he
  | notInField | noInverse | invalidConfiguration | illegalCommand | paramsSealed | badSequence
  | badAddress => simpa [stickyFlags, Err.code] using h

theorem zeroFlags_reserved : (0#9).getLsbD 0 = false ∧ (0#9).getLsbD 3 = false := by decide

namespace Inv

variable {s t : State}

/-- A state that differs in its registers, kept canonical, in its digit registers, its port and its error
flags only. -/
theorem of_registers (hs : Inv s) (hregs : ∀ r, t.elem r < s.p) (hpm : t.pm = s.pm)
    (hcsr : t.csr = { s.csr with errflags := t.csr.errflags })
    (hflags : t.csr.errflags.getLsbD 0 = false ∧ t.csr.errflags.getLsbD 3 = false) : Inv t := by
  obtain ⟨sreg, dg, csr, pm, input, din, responses⟩ := t
  dsimp only at hpm hcsr
  subst hpm
  rw [hcsr] at hregs hflags ⊢
  exact
    { registers := hregs
      parameters := hs.parameters
      construction := hs.construction
      sealedChecks := hs.sealedChecks
      notStarted := hs.notStarted
      inRound := hs.inRound
      finished := hs.finished
      sequencer := hs.sequencer
      flags := hflags
      memory := hs.memory
      reserved := hs.reserved }

theorem answer (hs : Inv s) (d : Word) : Inv (s.answer d) :=
  hs.of_registers hs.registers rfl rfl hs.flags

theorem raise (hs : Inv s) {e : Err} (he : e ≠ .notFound) : Inv (s.raise e) :=
  hs.of_registers hs.registers rfl rfl (stickyFlags_reserved he hs.flags)

theorem takeCommand (hs : Inv s) (d : Word) (rest : List HostEvent) : Inv (s.takeCommand d rest) :=
  hs.of_registers hs.registers rfl rfl hs.flags

theorem setErrFlags_zero (hs : Inv s) : Inv (s.setErrFlags 0#9) :=
  hs.of_registers hs.registers rfl rfl zeroFlags_reserved

theorem setDigit (hs : Inv s) (r : RegNum) (v : Word) : Inv (s.setDigit r v) :=
  hs.of_registers hs.registers rfl rfl hs.flags

theorem setDigits (hs : Inv s) (ds : List Nat) : Inv (s.setDigits ds) :=
  hs.of_registers hs.registers rfl rfl hs.flags

theorem setElem (hs : Inv s) (rd : RegNum) {v : Nat} (hv : v < s.p) : Inv (s.setElem rd v) := by
  refine hs.of_registers (fun r => ?_) rfl rfl hs.flags
  rw [elem_setElem]
  split
  · exact (Nat.mod_le _ _).trans_lt hv
  · exact hs.registers r

theorem setVec (hs : Inv s) {v : List Nat} (hv : WordsBelow s.p v) : Inv (s.setVec v) := by
  refine hs.of_registers (fun r => ?_) rfl rfl hs.flags
  rw [elem_setVec]
  split
  · exact (Nat.mod_le _ _).trans_lt (hv.getD_lt (p_pos s) _)
  · exact hs.registers r

/-- A word written in the construction phase, checked by its region (R64 to R66). -/
theorem setWord (hs : Inv s) (hopen : s.csr.lock ≠ 1#1) {a : Nat} {region : Region} {v : Word}
    (hregion : regionOf a = some region) (hfits : wordCheck s.p region v = none) :
    Inv (s.setWord a v) :=
  { registers := hs.registers
    parameters := fun b region' hb => by
      rw [word_setWord hs.memory]
      split
      · rename_i hba
        rw [hba, hregion] at hb
        cases hb
        exact wordInRegion_of_wordCheck hfits
      · exact hs.parameters b region' hb
    construction := hs.construction
    sealedChecks := fun hlock => absurd hlock hopen
    notStarted := hs.notStarted
    inRound := hs.inRound
    finished := hs.finished
    sequencer := hs.sequencer
    flags := hs.flags
    memory := memWrite_wf a v hs.memory
    reserved := fun b hb => by
      rw [word_setWord hs.memory, if_neg]
      · exact hs.reserved b hb
      · rintro rfl
        rw [hregion] at hb
        cases hb }

/-- In the construction phase the sequencer is NotStarted at round 0, so that a configuration may change. -/
theorem notStarted_of_open (hs : Inv s) (hopen : s.csr.lock ≠ 1#1) :
    s.csr.pstate = 0#2 ∧ s.csr.rnd = 0#9 :=
  hs.construction ((lock_cases s).resolve_right hopen)

/-- A state with the sequencer at rest: what is left to show of its control registers. -/
theorem of_notStarted (hregs : ∀ r, t.elem r < t.p)
    (hparams : ∀ a region, regionOf a = some region → wordInRegion t.p region (t.word a))
    (hsealed : t.csr.lock = 1#1 → sealOk t = true) (hpstate : t.csr.pstate = 0#2)
    (hrnd : t.csr.rnd = 0#9)
    (hflags : t.csr.errflags.getLsbD 0 = false ∧ t.csr.errflags.getLsbD 3 = false)
    (hmem : Memory.wf t.pm = true) (hreserved : ∀ a, regionOf a = none → t.word a = unlistedWord) :
    Inv t :=
  { registers := hregs
    parameters := hparams
    construction := fun _ => ⟨hpstate, hrnd⟩
    sealedChecks := hsealed
    notStarted := fun _ => hrnd
    inRound := fun h => by rw [hpstate] at h; cases h
    finished := fun h => by rw [hpstate] at h; cases h
    sequencer := by rw [hpstate]; decide
    flags := hflags
    memory := hmem
    reserved := hreserved }

theorem setCsr (hs : Inv s) (hopen : s.csr.lock ≠ 1#1) {n : CsrNum} {v : Word} {c : Csrs}
    (hwritten : writeCsr s.csr n v = some c) : Inv (s.setCsr c) := by
  obtain ⟨hfsel, hlock, hpstate, hrnd, hflags⟩ := writeCsr_readOnly hwritten
  obtain ⟨hpstate0, hrnd0⟩ := hs.notStarted_of_open hopen
  have hp : (s.setCsr c).p = s.p := congrArg (fun b => (Field.ofBit b).modulus) hfsel
  refine of_notStarted ?_ ?_ (fun h => absurd (hlock.symm.trans h) hopen) (hpstate.trans hpstate0)
    (hrnd.trans hrnd0) ?_ hs.memory hs.reserved
  · rw [hp]
    exact hs.registers
  · rw [hp]
    exact hs.parameters
  · rw [setCsr_csr, hflags]
    exact hs.flags

/-- `SEAL` and `UNSEAL`: the sequencer at rest, sealed only where the checks hold. -/
theorem setPhase (hs : Inv s) {l : BitVec 1} (hl : l = 1#1 → sealOk s = true) :
    Inv (s.setPhase l) :=
  of_notStarted hs.registers hs.parameters hl rfl rfl hs.flags hs.memory hs.reserved

/-- A unit of zeros, whatever its field. -/
theorem of_zeroed (hsreg : s.sreg = Vector.replicate 32 0#64) (hpm : s.pm = []) {f : BitVec 1}
    (hcsr : s.csr = { State.reset.csr with fsel := f }) : Inv s := by
  have hword := word_of_empty hpm
  refine of_notStarted (fun r => ?_) (fun a region _ => ?_) (by rw [hcsr]; exact nofun)
    (by rw [hcsr]; rfl) (by rw [hcsr]; rfl) (by rw [hcsr]; exact zeroFlags_reserved) (by rw [hpm]; rfl)
    fun a _ => hword a
  · rw [elem_of_zeroed hsreg]
    exact p_pos s
  · rw [hword]
    exact wordInRegion_unlistedWord (p_pos s) region

/-- The sequencer moved in the sealed phase (R48 (e)). -/
theorem setSequencer (hs : Inv s) (hlock : Sealed s) {x : BitVec 2} {n : BitVec 9}
    (h0 : x = 0#2 → n = 0#9) (h1 : x = 1#2 → n.toNat < s.rounds) (h2 : x = 2#2 → n.toNat = s.rounds)
    (h3 : x ≠ 3#2) : Inv (s.setSequencer x n) :=
  { registers := hs.registers
    parameters := hs.parameters
    construction := fun h => by
      have hopen : s.csr.lock = 0#1 := h
      rw [hlock] at hopen
      cases hopen
    sealedChecks := hs.sealedChecks
    notStarted := h0
    inRound := h1
    finished := h2
    sequencer := h3
    flags := hs.flags
    memory := hs.memory
    reserved := hs.reserved }

/-- `PRESET` (R250) puts the sequencer at rest in either phase. -/
theorem preset (hs : Inv s) : Inv (s.setSequencer 0#2 0#9) :=
  of_notStarted hs.registers hs.parameters hs.sealedChecks rfl rfl hs.flags hs.memory hs.reserved

theorem started (hs : Inv s) (hlock : Sealed s) : Inv (s.setSequencer 1#2 0#9) := by
  obtain ⟨hpos, -⟩ := rounds_of_sealOk (hs.sealedChecks hlock)
  exact hs.setSequencer hlock nofun (fun _ => hpos) nofun (by decide)

theorem finished_at_rounds (hs : Inv s) (hlock : Sealed s) :
    Inv (s.setSequencer 2#2 (BitVec.ofNat 9 s.rounds)) := by
  obtain ⟨-, hmax⟩ := rounds_of_sealOk (hs.sealedChecks hlock)
  refine hs.setSequencer hlock nofun nofun (fun _ => ?_) (by decide)
  rw [BitVec.toNat_ofNat, Nat.mod_eq_of_lt (by omega)]

/-- `RND` does not wrap, since it is below `R` and `R` is at most 256 (R248). -/
theorem advanceRound (hs : Inv s) (hlock : Sealed s) (hround : InRound s) : Inv s.advanceRound := by
  obtain ⟨-, hmax⟩ := rounds_of_sealOk (hs.sealedChecks hlock)
  have hlt := hs.inRound hround
  have hnext : (s.csr.rnd + 1#9).toNat = s.csr.rnd.toNat + 1 := by
    rw [BitVec.toNat_add, BitVec.toNat_ofNat]
    omega
  unfold State.advanceRound
  dsimp only
  split
  · rename_i hlast
    exact hs.setSequencer hlock nofun nofun (fun _ => hlast) (by decide)
  · rename_i hmore
    rw [hround]
    exact hs.setSequencer hlock nofun (fun _ => by omega) nofun (by decide)

end Inv

/-- Settles O13: the unit after reset is one of zeros. -/
theorem resetMeetsInvariants : Obligations.ResetMeetsInvariants :=
  Inv.of_zeroed (f := 0#1) rfl rfl rfl

/-- Whatever a command leaves meets the invariants. -/
theorem Leaves.inv {i : Instr} {s u : State} (h : Leaves i s u) (hs : Inv s) : Inv u := by
  have hvec := vec_below hs.registers
  cases h with
  | same => exact hs
  | register _ _ below => exact hs.setElem _ (below hs.registers)
  | digit => exact hs.setDigit _ _
  | digits => exact hs.setDigits _
  | word opened lies fits => exact hs.setWord opened lies fits
  | csrs opened written => exact hs.setCsr opened written
  | cleared => exact Inv.of_zeroed rfl rfl rfl
  | sealing _ checked => exact hs.setPhase fun _ => checked
  | unsealing => exact hs.setPhase nofun
  | flagsCleared => exact hs.setErrFlags_zero
  | vector _ _ below => exact hs.setVec (below hvec)
  | started locked => exact hs.started locked
  | stepped locked inRound _ below => exact (hs.advanceRound locked inRound).setVec (below hvec)
  | permuted locked _ below => exact (hs.finished_at_rounds locked).setVec (below hvec)
  | idle => exact hs.preset

/-- Every command keeps the invariants. -/
theorem exec_keeps_inv {i : Instr} {s t : State} (hs : Inv s) (h : exec i s = .next t) : Inv t := by
  obtain ⟨e, he, rfl⟩ | ⟨u, d, hu, rfl⟩ := ends_of_exec h
  · exact hs.raise he
  · exact (hu.inv hs).answer d

/-- Settles O12: an idle step keeps the state, a reset zeroes it, and a command keeps the invariants. -/
theorem stepKeepsInvariants : Obligations.StepKeepsInvariants := by
  intro s t hs h
  cases hinput : s.input with
  | nil =>
    rw [step_idle hinput] at h
    cases h
    exact hs
  | cons event rest =>
    cases event with
    | reset =>
      rw [step_reset hinput] at h
      cases h
      exact Inv.of_zeroed (f := 0#1) rfl rfl rfl
    | command cw din =>
      have hs' := hs.takeCommand din rest
      obtain ⟨i, hi⟩ | ⟨e, he⟩ := decode_cases cw
      · rw [step_run hinput hi] at h
        exact exec_keeps_inv hs' h
      · rw [step_illegal hinput he] at h
        cases h
        exact hs'.raise nofun

end Sys2Proof.Machine

/-! # Encoding: the decoder and the encoder, and the words that are illegal

The statements of the family of the encoding (R90 to R97). A word is its row's match under the mask and its
operand fields off it; both round trips rest on that. -/

namespace Sys2Proof

/-! ### The candidate of a word and its row -/

/-- A candidate is of the row with the word's opcode. -/
theorem opField_of_candidate {cw : Cmd} {i : Instr} (h : candidate cw = some i) :
    opField cw = opField i.row.pattern := by
  unfold candidate at h
  split at h <;> cases h <;> (dsimp only [Instr.row]; exact BitVec.eq_of_toNat_eq ‹_›)

/-- The candidate of a word with a row's opcode is a command of that row. -/
theorem map_row_candidate {cw : Cmd} {j : Instr} (h : opField cw = opField j.row.pattern) :
    (candidate cw).map Instr.row = some j.row := by
  cases j <;> (dsimp only [Instr.row] at h; rw [candidate, h]; rfl)

theorem exists_candidate {cw : Cmd} {j : Instr} (h : opField cw = opField j.row.pattern) :
    ∃ i, candidate cw = some i ∧ i.row = j.row :=
  Option.map_eq_some_iff.mp (map_row_candidate h)

/-- The opcode map of R95 as a list, a row for each command. -/
def opcodeMap : List OpRow :=
  [.nop, .wrs 0, .rds 0, .mov 0 0, .wrd 0, .rdd 0, .wrp 0, .rdp 0, .csrw 0, .csrr 0, .gett, .field 0,
    .sealUnit, .unsealUnit, .clrerr, .fadd 0 0 0, .fsub 0 0 0, .fmul 0 0 0, .fsqr 0 0, .fdbl 0 0,
    .fneg 0 0, .finv 0 0, .fpow 0 0, .decomp 0, .comp 0, .mdsd 0, .mdsc, .mdsch, .affine 0, .arc 0,
    .sboxf, .sbox0, .sboxi, .bricks, .bars 0, .rcbars, .feis 0 0, .pstart, .pstep, .perm,
    .preset].map Instr.row

/-- A command's mnemonic finds its row. -/
theorem find_mnemonic (i : Instr) :
    opcodeMap.find? (fun r => r.mnemonic == i.mnemonic) = some i.row := by
  cases i <;> rfl

theorem row_mnemonic (i : Instr) : i.row.mnemonic = i.mnemonic := by
  cases i <;> rfl

/-- The rows of the map have different mnemonics. -/
theorem row_eq_iff {i j : Instr} : i.row = j.row ↔ i.mnemonic = j.mnemonic := by
  constructor
  · intro h
    rw [← row_mnemonic, h, row_mnemonic]
  · intro h
    have hrow : some i.row = some j.row := by rw [← find_mnemonic, h, find_mnemonic]
    exact Option.some.inj hrow

/-! ### The encoded word decodes -/

/-- The encoded word spells its command's row (R95), for every command. -/
theorem encode_and_mask (i : Instr) : encode i &&& i.row.mask = i.row.pattern := by
  cases i with
  | nop => exact Laws.EncodingMatchesRow.nop
  | wrs rd => exact Laws.EncodingMatchesRow.wrs rd
  | rds ra => exact Laws.EncodingMatchesRow.rds ra
  | mov rd ra => exact Laws.EncodingMatchesRow.mov rd ra
  | wrd rd => exact Laws.EncodingMatchesRow.wrd rd
  | rdd ra => exact Laws.EncodingMatchesRow.rdd ra
  | wrp addr => exact Laws.EncodingMatchesRow.wrp addr
  | rdp addr => exact Laws.EncodingMatchesRow.rdp addr
  | csrw csr => exact Laws.EncodingMatchesRow.csrw csr
  | csrr csr => exact Laws.EncodingMatchesRow.csrr csr
  | gett => exact Laws.EncodingMatchesRow.gett
  | field f => exact Laws.EncodingMatchesRow.field f
  | sealUnit => exact Laws.EncodingMatchesRow.sealUnit
  | unsealUnit => exact Laws.EncodingMatchesRow.unsealUnit
  | clrerr => exact Laws.EncodingMatchesRow.clrerr
  | fadd rd ra rb => exact Laws.EncodingMatchesRow.fadd rd ra rb
  | fsub rd ra rb => exact Laws.EncodingMatchesRow.fsub rd ra rb
  | fmul rd ra rb => exact Laws.EncodingMatchesRow.fmul rd ra rb
  | fsqr rd ra => exact Laws.EncodingMatchesRow.fsqr rd ra
  | fdbl rd ra => exact Laws.EncodingMatchesRow.fdbl rd ra
  | fneg rd ra => exact Laws.EncodingMatchesRow.fneg rd ra
  | finv rd ra => exact Laws.EncodingMatchesRow.finv rd ra
  | fpow rd ra => exact Laws.EncodingMatchesRow.fpow rd ra
  | decomp ra => exact Laws.EncodingMatchesRow.decomp ra
  | comp rd => exact Laws.EncodingMatchesRow.comp rd
  | mdsd bank => exact Laws.EncodingMatchesRow.mdsd bank
  | mdsc => exact Laws.EncodingMatchesRow.mdsc
  | mdsch => exact Laws.EncodingMatchesRow.mdsch
  | affine row => exact Laws.EncodingMatchesRow.affine row
  | arc row => exact Laws.EncodingMatchesRow.arc row
  | sboxf => exact Laws.EncodingMatchesRow.sboxf
  | sbox0 => exact Laws.EncodingMatchesRow.sbox0
  | sboxi => exact Laws.EncodingMatchesRow.sboxi
  | bricks => exact Laws.EncodingMatchesRow.bricks
  | bars impl => exact Laws.EncodingMatchesRow.bars impl
  | rcbars => exact Laws.EncodingMatchesRow.rcbars
  | feis rot row => exact Laws.EncodingMatchesRow.feis rot row
  | pstart => exact Laws.EncodingMatchesRow.pstart
  | pstep => exact Laws.EncodingMatchesRow.pstep
  | perm => exact Laws.EncodingMatchesRow.perm
  | preset => exact Laws.EncodingMatchesRow.preset

/-- The opcode finds the command's row, and each field of its format reads back its operand. -/
theorem candidate_encode (i : Instr) : candidate (encode i) = some i := by
  cases i <;> simp [candidate, encode]

theorem decode_encode (i : Instr) : decode (encode i) = .ok i :=
  decode_eq_ok.mpr ⟨candidate_encode i, encode_and_mask i⟩

/-- Settles O1: the opcode finds the row, and the encoded word agrees with it under its mask. -/
theorem encodeThenDecode : Obligations.EncodeThenDecode := decode_encode

/-- Settles O4: each of the words is the encoding of its command. -/
theorem specWordsDecode : Obligations.SpecWordsDecode :=
  ⟨decode_encode (.wrs 3), decode_encode (.mov 1 2), decode_encode (.wrp 0x02800),
    decode_encode (.csrw 0x01), decode_encode (.field 1), decode_encode (.fadd 3 1 2),
    decode_encode (.decomp 1), decode_encode (.mdsd 1), decode_encode (.feis 1 3),
    decode_encode .perm⟩

/-! ### The decoded word is encoded

A field placed where it was read is the word under the field's bits (R92). -/

section Fields
variable (cw : Cmd)

theorem place_rdField : place (rdField cw) 19 = cw &&& 0x00F80000#32 := by
  unfold place rdField; ext i hi; interval_cases i <;> simp

theorem place_raField : place (raField cw) 14 = cw &&& 0x0007C000#32 := by
  unfold place raField; ext i hi; interval_cases i <;> simp

theorem place_rbField : place (rbField cw) 9 = cw &&& 0x00003E00#32 := by
  unfold place rbField; ext i hi; interval_cases i <;> simp

theorem place_addrField : place (addrField cw) 0 = cw &&& 0x000FFFFF#32 := by
  unfold place addrField; ext i hi; interval_cases i <;> simp

theorem place_csrField : place (csrField cw) 16 = cw &&& 0x00FF0000#32 := by
  unfold place csrField; ext i hi; interval_cases i <;> simp

theorem place_flagField : place (flagField cw) 23 = cw &&& 0x00800000#32 := by
  unfold place flagField; ext i hi; interval_cases i <;> simp

theorem place_rowField : place (rowField cw) 0 = cw &&& 0x000000FF#32 := by
  unfold place rowField; ext i hi; interval_cases i <;> simp

end Fields

/-- The encoding of a word's candidate: the row's match, and off the mask the word's own bits, since each field is
placed where it was read. -/
theorem encode_candidate {cw : Cmd} {i : Instr} (h : candidate cw = some i) :
    encode i = i.row.pattern ||| (cw &&& ~~~i.row.mask) := by
  unfold candidate at h
  split at h <;> cases h
  all_goals
    simp only [encode, encodeR, encodeM, encodeC, encodeL, encodeZ, place_rdField, place_raField,
      place_rbField, place_addrField, place_csrField, place_flagField, place_rowField, Instr.row,
      BitVec.or_assoc, ← BitVec.and_or_distrib_left]
    simp [place]

/-- Settles O2: under the row's mask the encoding and the word are both the row's match, and off the mask both
are the word's operand fields. -/
theorem decodeThenEncode : Obligations.DecodeThenEncode := by
  intro cw i h
  obtain ⟨hcandidate, hmatch⟩ := decode_eq_ok.mp h
  calc encode i = cw &&& i.row.mask ||| cw &&& ~~~i.row.mask := by
        rw [encode_candidate hcandidate, hmatch]
    _ = cw := by ext k hk; simp [← Bool.and_or_distrib_left]

/-! ### The words of a row -/

/-- Settles O3: a word that agrees with a row has the row's opcode, so its candidate is of that row. -/
theorem wordSpellsRowUnderMask : Obligations.WordSpellsRowUnderMask := by
  intro cw j
  constructor
  · intro h
    obtain ⟨i, hi, hrow⟩ := exists_candidate (opField_of_row h)
    exact ⟨i, decode_eq_ok.mpr ⟨hi, by rw [hrow]; exact h⟩, row_eq_iff.mp hrow⟩
  · rintro ⟨i, hi, hname⟩
    rw [← row_eq_iff.mpr hname]
    exact (decode_eq_ok.mp hi).2

end Sys2Proof

namespace Sys2Proof.Machine

/-! ### The illegal words (R96, R97) -/

/-- Only the opcodes that R96 (a) lists have no candidate. -/
theorem candidate_eq_none {cw : Cmd} :
    candidate cw = none ↔ reservedOpcode (opField cw) := by
  unfold candidate reservedOpcode
  generalize opField cw = op
  split
  case h_42 =>
    simp only [imp_false, true_iff, ← BitVec.toNat_inj, BitVec.le_def, BitVec.toNat_ofNat] at *
    omega
  all_goals
    simp only [reduceCtorEq, false_iff]
    bv_omega

/-- R96 (a) and (b) are the words that do not decode. -/
theorem decode_error_iff {cw : Cmd} :
    (∃ e, decode cw = .error e) ↔ reservedOpcode (opField cw) ∨
      ∃ j : Instr, opField j.row.pattern = opField cw ∧ cw &&& j.row.mask ≠ j.row.pattern := by
  constructor
  · rintro ⟨e, he⟩
    cases hc : candidate cw with
    | none => exact .inl (candidate_eq_none.mp hc)
    | some i =>
      refine .inr ⟨i, (opField_of_candidate hc).symm, fun hmatch => ?_⟩
      rw [decode_eq_ok.mpr ⟨hc, hmatch⟩] at he
      cases he
  · intro h
    obtain ⟨i, hi⟩ | herror := decode_cases cw
    · obtain ⟨hcandidate, hmatch⟩ := decode_eq_ok.mp hi
      obtain hreserved | ⟨j, hop, hj⟩ := h
      · rw [candidate_eq_none.mpr hreserved] at hcandidate
        cases hcandidate
      · obtain ⟨k, hk, hrow⟩ := exists_candidate hop.symm
        cases hcandidate.symm.trans hk
        rw [hrow] at hmatch
        exact absurd hmatch hj
    · exact herror

theorem candidate_csrw {cw : Cmd} (h : opField cw = 0x08#8) :
    candidate cw = some (.csrw (csrField cw)) := by
  rw [candidate, h]
  rfl

theorem candidate_csrr {cw : Cmd} (h : opField cw = 0x09#8) :
    candidate cw = some (.csrr (csrField cw)) := by
  rw [candidate, h]
  rfl

theorem isCsr_eq_false {n : CsrNum} :
    isCsr n = false ↔ (0x0C#8 ≤ n ∧ n ≤ 0x0F#8) ∨ 0x14#8 ≤ n := by
  simp only [isCsr, Bool.or_eq_false_iff, Bool.and_eq_false_iff, decide_eq_false_iff_not]
  bv_omega

/-- `CSRW` may not write a number that is no CSR, nor one of the five read-only CSRs (R29). -/
theorem isWritableCsr_eq_false {n : CsrNum} :
    isWritableCsr n = false ↔ isCsr n = false ∨
      (n = 0x00#8 ∨ n = 0x10#8 ∨ n = 0x11#8 ∨ n = 0x12#8 ∨ n = 0x13#8) := by
  rw [isCsr_eq_false]
  simp only [isWritableCsr, Bool.and_eq_false_iff, decide_eq_false_iff_not]
  bv_omega

/-- A decoded command that is not well formed is a `CSRW` or `CSRR` of R96 (c) or (d). -/
theorem wellFormed_eq_false_iff {cw : Cmd} {i : Instr} (h : candidate cw = some i) :
    i.wellFormed = false ↔
      ((opField cw = 0x08#8 ∨ opField cw = 0x09#8) ∧
        ((0x0C#8 ≤ csrField cw ∧ csrField cw ≤ 0x0F#8) ∨ 0x14#8 ≤ csrField cw)) ∨
      (opField cw = 0x08#8 ∧
        (csrField cw = 0x00#8 ∨ csrField cw = 0x10#8 ∨ csrField cw = 0x11#8 ∨
          csrField cw = 0x12#8 ∨ csrField cw = 0x13#8)) := by
  rw [← isCsr_eq_false]
  have hop := opField_of_candidate h
  constructor
  · intro hi
    cases i with
    | csrw n =>
      dsimp only [Instr.row] at hop
      cases h.symm.trans (candidate_csrw hop)
      obtain hn | hn := isWritableCsr_eq_false.mp hi
      · exact .inl ⟨.inl hop, hn⟩
      · exact .inr ⟨hop, hn⟩
    | csrr n =>
      dsimp only [Instr.row] at hop
      cases h.symm.trans (candidate_csrr hop)
      exact .inl ⟨.inr hop, hi⟩
    | _ => cases hi
  · rintro (⟨hop | hop, hn⟩ | ⟨hop, hn⟩)
    · cases h.symm.trans (candidate_csrw hop)
      exact isWritableCsr_eq_false.mpr (.inl hn)
    · cases h.symm.trans (candidate_csrr hop)
      exact hn
    · cases h.symm.trans (candidate_csrw hop)
      exact isWritableCsr_eq_false.mpr (.inr hn)

/-- The four cases of R96 are the words that do not spell a well-formed command. -/
theorem illegalWord_iff {cw : Cmd} : IllegalWord cw ↔ legalWord cw = false := by
  unfold IllegalWord legalWord
  rw [← or_assoc, ← decode_error_iff]
  cases hd : decode cw with
  | error e => simp
  | ok i => simp [← wellFormed_eq_false_iff (decode_eq_ok.mp hd).1]

theorem legalWord_eq_true {cw : Cmd} :
    legalWord cw = true ↔ ∃ i, decode cw = .ok i ∧ i.wellFormed = true := by
  unfold legalWord
  cases decode cw <;> simp

/-! ### What an illegal word does -/

/-- A command that is not well formed raises IllegalCommand before any other check (R294). -/
theorem exec_of_not_wellFormed {i : Instr} (h : i.wellFormed = false) (s : State) :
    exec i s = .next (s.raise .illegalCommand) := by
  cases i with
  | csrw n => exact command_raises _ (by simp [show isWritableCsr n = false from h])
  | csrr n => exact command_raises _ (by simp [show isCsr n = false from h])
  | _ => cases h

/-- A word that is not legal raises IllegalCommand, whether the decoder or the command finds it. -/
theorem step_of_not_legal {s : State} {cw : Cmd} {din : Word} {rest : List HostEvent}
    (hinput : s.input = .command cw din :: rest) (h : legalWord cw = false) :
    step s = .next ((s.takeCommand din rest).raise .illegalCommand) := by
  obtain ⟨i, hi⟩ | ⟨e, he⟩ := decode_cases cw
  · rw [step_run hinput hi]
    exact exec_of_not_wellFormed (by simpa [legalWord, hi] using h) _
  · exact step_illegal hinput he

/-! ### A well-formed command never raises IllegalCommand -/

theorem getLast?_raise (s : State) (e : Err) :
    (s.raise e).responses.getLast? = some ⟨e.code, 0#64⟩ :=
  List.getLast?_concat ..

theorem Err.code_injective : Function.Injective Err.code := by
  intro e f h
  cases e <;> cases f <;> cases h <;> rfl

/-- Different errors are different responses (R290). -/
theorem raise_inj {s : State} {e f : Err} (h : s.raise e = s.raise f) : e = f := by
  have hlast := getLast?_raise s e
  rw [h, getLast?_raise, Option.some.injEq, Response.mk.injEq] at hlast
  exact Err.code_injective hlast.1.symm

/-- No error's response is that of a command that ran to its end. -/
theorem answer_ne_raise (s t : State) (d : Word) (e : Err) : t.answer d ≠ s.raise e := by
  intro h
  have hlast := getLast?_answer t d
  rw [h, getLast?_raise] at hlast
  cases e <;> cases hlast

/-- A command raises no error but its checks' and its effect's. -/
theorem command_ne_raise {s : State} {cs : List (Option Err)} {effect : Except Err (State × Word)}
    {e : Err} (hcs : ∀ c ∈ cs, c ≠ some e) (heffect : effect ≠ .error e) :
    command s cs effect ≠ .next (s.raise e) := by
  intro h
  obtain ⟨f, hf, hraise⟩ | ⟨t, d, -, -, hanswer⟩ := command_cases s cs effect
  · cases raise_inj (Host.Outcome.next.inj (h.symm.trans hraise))
    obtain hcheck | ⟨-, herror⟩ := hf
    · exact hcs _ (firstFailure_mem hcheck) rfl
    · exact heffect herror
  · exact answer_ne_raise _ _ _ _ (Host.Outcome.next.inj (hanswer.symm.trans h))

/-! #### The checks and the rounds -/

@[simp] theorem needsSealed_ne_illegalCommand (s : State) : needsSealed s ≠ some .illegalCommand := by
  simp [needsSealed]

@[simp] theorem needsUnsealed_ne_illegalCommand (s : State) :
    needsUnsealed s ≠ some .illegalCommand := by
  simp [needsUnsealed]

@[simp] theorem needsNotInRound_ne_illegalCommand (s : State) :
    needsNotInRound s ≠ some .illegalCommand := by
  simp [needsNotInRound]

@[simp] theorem wordCheck_ne_illegalCommand (p : Nat) (region : Region) (v : Word) :
    wordCheck p region v ≠ some .illegalCommand := by
  cases region <;> simp [wordCheck]

theorem rescueRound_error {s : State} {r : Nat} {v : List Nat} {e : Err}
    (h : rescueRound s r v = .error e) : e = .invalidConfiguration := by
  unfold rescueRound at h
  split at h <;> cases h
  exact sboxInv_error ‹_›

theorem rcRound_error {s : State} {r : Nat} {v : List Nat} {e : Err}
    (h : rcRound s r v = .error e) : e = .invalidConfiguration ∨ e = .notInField := by
  unfold rcRound at h
  split at h
  · split at h <;> cases h
    exact rcBars_error ‹_›
  · cases h

/-- The errors of a round are those of its functions (R241). -/
theorem round_error {s : State} {r : Nat} {v : List Nat} {e : Err} (h : round s r v = .error e) :
    e = .invalidConfiguration ∨ e = .notInField := by
  unfold round at h
  split at h
  · cases h
  · exact .inl (rescueRound_error h)
  · cases h
  · cases h
  · exact rcRound_error h
  · cases h
    exact .inl rfl

/-- The errors of a run of rounds are those of a round (R249). -/
theorem runRounds_error {s : State} {n r : Nat} {v : List Nat} {e : Err}
    (h : runRounds s n r v = .error e) : e = .invalidConfiguration ∨ e = .notInField := by
  induction n generalizing r v with
  | zero => cases h
  | succ n ih =>
    rw [runRounds] at h
    split at h
    · cases h
      exact round_error ‹_›
    · exact ih h

/-- A field command raises no error but its check's (R150). -/
theorem fieldCommand_ne_raise {s : State} {rd : RegNum} {v : Nat} {e : Err}
    (hround : needsNotInRound s ≠ some e) : fieldCommand s rd v ≠ .next (s.raise e) :=
  command_ne_raise (by simp [hround]) nofun

/-- A layer or round command raises no error but its checks' and its function's. -/
theorem vectorCommand_ne_raise {s : State} {result : Except Err (List Nat)} {e : Err}
    (hseal : needsSealed s ≠ some e) (hround : needsNotInRound s ≠ some e)
    (hresult : result ≠ .error e) : vectorCommand s result ≠ .next (s.raise e) := by
  refine command_ne_raise (by simp [hseal, hround]) ?_
  cases result with
  | error f => exact fun h => hresult (by cases h; rfl)
  | ok v => exact nofun

/-- The numbers that `CSRW` may write have a CSR each (R29). -/
theorem writeCsr_ne_none {c : Csrs} {n : CsrNum} {v : Word} (hn : isWritableCsr n = true) :
    writeCsr c n v ≠ none := by
  intro h
  unfold writeCsr at h
  split at h
  case h_12 =>
    simp only [isWritableCsr, Bool.and_eq_true, decide_eq_true_eq, imp_false, BitVec.le_def,
      BitVec.toNat_ofNat] at *
    omega
  all_goals cases h

theorem readCsr_ne_none {c : Csrs} {n : CsrNum} (hn : isCsr n = true) : readCsr c n ≠ none := by
  intro h
  unfold readCsr at h
  split at h
  case h_17 =>
    simp only [isCsr, Bool.or_eq_true, Bool.and_eq_true, decide_eq_true_eq, imp_false, BitVec.le_def,
      BitVec.toNat_ofNat] at *
    omega
  all_goals cases h

/-- Only the number of a CSR can make a command illegal. -/
theorem exec_ne_raise_illegalCommand {i : Instr} (hi : i.wellFormed = true) (s : State) :
    exec i s ≠ .next (s.raise .illegalCommand) := by
  intro h
  unfold exec at h
  cases i with
  | nop | rds | wrd | rdd | gett | field | unsealUnit | clrerr | preset | wrs | mov | rdp | sealUnit
  | finv | pstart => exact command_ne_raise (by simp) (by nofun) h
  | fadd | fsub | fmul | fsqr | fdbl | fneg | fpow => exact fieldCommand_ne_raise (by simp) h
  | decomp | comp => exact command_ne_raise (by simp [needsUsableRadix]) (by nofun) h
  | wrp addr => exact command_ne_raise (by cases regionOf addr.toNat <;> simp) (by nofun) h
  | csrw n =>
    have hn : isWritableCsr n = true := hi
    refine command_ne_raise (by simp [hn]) ?_ h
    split
    · exact nofun
    · exact absurd ‹_› (writeCsr_ne_none hn)
  | csrr n =>
    have hn : isCsr n = true := hi
    refine command_ne_raise (by simp [hn]) ?_ h
    split
    · exact nofun
    · exact absurd ‹_› (readCsr_ne_none hn)
  | mdsd | mdsc | mdsch | affine | arc | sboxf | sbox0 | bricks | bars | feis =>
    exact vectorCommand_ne_raise (by simp) (by simp) (by nofun) h
  | sboxi =>
    refine vectorCommand_ne_raise (by simp) (by simp) (fun herror => ?_) h
    cases sboxInv_error herror
  | rcbars =>
    refine vectorCommand_ne_raise (by simp) (by simp) (fun herror => ?_) h
    cases rcBars_error herror <;> contradiction
  | pstep =>
    refine command_ne_raise (by simp) (fun herror => ?_) h
    split at herror <;> cases herror
    cases round_error ‹_› <;> contradiction
  | perm =>
    refine command_ne_raise (by simp) (fun herror => ?_) h
    split at herror <;> cases herror
    cases runRounds_error ‹_› <;> contradiction

/-! ### The response of a command -/

theorem Leaves.responses_eq {i : Instr} {s u : State} (h : Leaves i s u) :
    u.responses = s.responses := by
  cases h <;> rfl

/-- A well-formed command gives one response, and its status is not that of IllegalCommand. -/
theorem exec_responds_legal {i : Instr} (hi : i.wellFormed = true) (s : State) :
    ∃ t r, exec i s = .next t ∧ t.responses = s.responses ++ [r] ∧ r.st ≠ 5#8 := by
  obtain ⟨t, ht, ⟨e, -, rfl⟩ | ⟨u, d, hu, rfl⟩⟩ := exec_ends i s
  · refine ⟨_, ⟨e.code, 0#64⟩, ht, rfl, ?_⟩
    cases e with
    | illegalCommand => exact absurd ht (exec_ne_raise_illegalCommand hi s)
    | _ => decide
  · exact ⟨_, ⟨okCode, d⟩, ht, by rw [← hu.responses_eq]; rfl, show okCode ≠ 5#8 by decide⟩

/-- Settles O6: the four cases of R96 are the words that are not legal, and those alone raise IllegalCommand. -/
theorem illegalWordsRaiseExactly : Obligations.IllegalWordsRaiseExactly := by
  intro s cw din rest hinput
  constructor
  · intro hill
    exact ⟨_, step_of_not_legal hinput (illegalWord_iff.mp hill), raises_raise _ _⟩
  · intro hlegal
    obtain ⟨i, hi, hwf⟩ := legalWord_eq_true.mp (by simpa [illegalWord_iff] using hlegal)
    rw [step_run hinput hi]
    exact exec_responds_legal hwf _

end Sys2Proof.Machine

/-! # Data movement, configuration, construction: the fifteen commands and `PRESET`

The statements of the family of data movement and configuration (R121 to R136, R250). A command either raises
the first check that fails or answers from its effect's state, so each proof names the checks' outcome and
then reads the frame off the state left. -/

namespace Sys2Proof.Machine

/-! ### Raises and answers -/

/-- A command that takes the raise of an error raises it as R292 says. -/
theorem raisesOn_of_exec {i : Instr} {s : State} {e : Err} (h : exec i s = .next (s.raise e)) :
    RaisesOn i s e :=
  ⟨_, h, raises_raise s e⟩

/-- A command whose effect always has a value raises its first failing check. -/
theorem raisesOn_of_checks {i : Instr} {s t : State} {d : Word} {cs : List (Option Err)} {e : Err}
    (hexec : exec i s = command s cs (.ok (t, d))) (h : firstFailure cs = some e) : RaisesOn i s e :=
  raisesOn_of_exec (hexec.trans (command_raises _ h))

theorem needsUnsealed_of_sealed {s : State} (h : Sealed s) : needsUnsealed s = some .paramsSealed :=
  if_pos h

theorem needsUnsealed_of_not_sealed {s : State} (h : ¬Sealed s) : needsUnsealed s = none :=
  if_neg h

theorem needsNotInRound_of_inRound {s : State} (h : InRound s) :
    needsNotInRound s = some .badSequence :=
  if_pos h

theorem needsNotInRound_of_not_inRound {s : State} (h : ¬InRound s) : needsNotInRound s = none :=
  if_neg h

/-- A command that only answers leaves the unit as it was. -/
theorem unchanged_answer (s : State) (d : Word) : Unchanged s (s.answer d) :=
  ⟨fun _ => rfl, fun _ => rfl, rfl, fun _ => rfl⟩

/-- The register written holds the value, when a container can (R21). -/
theorem elem_answer_setElem (s : State) (rd : RegNum) {v : Nat} (hv : v < 2 ^ 64) (d : Word) :
    ((s.setElem rd v).answer d).elem rd = v := by
  rw [answer_elem, elem_setElem, if_pos rfl, Nat.mod_eq_of_lt hv]

theorem onlyReg_answer_setElem (s : State) (rd : RegNum) (v : Nat) (d : Word) :
    OnlyReg rd s ((s.setElem rd v).answer d) := by
  refine ⟨fun r hr => ?_, fun _ => rfl, rfl, fun _ => rfl⟩
  rw [answer_elem, elem_setElem, if_neg hr]

/-! ### Registers (R121 to R126, R131, R136) -/

/-- Settles O17: three commands without checks. -/
theorem nopGettClrerr : Obligations.NopGettClrerr := by
  refine ⟨decode_encode .nop, decode_encode .gett, decode_encode .clrerr, fun s => ⟨?_, ?_, ?_⟩⟩
  · exact ⟨_, rfl, unchanged_answer s _, rfl, rfl, rfl⟩
  · rw [BitVec.ofNat_toNat]
    exact ⟨_, rfl, unchanged_answer s _, rfl, rfl, rfl⟩
  · exact ⟨_, rfl, ⟨fun _ => rfl, fun _ => rfl, fun _ => rfl⟩, rfl, rfl, rfl, rfl⟩

/-- Settles O18: the sequencer is checked first, then the range; a value in range fits the register. -/
theorem wrsChecksRangeAndWrites : Obligations.WrsChecksRangeAndWrites := by
  intro rd s
  refine ⟨decode_encode (.wrs rd), fun hround => ?_, fun hround hrange => ?_, fun hround hrange => ?_⟩
  · exact raisesOn_of_checks rfl (by simp [needsNotInRound_of_inRound hround])
  · exact raisesOn_of_checks rfl (by simp [needsNotInRound_of_not_inRound hround, hrange])
  · have hfits : ¬s.p ≤ s.din.toNat := by omega
    exact ⟨_, command_ok _ _ (by simp [needsNotInRound_of_not_inRound hround, hfits]),
      elem_answer_setElem s rd s.din.isLt _, onlyReg_answer_setElem s rd _ _, rfl, rfl, rfl⟩

/-- Settles O19, by what the two read commands answer. -/
theorem rdsRddRead : Obligations.RdsRddRead := fun ra s =>
  ⟨decode_encode (.rds ra), decode_encode (.rdd ra),
    ⟨_, exec_rds ra s, unchanged_answer s _, rfl, rfl, rfl⟩,
    ⟨_, exec_rdd ra s, unchanged_answer s _, rfl, rfl, rfl⟩⟩

/-- Settles O20: a register's value fits a register, so `MOV` copies it whole; `WRD` has no check. -/
theorem movWrdWrite : Obligations.MovWrdWrite := by
  intro rd ra s
  refine ⟨decode_encode (.mov rd ra), decode_encode (.wrd rd), fun hround => ?_, fun hround => ?_, ?_⟩
  · exact raisesOn_of_checks rfl (by simp [needsNotInRound_of_inRound hround])
  · exact ⟨_, command_ok _ _ (by simp [needsNotInRound_of_not_inRound hround]),
      elem_answer_setElem s rd (elem_lt s ra) _, onlyReg_answer_setElem s rd _ _, rfl, rfl, rfl⟩
  · refine ⟨(s.setDigit rd s.din).answer 0#64, rfl, ?_, fun r hr => ?_, fun _ => rfl, rfl,
      fun _ => rfl, rfl, rfl, rfl⟩
    · rw [answer_digit, digit_setDigit, if_pos rfl]
    · rw [answer_digit, digit_setDigit, if_neg hr]

/-! ### Parameter memory (R127, R128) -/

/-- The write check of the element regions (R64). -/
theorem wordCheck_of_element {region : Region} (hradix : region ≠ .radix) (hsubst : region ≠ .subst)
    (p : Nat) (v : Word) :
    wordCheck p region v = if p ≤ v.toNat then some .notInField else none := by
  cases region with
  | radix => exact absurd rfl hradix
  | subst => exact absurd rfl hsubst
  | rc | mat0 | mat1 | crow | what | v | mu => rfl

/-- The write check of `RADIX` (R65), on the number written. -/
theorem wordCheck_radix (p : Nat) (v : Word) :
    wordCheck p .radix v =
      if v.toNat = 0 ∨ 65535 < v.toNat then some .invalidConfiguration else none := by
  simp only [wordCheck, eq_ofNat_iff v 0 (by decide)]

/-- A reserved address is found before the word is looked at (R127, R294). -/
theorem raisesOn_wrp_of_reserved {addr : PAddr} {s : State} (hopen : ¬Sealed s)
    (hregion : regionOf addr.toNat = none) : RaisesOn (.wrp addr) s .badAddress :=
  raisesOn_of_checks rfl (by simp [needsUnsealed_of_not_sealed hopen, hregion])

/-- In the construction phase `WRP` to a region raises what the region's write check finds. -/
theorem raisesOn_wrp_of_wordCheck {addr : PAddr} {s : State} {region : Region} {e : Err}
    (hopen : ¬Sealed s) (hregion : regionOf addr.toNat = some region)
    (hcheck : wordCheck s.p region s.din = some e) : RaisesOn (.wrp addr) s e :=
  raisesOn_of_checks rfl (by simp [needsUnsealed_of_not_sealed hopen, hregion, hcheck])

/-- In the construction phase `WRP` writes a word that its region admits. -/
theorem exec_wrp {addr : PAddr} {s : State} {region : Region} (hopen : ¬Sealed s)
    (hregion : regionOf addr.toNat = some region) (hcheck : wordCheck s.p region s.din = none) :
    exec (.wrp addr) s = .next ((s.setWord addr.toNat s.din).answer 0#64) :=
  command_ok _ _ (by simp [needsUnsealed_of_not_sealed hopen, hregion, hcheck])

/-- The words that R64 to R66 admit, by the range the address lies in, pass the check of its region. -/
theorem exists_region_admitting {p : Nat} {addr : PAddr} {v : Word}
    (h : (radixAddress addr.toNat ∧ 1 ≤ v.toNat ∧ v.toNat ≤ 65535) ∨
      (substAddress addr.toNat ∧ v.toNat ≤ 65535) ∨ (elementAddress addr.toNat ∧ v.toNat < p)) :
    ∃ region, regionOf addr.toNat = some region ∧ wordCheck p region v = none := by
  obtain ⟨-, hradix, hsubst, helement⟩ := regionOf_iff addr.toNat addr.isLt
  obtain ⟨haddr, hlow, hhigh⟩ | ⟨haddr, hhigh⟩ | ⟨haddr, hlt⟩ := h
  · exact ⟨.radix, hradix.mpr haddr, by rw [wordCheck_radix, if_neg (by omega)]⟩
  · exact ⟨.subst, hsubst.mpr haddr, if_neg (by omega)⟩
  · obtain ⟨region, hregion, hnotRadix, hnotSubst⟩ := helement.mp haddr
    exact ⟨region, hregion, by rw [wordCheck_of_element hnotRadix hnotSubst, if_neg (by omega)]⟩

/-- Settles O21: the phase, the region of the address, and the region's check decide, in that order; the
invariant gives the memory's canonical form, on which a read after a write rests. -/
theorem wrpChecksAndWrites : Obligations.WrpChecksAndWrites := by
  intro addr s hs
  obtain ⟨hnone, hradix, hsubst, helement⟩ := regionOf_iff addr.toNat addr.isLt
  refine ⟨decode_encode (.wrp addr), fun hsealed => ?_, fun hopen haddr => ?_,
    fun hopen haddr hv => ?_, fun hopen haddr hv => ?_, fun hopen haddr hv => ?_, fun hopen hv => ?_⟩
  · exact raisesOn_of_checks rfl (by simp [needsUnsealed_of_sealed hsealed])
  · exact raisesOn_wrp_of_reserved hopen (hnone.mpr haddr)
  · exact raisesOn_wrp_of_wordCheck hopen (hradix.mpr haddr) (by rw [wordCheck_radix, if_pos hv])
  · exact raisesOn_wrp_of_wordCheck hopen (hsubst.mpr haddr) (if_pos hv)
  · obtain ⟨region, hregion, hnotRadix, hnotSubst⟩ := helement.mp haddr
    exact raisesOn_wrp_of_wordCheck hopen hregion
      (by rw [wordCheck_of_element hnotRadix hnotSubst, if_pos hv])
  · obtain ⟨region, hregion, hcheck⟩ := exists_region_admitting hv
    refine ⟨_, exec_wrp hopen hregion hcheck, ?_, fun a ha => ?_, fun _ => rfl, fun _ => rfl, rfl,
      rfl, rfl, rfl⟩
    · rw [answer_word, word_setWord hs.memory, if_pos rfl]
    · rw [answer_word, word_setWord hs.memory, if_neg ha]

/-- Settles O22: the addresses without a region are the reserved ones. -/
theorem rdpReadsOrRaises : Obligations.RdpReadsOrRaises := by
  intro addr s
  obtain ⟨hnone, -⟩ := regionOf_iff addr.toNat addr.isLt
  refine ⟨decode_encode (.rdp addr), fun haddr => ?_, fun haddr => ?_⟩
  · exact raisesOn_of_checks rfl (by simp [hnone.mpr haddr])
  · obtain ⟨region, hregion⟩ := Option.ne_none_iff_exists'.mp (mt hnone.mp haddr)
    exact ⟨_, exec_rdp hregion s, unchanged_answer s _, rfl, rfl, rfl⟩

/-! ### The control and status registers (R129, R130) -/

/-- The numbers that `CSRW` may write are those of the table of R29 with their widths. -/
theorem isWritableCsr_iff {n : CsrNum} : isWritableCsr n = true ↔ n ∈ writableWidths.map (·.1) := by
  simp only [isWritableCsr, writableWidths, List.map_cons, List.map_nil, List.mem_cons,
    List.not_mem_nil, or_false, Bool.and_eq_true, decide_eq_true_eq]
  bv_omega

/-- The numbers of the CSRs are those of the table of R29. -/
theorem isCsr_iff {c : Csrs} {n : CsrNum} : isCsr n = true ↔ n ∈ (csrTable c).map (·.1) := by
  simp only [isCsr, csrTable, List.map_cons, List.map_nil, List.mem_cons, List.not_mem_nil, or_false,
    Bool.or_eq_true, Bool.and_eq_true, decide_eq_true_eq]
  bv_omega

/-- A CSR reads as the table has it, zero-extended. -/
theorem readCsr_of_mem {c : Csrs} {n : CsrNum} {v : Nat} (h : (n, v) ∈ csrTable c) :
    readCsr c n = some (BitVec.ofNat 64 v) := by
  simp only [csrTable, List.mem_cons, List.not_mem_nil, or_false, Prod.mk.injEq] at h
  rcases h with ⟨rfl, rfl⟩ | ⟨rfl, rfl⟩ | ⟨rfl, rfl⟩ | ⟨rfl, rfl⟩ | ⟨rfl, rfl⟩ | ⟨rfl, rfl⟩ |
    ⟨rfl, rfl⟩ | ⟨rfl, rfl⟩ | ⟨rfl, rfl⟩ | ⟨rfl, rfl⟩ | ⟨rfl, rfl⟩ | ⟨rfl, rfl⟩ | ⟨rfl, rfl⟩ |
    ⟨rfl, rfl⟩ | ⟨rfl, rfl⟩ | ⟨rfl, rfl⟩
  all_goals simp [readCsr]

/-- The table with the entry of one number replaced. -/
def replaceEntry (n : CsrNum) (v : Nat) (table : List (CsrNum × Nat)) : List (CsrNum × Nat) :=
  table.map fun e => if e.1 = n then (n, v) else e

theorem mem_replaceEntry_same {n : CsrNum} {v : Nat} {table : List (CsrNum × Nat)}
    (h : n ∈ table.map (·.1)) : (n, v) ∈ replaceEntry n v table := by
  obtain ⟨e, he, hen⟩ := List.mem_map.mp h
  exact List.mem_map.mpr ⟨e, he, if_pos hen⟩

theorem mem_replaceEntry_of_ne {n : CsrNum} {v : Nat} {table : List (CsrNum × Nat)}
    {e : CsrNum × Nat} (he : e ∈ table) (hne : e.1 ≠ n) : e ∈ replaceEntry n v table :=
  List.mem_map.mpr ⟨e, he, if_neg hne⟩

/-- `CSR[n] <- din[w-1:0]` (R129): one entry of the table takes the value modulo `2^w`. -/
theorem writeCsr_of_mem {n : CsrNum} {w : Nat} (h : (n, w) ∈ writableWidths) (c : Csrs) (din : Word) :
    ∃ c', writeCsr c n din = some c' ∧
      csrTable c' = replaceEntry n (din.toNat % 2 ^ w) (csrTable c) := by
  simp only [writableWidths, List.mem_cons, List.not_mem_nil, or_false, Prod.mk.injEq] at h
  rcases h with ⟨rfl, rfl⟩ | ⟨rfl, rfl⟩ | ⟨rfl, rfl⟩ | ⟨rfl, rfl⟩ | ⟨rfl, rfl⟩ | ⟨rfl, rfl⟩ |
    ⟨rfl, rfl⟩ | ⟨rfl, rfl⟩ | ⟨rfl, rfl⟩ | ⟨rfl, rfl⟩ | ⟨rfl, rfl⟩
  all_goals exact ⟨_, rfl, by simp [csrTable, replaceEntry, -Nat.reducePow]⟩

/-- A CSR that `CSRW` may write is a CSR. -/
theorem isCsr_of_isWritableCsr {n : CsrNum} (h : isWritableCsr n = true) : isCsr n = true := by
  by_contra hn
  rw [isWritableCsr_eq_false.mpr (.inl (Bool.eq_false_of_not_eq_true hn))] at h
  cases h

/-- In the construction phase `CSRW` of a number it may write leaves the CSRs so written. -/
theorem exec_csrw {n : CsrNum} {s : State} {c : Csrs} (hn : isWritableCsr n = true)
    (hopen : ¬Sealed s) (h : writeCsr s.csr n s.din = some c) :
    exec (.csrw n) s = .next ((s.setCsr c).answer 0#64) := by
  rw [show exec (.csrw n) s = execCsrw n s from rfl, execCsrw, h]
  exact command_ok _ _ (by simp [hn, needsUnsealed_of_not_sealed hopen])

/-- Settles O23: the number is checked before the phase (R294), and a write replaces one entry of the table
of the CSRs. -/
theorem csrwMasksToWidth : Obligations.CsrwMasksToWidth := by
  intro n s
  refine ⟨decode_encode (.csrw n), fun hn => ?_, fun hn hsealed => ?_, fun w hmem hopen => ?_⟩
  · have hfalse : isWritableCsr n = false := Bool.eq_false_of_not_eq_true (mt isWritableCsr_iff.mp hn)
    exact raisesOn_of_exec (exec_of_not_wellFormed (i := .csrw n) hfalse s)
  · exact raisesOn_of_exec
      (command_raises _ (by simp [isWritableCsr_iff.mpr hn, needsUnsealed_of_sealed hsealed]))
  · have hn : isWritableCsr n = true := isWritableCsr_iff.mpr (List.mem_map_of_mem hmem)
    obtain ⟨c, hc, htable⟩ := writeCsr_of_mem hmem s.csr s.din
    refine ⟨_, exec_csrw hn hopen hc, ⟨fun _ => rfl, fun _ => rfl, fun _ => rfl⟩, ⟨rfl, rfl, rfl⟩,
      ?_, fun e he hne => ?_⟩
    · rw [answer_csr, setCsr_csr, htable]
      exact mem_replaceEntry_same (isCsr_iff.mp (isCsr_of_isWritableCsr hn))
    · rw [answer_csr, setCsr_csr, htable]
      exact mem_replaceEntry_of_ne he hne

/-- Settles O24: `CSRR` answers the table's entry, and only a number without one is illegal. -/
theorem csrrReadsEveryCsr : Obligations.CsrrReadsEveryCsr := by
  intro n s
  refine ⟨decode_encode (.csrr n), fun hn => ?_, fun v hmem => ?_⟩
  · have hfalse : isCsr n = false := Bool.eq_false_of_not_eq_true (mt isCsr_iff.mp hn)
    exact raisesOn_of_exec (exec_of_not_wellFormed (i := .csrr n) hfalse s)
  · have hn : isCsr n = true := isCsr_iff.mpr (List.mem_map_of_mem hmem)
    exact ⟨_, exec_csrr hn (readCsr_of_mem hmem), unchanged_answer s _, rfl, rfl, rfl⟩

/-! ### Construction and the phases (R132 to R135, R250) -/

/-- A cleared digit file reads 0. -/
theorem digit_of_zeroed {s : State} (h : s.dg = Vector.replicate 32 0#64) (r : RegNum) :
    s.digit r = 0#64 := by
  simp [State.digit, h]

/-- Of the CSRs of a cleared unit only `FSEL` may differ from 0. -/
theorem csrTable_cleared {f : BitVec 1} {e : CsrNum × Nat}
    (he : e ∈ csrTable { State.reset.csr with fsel := f }) (hne : e.1 ≠ 0x00#8) : e.2 = 0 := by
  have hrest : ∀ e ∈ (csrTable State.reset.csr).tail, e.2 = 0 := by decide
  obtain rfl | htail := List.mem_cons.mp he
  · exact absurd rfl hne
  · exact hrest e htail

/-- Settles O25: the unit is as after reset but for `FSEL`, and the port is kept. -/
theorem fieldSelectsAndClears : Obligations.FieldSelectsAndClears := fun f s =>
  ⟨decode_encode (.field f), (s.cleared f).answer 0#64, rfl, rfl, elem_of_zeroed rfl,
    digit_of_zeroed rfl, fun _ he hne => csrTable_cleared he hne, word_of_empty rfl, rfl, rfl, rfl⟩

/-- Settles O26: the checks the model runs are those of R134. -/
theorem sealChecksAndLocks : Obligations.SealChecksAndLocks := by
  refine ⟨decode_encode .sealUnit, fun s => ⟨fun hsealed => ?_, fun hopen hbad => ?_,
    fun hopen hgood => ?_⟩⟩
  · exact raisesOn_of_checks rfl (by simp [needsUnsealed_of_sealed hsealed])
  · have hfail : sealOk s = false := Bool.eq_false_of_not_eq_true (mt (sealOk_iff s).mp hbad)
    exact raisesOn_of_checks rfl (by simp [needsUnsealed_of_not_sealed hopen, hfail])
  · have hpass : sealOk s = true := (sealOk_iff s).mpr hgood
    exact ⟨_, command_ok _ _ (by simp [needsUnsealed_of_not_sealed hopen, hpass]),
      ⟨fun _ => rfl, fun _ => rfl, fun _ => rfl⟩, rfl, rfl, rfl, rfl⟩

/-- Settles O27: two commands without checks that put the sequencer at rest. -/
theorem unsealPresetAbandon : Obligations.UnsealPresetAbandon :=
  ⟨decode_encode .unsealUnit, decode_encode .preset, fun _ =>
    ⟨⟨_, rfl, ⟨fun _ => rfl, fun _ => rfl, fun _ => rfl⟩, rfl, rfl, rfl, rfl⟩,
      ⟨_, rfl, ⟨fun _ => rfl, fun _ => rfl, fun _ => rfl⟩, rfl, rfl, rfl, rfl⟩⟩⟩

end Sys2Proof.Machine

/-! # Field arithmetic: the eight commands and the reduction datapaths

The statements of the family of field arithmetic (R150 to R162). Each command is a check of the sequencer and a
write of one value to one register, said once for all of them; what is left of each statement is arithmetic
modulo `p`, and `p` prime for the inverse and for Fermat's power. The datapaths of R154 and R155 are followed
step by step, each step keeping the residue modulo `p`. -/

namespace Sys2Proof.Machine

/-! ### A command that writes one register (R150) -/

/-- With no check failing, the value is written and all else is unchanged. -/
theorem exec_writesReg {i : Instr} {s : State} {cs : List (Option Err)} {rd : RegNum} {v : Nat}
    (hexec : exec i s = command s cs (done (s.setElem rd v))) (hcs : firstFailure cs = none)
    (hv : v < s.p) :
    ∃ t, exec i s = .next t ∧ t.elem rd = v ∧ OnlyReg rd s t ∧ Responds s t 0#8 0#64 :=
  ⟨_, hexec.trans (command_ok _ _ hcs), elem_answer_setElem s rd (hv.trans (p_lt s)) _,
    onlyReg_answer_setElem s rd v _, rfl, rfl, rfl⟩

section FieldCommand

variable {i : Instr} {s : State} {rd : RegNum} {v : Nat}

theorem raisesOn_of_fieldCommand (hexec : exec i s = fieldCommand s rd v) (hround : InRound s) :
    RaisesOn i s .badSequence :=
  raisesOn_of_checks hexec (by simp [needsNotInRound_of_inRound hround])

theorem fieldCommand_writesReg (hexec : exec i s = fieldCommand s rd v) (hround : ¬InRound s)
    (hv : v < s.p) :
    ∃ t, exec i s = .next t ∧ t.elem rd = v ∧ OnlyReg rd s t ∧ Responds s t 0#8 0#64 :=
  exec_writesReg hexec (by simp [needsNotInRound_of_not_inRound hround]) hv

end FieldCommand

/-! ### Sum, difference and negation (R151, R152, R159, R162) -/

/-- R151's conditional subtraction of `p`. -/
theorem addMod_eq_ite {p a b : Nat} (ha : a < p) (hb : b < p) :
    addMod p a b = if p ≤ a + b then a + b - p else a + b := by
  rw [addMod, Nat.add_mod_eq_ite, Nat.mod_eq_of_lt ha, Nat.mod_eq_of_lt hb]

theorem coe_subMod {p : Nat} (hp : 0 < p) (a b : Nat) :
    (subMod p a b : Int) = ((a : Int) - (b : Int)) % (p : Int) :=
  Int.toNat_of_nonneg (Int.emod_nonneg _ (by omega))

/-- R152's conditional addition of `p`. -/
theorem subMod_eq_ite {p a b : Nat} (ha : a < p) (hb : b < p) :
    subMod p a b = if b ≤ a then a - b else a + p - b := by
  zify
  rw [coe_subMod (by omega)]
  split
  · rw [Int.emod_eq_of_lt] <;> omega
  · rw [← Int.add_emod_right, Int.emod_eq_of_lt] <;> omega

/-- The negation of a canonical element is its additive inverse (R162). -/
theorem add_negMod {p a : Nat} (ha : a < p) : (a + negMod p a) % p = 0 := by
  rw [negMod]
  split
  · simp [*]
  · rw [Nat.add_sub_cancel' ha.le, Nat.mod_self]

/-! ### Powers and the inverse (R160, R161) -/

section Prime

variable {p a : Nat}

/-- A non-zero canonical element is coprime to the modulus. -/
theorem coprime_of_canonical (hp : p.Prime) (h0 : a ≠ 0) (ha : a < p) : a.Coprime p :=
  (Nat.coprime_of_lt_prime h0 ha hp).symm

/-- R161's inference from `p` being prime. -/
theorem pow_pred_mod_prime (hp : p.Prime) (h0 : a ≠ 0) (ha : a < p) : a ^ (p - 1) % p = 1 := by
  have h : a ^ p.totient % p = 1 % p := Nat.ModEq.pow_totient (coprime_of_canonical hp h0 ha)
  rwa [Nat.totient_prime hp, Nat.mod_eq_of_lt hp.one_lt] at h

/-- The product with the inverse is Fermat's power. -/
theorem mul_invMod (hp : p.Prime) (h64 : p < 2 ^ 64) (h0 : a ≠ 0) (ha : a < p) :
    a * invMod p a % p = 1 := by
  have hexp : p - 2 + 1 = p - 1 := by have := hp.two_le; omega
  calc a * invMod p a % p = a ^ (p - 2 + 1) % p := by
        rw [invMod, powMod_eq hp.one_lt _ _ (by omega), Nat.mul_mod_mod, pow_succ']
    _ = 1 := by rw [hexp, pow_pred_mod_prime hp h0 ha]

/-- A non-zero element has at most one canonical inverse. -/
theorem inverse_unique (hp : p.Prime) (h0 : a ≠ 0) (ha : a < p) {b c : Nat} (hb : b < p) (hc : c < p)
    (hab : a * b % p = 1) (hac : a * c % p = 1) : b = c :=
  Nat.ModEq.eq_of_lt_of_lt
    (Nat.ModEq.cancel_left_of_coprime (coprime_of_canonical hp h0 ha).symm (hab.trans hac.symm)) hb hc

end Prime

/-! ### The commands -/

/-- Settles O28: the exact sum and difference reduced, and for canonical sources one correction suffices. -/
theorem faddFsubResults : Obligations.FaddFsubResults := by
  intro rd ra rb s
  refine ⟨decode_encode (.fadd rd ra rb), decode_encode (.fsub rd ra rb), fun hround =>
    ⟨raisesOn_of_fieldCommand rfl hround, raisesOn_of_fieldCommand rfl hround⟩, fun hround => ⟨?_, ?_⟩⟩
  · obtain ⟨t, hexec, helem, hframe, hresp⟩ := fieldCommand_writesReg (i := .fadd rd ra rb) rfl hround
      (addMod_lt (p_pos s) _ _)
    exact ⟨t, hexec, helem, hframe, hresp, fun hs =>
      helem.trans (addMod_eq_ite (hs.registers ra) (hs.registers rb))⟩
  · obtain ⟨t, hexec, helem, hframe, hresp⟩ := fieldCommand_writesReg (i := .fsub rd ra rb) rfl hround
      (subMod_lt (p_pos s) _ _)
    exact ⟨t, hexec, helem ▸ coe_subMod (p_pos s) _ _, hframe, hresp, fun hs =>
      helem.trans (subMod_eq_ite (hs.registers ra) (hs.registers rb))⟩

/-- `FDBL` is `FADD` of the register with itself (R158). -/
theorem exec_fdbl_eq_fadd (rd ra : RegNum) (s : State) :
    exec (.fdbl rd ra) s = exec (.fadd rd ra ra) s := by
  change fieldCommand s rd (mulMod s.p 2 (s.elem ra)) =
    fieldCommand s rd (addMod s.p (s.elem ra) (s.elem ra))
  rw [mulMod, addMod, two_mul]

/-- Settles O29: all three write a product modulo `p`, that of `FDBL` with the factor 2. -/
theorem fmulFsqrFdblResults : Obligations.FmulFsqrFdblResults := fun rd ra rb s =>
  ⟨decode_encode (.fmul rd ra rb), decode_encode (.fsqr rd ra), decode_encode (.fdbl rd ra),
    raisesOn_of_fieldCommand rfl,
    fun hround => fieldCommand_writesReg rfl hround (mulMod_lt (p_pos s) _ _),
    fun hround => ⟨raisesOn_of_fieldCommand rfl hround, raisesOn_of_fieldCommand rfl hround⟩,
    fun hround => ⟨fieldCommand_writesReg rfl hround (mulMod_lt (p_pos s) _ _),
      fieldCommand_writesReg rfl hround (mulMod_lt (p_pos s) _ _)⟩,
    rfl, exec_fdbl_eq_fadd rd ra s⟩

/-- Settles O30: the value written is R159's, and with a canonical source it sums to `p` or to 0. -/
theorem fnegResult : Obligations.FnegResult := by
  intro rd ra s
  refine ⟨decode_encode (.fneg rd ra), raisesOn_of_fieldCommand rfl, fun hround => ?_⟩
  have hlt := negMod_lt (p_pos s) (s.elem ra)
  obtain ⟨t, hexec, helem, hframe, hresp⟩ :=
    fieldCommand_writesReg (i := .fneg rd ra) rfl hround hlt
  exact ⟨t, hexec, helem, hframe, hresp, fun hs =>
    ⟨helem ▸ hlt, helem ▸ add_negMod (hs.registers ra)⟩⟩

/-- Settles O31: the sequencer is checked before the source; the power `p - 2` is the inverse, by Fermat, and
a non-zero factor cancels modulo a prime. -/
theorem finvIsTheInverse : Obligations.FinvIsTheInverse := by
  intro rd ra s
  refine ⟨decode_encode (.finv rd ra), fun hround => ?_, fun hround h0 => ?_, fun hs hround h0 => ?_⟩
  · exact raisesOn_of_checks rfl (by simp [needsNotInRound_of_inRound hround])
  · exact raisesOn_of_checks rfl (by simp [needsNotInRound_of_not_inRound hround, h0])
  · have hp : s.p.Prime := modulus_prime s.field
    have hlt : invMod s.p (s.elem ra) < s.p := powMod_lt (one_lt_p s) _ _
    have hinv := mul_invMod hp (p_lt s) h0 (hs.registers ra)
    obtain ⟨t, hexec, helem, hframe, hresp⟩ := exec_writesReg (i := .finv rd ra) rfl
      (by simp [needsNotInRound_of_not_inRound hround, beq_false_of_ne h0]) hlt
    rw [← helem] at hlt hinv
    have hpos : t.elem rd ≠ 0 := fun h => by simp [h] at hinv
    exact ⟨t, hexec, Nat.one_le_iff_ne_zero.mpr hpos, hlt, hinv, fun b _ hb hmul =>
      inverse_unique hp h0 (hs.registers ra) hb hlt hmul hinv, hframe, hresp⟩

/-- Settles O32: square-and-multiply gives the power for every 64-bit exponent. -/
theorem fpowResult : Obligations.FpowResult := by
  intro rd ra s
  refine ⟨decode_encode (.fpow rd ra), raisesOn_of_fieldCommand rfl, fun hround => ?_⟩
  obtain ⟨t, hexec, helem, hframe, hresp⟩ := fieldCommand_writesReg (i := .fpow rd ra) rfl hround
    (powMod_lt (one_lt_p s) _ _)
  rw [powMod_eq (one_lt_p s) _ _ s.din.isLt] at helem
  refine ⟨t, hexec, helem, hframe, hresp, fun hexp => ?_, fun hs h0 hexp => ?_⟩
  · rw [helem, hexp, pow_zero, Nat.mod_eq_of_lt (one_lt_p s)]
  · rw [helem, hexp]
    exact pow_pred_mod_prime (modulus_prime s.field) h0 (hs.registers ra)

/-! ### The reduction datapaths (R154, R155) -/

/-- The last step of both datapaths: one conditional subtraction of `p`. -/
def subtractOnce (f : Field) (t : Word) : Word :=
  if BitVec.ofNat 64 f.modulus ≤ t then t - BitVec.ofNat 64 f.modulus else t

/-- A 64-bit difference of R154, a borrow repaid by `eps`. -/
def subBorrow (a b : Word) : Word :=
  if a < b then a - b - BitVec.ofNat 64 Field.f64.eps else a - b

/-- A 64-bit sum of R154, a carry taken back as `eps`. -/
def addCarry (a b : Word) : Word :=
  if 2 ^ 64 ≤ a.toNat + b.toNat then a + b + BitVec.ofNat 64 Field.f64.eps else a + b

/-- The steps of R154 on the low word and the two halves of the high word. -/
theorem reduceF64_eq (x : BitVec 128) :
    reduceF64 x = subtractOnce .f64
      (addCarry
        (subBorrow (x.extractLsb' 0 64) (((x.extractLsb' 64 64).extractLsb' 32 32).setWidth 64))
        (((x.extractLsb' 64 64).extractLsb' 0 32).setWidth 64 * BitVec.ofNat 64 Field.f64.eps)) := rfl

/-- The steps of R155 on the two halves. -/
theorem reduceF31_eq (x : BitVec 62) :
    reduceF31 x = subtractOnce .f31 ((x.extractLsb' 0 31).setWidth 64 +
      (x.extractLsb' 31 31).setWidth 64 * BitVec.ofNat 64 Field.f31.eps) := rfl

theorem toNat_subtractOnce {f : Field} {t : Word} (h : t.toNat < 2 * f.modulus) :
    (subtractOnce f t).toNat = t.toNat % f.modulus := by
  have hp : (BitVec.ofNat 64 f.modulus).toNat = f.modulus := by
    rw [BitVec.toNat_ofNat, Nat.mod_eq_of_lt (modulus_lt f)]
  unfold subtractOnce
  split
  · rename_i hle
    rw [BitVec.toNat_sub_of_le hle, hp, Nat.mod_eq_sub_mod (hp ▸ BitVec.le_def.mp hle),
      Nat.mod_eq_of_lt (by omega)]
  · rename_i hlt
    rw [BitVec.le_def, hp] at hlt
    rw [Nat.mod_eq_of_lt (by omega)]

/-! #### The constants of the datapaths -/

theorem modulus_f64_eq : Field.f64.modulus = 0xFFFFFFFF00000001 := rfl

theorem modulus_f31_eq : Field.f31.modulus = 0x7FFFFFFF := rfl

theorem eps_f64_eq : Field.f64.eps = 0xFFFFFFFF := rfl

theorem eps_f31_eq : Field.f31.eps = 1 := rfl

/-! #### The parts of an integer -/

/-- An integer from its low `n` bits and the bits above them. -/
theorem toNat_split {w : Nat} (x : BitVec w) (n m : Nat) (h : w ≤ n + m) :
    x.toNat = (x.extractLsb' 0 n).toNat + 2 ^ n * (x.extractLsb' n m).toNat := by
  have hhigh : x.toNat / 2 ^ n < 2 ^ m := by
    rw [Nat.div_lt_iff_lt_mul (by positivity), ← pow_add, add_comm]
    exact x.isLt.trans_le (Nat.pow_le_pow_right (by decide) h)
  rw [BitVec.extractLsb'_toNat, BitVec.extractLsb'_toNat, Nat.shiftRight_zero, Nat.shiftRight_eq_div_pow,
    Nat.mod_eq_of_lt hhigh, Nat.mod_add_div]

/-- A 128-bit integer from its low word and the two halves of its high word. -/
theorem toNat_split128 (x : BitVec 128) :
    x.toNat = (x.extractLsb' 0 64).toNat +
      2 ^ 64 * (((x.extractLsb' 64 64).extractLsb' 0 32).toNat +
        2 ^ 32 * ((x.extractLsb' 64 64).extractLsb' 32 32).toNat) := by
  rw [← toNat_split _ 32 32 le_rfl, ← toNat_split x 64 64 le_rfl]

/-- A product that `w` bits hold is exact in `w` bits. -/
theorem toNat_setWidth_mul {w : Nat} {a b : Word} (h : a.toNat * b.toNat < 2 ^ w) :
    (a.setWidth w * b.setWidth w).toNat = a.toNat * b.toNat := by
  rw [BitVec.toNat_mul, BitVec.toNat_setWidth, BitVec.toNat_setWidth, ← Nat.mul_mod,
    Nat.mod_eq_of_lt h]

/-! #### F64 (R154) -/

/-- With a subtrahend of 32 bits the repaid borrow does not wrap: the difference is kept modulo `p`, since
`2^64 = p + eps`. -/
theorem subBorrow_modEq {a b : Word} (hb : b.toNat < 2 ^ 32) :
    (subBorrow a b).toNat + b.toNat ≡ a.toNat [MOD Field.f64.modulus] := by
  unfold subBorrow
  rw [modulus_f64_eq, eps_f64_eq]
  split
  · have h : (a - b - 0xFFFFFFFF#64).toNat + b.toNat = a.toNat + 0xFFFFFFFF00000001 := by bv_omega
    rw [h]
    exact Nat.add_modEq_right
  · have h : (a - b).toNat + b.toNat = a.toNat := by bv_omega
    rw [h]

/-- With a summand of at most `2^64 - 2^32` the carry taken back does not wrap: the sum is kept modulo `p`. -/
theorem addCarry_modEq {a b : Word} (hb : b.toNat ≤ 2 ^ 64 - 2 ^ 32) :
    (addCarry a b).toNat ≡ a.toNat + b.toNat [MOD Field.f64.modulus] := by
  unfold addCarry
  rw [modulus_f64_eq, eps_f64_eq]
  split
  · have h : (a + b + 0xFFFFFFFF#64).toNat + 0xFFFFFFFF00000001 = a.toNat + b.toNat := by bv_omega
    rw [← h]
    exact Nat.add_modEq_right.symm
  · have h : (a + b).toNat = a.toNat + b.toNat := by bv_omega
    rw [h]

/-- The product of a half word and `eps` is exact. -/
theorem toNat_half_mul_eps (h : BitVec 32) :
    (h.setWidth 64 * BitVec.ofNat 64 Field.f64.eps).toNat = h.toNat * Field.f64.eps := by
  rw [BitVec.toNat_mul, BitVec.toNat_setWidth_of_le (by decide), BitVec.toNat_ofNat, eps_f64_eq]
  omega

/-- The four parts of R154 stand for the 128-bit integer: `2^64 = p + eps` and `2^96 = p * (2^32 + 1) - 1`. -/
theorem weights_modEq {lo hl hh t : Nat} (ht : t + hh ≡ lo [MOD Field.f64.modulus]) :
    t + hl * Field.f64.eps ≡ lo + 2 ^ 64 * (hl + 2 ^ 32 * hh) [MOD Field.f64.modulus] := by
  have h : lo + 2 ^ 64 * (hl + 2 ^ 32 * hh) + hh =
      lo + hl * Field.f64.eps + Field.f64.modulus * (hl + (2 ^ 32 + 1) * hh) := by
    rw [modulus_f64_eq, eps_f64_eq]
    omega
  refine Nat.ModEq.add_right_cancel' hh ?_
  rw [h, add_right_comm]
  exact (ht.add_right _).trans (Nat.add_mul_mod_self_left ..).symm

/-- R154's datapath reduces every 128-bit integer: both wrapping steps keep the residue, and what they leave is
below `2^64`, so below `2 * p`. -/
theorem toNat_reduceF64 (x : BitVec 128) : (reduceF64 x).toNat = x.toNat % Field.f64.modulus := by
  have hborrow := subBorrow_modEq (a := x.extractLsb' 0 64)
    (b := ((x.extractLsb' 64 64).extractLsb' 32 32).setWidth 64)
    (by rw [BitVec.toNat_setWidth_of_le (by decide)]; exact BitVec.isLt _)
  rw [BitVec.toNat_setWidth_of_le (by decide)] at hborrow
  have hbelow : ∀ t : Word, t.toNat < 2 * Field.f64.modulus := fun t => t.isLt.trans (by decide)
  rw [reduceF64_eq, toNat_subtractOnce (hbelow _), toNat_split128 x]
  refine (addCarry_modEq ?_).trans ?_ <;> rw [toNat_half_mul_eps]
  · rw [eps_f64_eq]
    omega
  · exact weights_modEq hborrow

/-! #### F31 (R155) -/

/-- R155's datapath reduces every product of canonical factors: `2^31 = p + 1`, and the sum of the two halves
is below `2 * p`. -/
theorem toNat_reduceF31 {x : BitVec 62} (h : x.toNat ≤ (Field.f31.modulus - 1) ^ 2) :
    (reduceF31 x).toNat = x.toNat % Field.f31.modulus := by
  have hlo := (x.extractLsb' 0 31).isLt
  have hhi := (x.extractLsb' 31 31).isLt
  have hsplit := toNat_split x 31 31 le_rfl
  have hsum : ((x.extractLsb' 0 31).setWidth 64 +
      (x.extractLsb' 31 31).setWidth 64 * BitVec.ofNat 64 Field.f31.eps).toNat =
      (x.extractLsb' 0 31).toNat + (x.extractLsb' 31 31).toNat := by
    rw [eps_f31_eq, BitVec.mul_one, BitVec.toNat_add,
      BitVec.toNat_setWidth_of_le (by decide), BitVec.toNat_setWidth_of_le (by decide)]
    omega
  rw [modulus_f31_eq] at h
  rw [reduceF31_eq, toNat_subtractOnce] <;> rw [hsum, modulus_f31_eq] <;> omega

/-- Settles O33: the product fits the datapath's input, which the datapath reduces. -/
theorem reductionDatapathIsExact : Obligations.ReductionDatapathIsExact := by
  refine ⟨toNat_reduceF64, fun f a b ha hb => ?_⟩
  have hle : a.toNat * b.toNat ≤ (f.modulus - 1) ^ 2 :=
    (Nat.mul_le_mul (Nat.le_sub_one_of_lt ha) (Nat.le_sub_one_of_lt hb)).trans_eq (sq _).symm
  cases f with
  | f64 =>
    have hfits : a.toNat * b.toNat < 2 ^ 128 := hle.trans_lt (by decide)
    rw [mulDatapath, toNat_reduceF64, toNat_setWidth_mul hfits]
  | f31 =>
    have hfits : a.toNat * b.toNat < 2 ^ 62 := hle.trans_lt (by decide)
    rw [mulDatapath, toNat_reduceF31 (by rwa [toNat_setWidth_mul hfits]), toNat_setWidth_mul hfits]

end Sys2Proof.Machine

/-! # Decomposition: DECOMP, COMP, and composing what was decomposed

The statements of the family of small-divisor decomposition (R180 to R185). The last radix divides first, so both
directions of R182 are inductions that take the last radix and the last digit off: `Decompose` puts the remainder
there, and Horner's last step multiplies by the radix and adds the digit. -/

namespace Sys2Proof.Machine

/-! ### Composition and decomposition at the last radix (R180, R181) -/

/-- The last radix divides first, and the remainder is the last digit. -/
theorem decompose_cons_concat (r0 : Nat) (rs : List Nat) (r x : Nat) :
    decompose (r0 :: (rs ++ [r])) x = decompose (r0 :: rs) (x / r) ++ [x % r] := by
  simp [decompose, divideDown]

/-- Horner's last step. -/
theorem hornerFrom_concat (acc : Nat) {rs ds : List Nat} (h : rs.length = ds.length) (r d : Nat) :
    hornerFrom acc (rs ++ [r]) (ds ++ [d]) = hornerFrom acc rs ds * r + d := by
  induction rs generalizing acc ds with
  | nil =>
    obtain rfl : ds = [] := List.length_eq_zero_iff.mp h.symm
    rfl
  | cons q qs ih =>
    cases ds with
    | nil => cases h
    | cons e es => exact ih _ (Nat.succ.inj h)

theorem compose_concat {rs ds : List Nat} (h : rs.length = ds.length) (hne : rs ≠ []) (r d : Nat) :
    compose (rs ++ [r]) (ds ++ [d]) = compose rs ds * r + d := by
  cases rs with
  | nil => exact absurd rfl hne
  | cons q qs =>
    cases ds with
    | nil => cases h
    | cons e es => exact hornerFrom_concat e (Nat.succ.inj h) r d

/-! ### Each undoes the other (R182) -/

/-- Composing a decomposition: quotient times radix plus remainder, at every radix. -/
theorem compose_decompose {rs : List Nat} (h : rs ≠ []) (x : Nat) :
    compose rs (decompose rs x) = x := by
  obtain ⟨r0, rs, rfl⟩ := List.exists_cons_of_ne_nil h
  induction rs using List.reverseRecOn generalizing x with
  | nil => rfl
  | append_singleton rs r ih =>
    have hne : r0 :: rs ≠ [] := List.cons_ne_nil r0 rs
    rw [decompose_cons_concat, ← List.cons_append, compose_concat (decompose_length _ _ hne).symm hne,
      ih _ hne, Nat.div_add_mod']

/-- Decomposing a composition, the radices and digits from index 1 on given from the last: a digit below its
radix is the remainder, and what it was added to is the quotient. -/
theorem decompose_compose_reverse (r0 d0 : Nat) {qs es : List Nat} (h : List.Forall₂ (· < ·) es qs) :
    decompose (r0 :: qs.reverse) (compose (r0 :: qs.reverse) (d0 :: es.reverse)) =
      d0 :: es.reverse := by
  induction h with
  | nil => rfl
  | @cons e q es qs hlt hrest ih =>
    have hlen : (r0 :: qs.reverse).length = (d0 :: es.reverse).length := by
      simp [hrest.length_eq]
    rw [List.reverse_cons, List.reverse_cons, decompose_cons_concat, ← List.cons_append,
      ← List.cons_append, compose_concat hlen (List.cons_ne_nil _ _), Nat.mul_add_mod',
      Nat.mod_eq_of_lt hlt, Nat.mul_comm, Nat.mul_add_div (Nat.zero_lt_of_lt hlt),
      Nat.div_eq_of_lt hlt, Nat.add_zero, ih]

/-- Decomposing a composition of digits that are, from index 1 on, below their radices. -/
theorem decompose_compose {rs ds : List Nat} (hne : rs ≠ []) (hlen : ds.length = rs.length)
    (h : ∀ k, 1 ≤ k → k < rs.length → ds.getD k 0 < rs.getD k 0) :
    decompose rs (compose rs ds) = ds := by
  obtain ⟨r0, rs, rfl⟩ := List.exists_cons_of_ne_nil hne
  obtain ⟨d0, ds, rfl⟩ := List.exists_cons_of_length_eq_add_one hlen
  have hbelow : List.Forall₂ (· < ·) ds rs := by
    refine List.forall₂_iff_get.mpr ⟨Nat.succ.inj hlen, fun k hds hrs => ?_⟩
    simpa [hds, hrs] using h (k + 1) (by omega) (Nat.succ_lt_succ hrs)
  simpa using decompose_compose_reverse r0 d0 (List.forall₂_reverse_iff.mpr hbelow)

/-- Settles O36: both directions by taking the last radix off; the digits 0, 3 by the radices 2, 2 stand for 3,
which decomposes into 1, 1. -/
theorem composeUndoesDecompose : Obligations.ComposeUndoesDecompose :=
  ⟨fun _ x hne _ => compose_decompose hne x, fun _ _ hne hlen hbelow => decompose_compose hne hlen hbelow,
    [2, 2], [0, 3], by decide, by decide, rfl, by decide⟩

/-! ### The digits and the value in a state -/

theorem digitOf_le (s : State) (x k : Nat) : digitOf s x k ≤ x := by
  unfold digitOf
  split
  · exact Nat.div_le_self ..
  · exact (Nat.mod_le ..).trans (Nat.div_le_self ..)

/-- Only the digits below the length of the radix sequence count. -/
theorem valueOf_congr {s : State} {f g : Nat → Nat} (h : ∀ k, k < s.csr.nradix.toNat → f k = g k) :
    valueOf s f = valueOf s g :=
  Finset.sum_congr rfl fun k hk => by rw [h k (Finset.mem_range.mp hk)]

theorem radices_ne_nil {s : State} (h : RadixUsable s) : s.radices ≠ [] := by
  obtain ⟨hpos, -⟩ := h
  exact List.ne_nil_of_length_pos (by rw [radices_length]; exact hpos)

/-- R182 in a state: an integer's digits stand for it. -/
theorem valueOf_digitOf {s : State} (h : RadixUsable s) (x : Nat) : valueOf s (digitOf s x) = x := by
  have hne := radices_ne_nil h
  calc valueOf s (digitOf s x) = valueOf s fun k => (decompose s.radices x).getD k 0 :=
        valueOf_congr fun k hk => (decompose_digitOf s x k hk).symm
    _ = compose s.radices (decompose s.radices x) :=
        (compose_valueOf s _ ((decompose_length _ x hne).trans (radices_length s))).symm
    _ = x := compose_decompose hne x

theorem toNat_regNum {k : Nat} (h : k < 32) : (BitVec.ofNat 5 k).toNat = k := Nat.mod_eq_of_lt h

/-- The integer that the digit registers stand for, by the unit's radix sequence (R185). -/
def digitsValue (s : State) : Nat := valueOf s fun k => (s.digit (BitVec.ofNat 5 k)).toNat

theorem compose_digits {s : State} (h : RadixUsable s) :
    compose s.radices (s.digits s.numRadix) = digitsValue s := by
  obtain ⟨-, hmax, -⟩ := h
  have hlen : (s.digits s.numRadix).length = s.csr.nradix.toNat := by
    rw [digits_length]
    exact Nat.min_eq_left hmax
  rw [compose_valueOf s _ hlen]
  refine valueOf_congr fun k hk => ?_
  have hreg : (BitVec.ofNat 5 k).toNat = k := toNat_regNum (hk.trans_le hmax)
  rw [← digits_getD s s.numRadix _ (by rw [hreg]; exact hk), hreg]

/-- The digit registers after a decomposition: no digit exceeds the element, so each fits its register. -/
theorem digit_setDigits_decompose {s : State} (h : RadixUsable s) (ra k : RegNum) :
    ((s.setDigits (decompose s.radices (s.elem ra))).digit k).toNat =
      if k.toNat < s.csr.nradix.toNat then digitOf s (s.elem ra) k.toNat else (s.digit k).toNat := by
  rw [digit_setDigits, decompose_length _ _ (radices_ne_nil h), radices_length]
  split
  · rename_i hk
    rw [decompose_digitOf _ _ _ hk, BitVec.toNat_ofNat,
      Nat.mod_eq_of_lt ((digitOf_le s _ _).trans_lt (elem_lt s ra))]
  · rfl

/-! ### The checks -/

theorem needsSealed_of_sealed {s : State} (h : Sealed s) : needsSealed s = none :=
  needsSealed_eq_none.mpr (by rw [h]; decide)

theorem needsSealed_of_not_sealed {s : State} (h : ¬Sealed s) :
    needsSealed s = some .invalidConfiguration :=
  if_pos ((lock_cases s).resolve_right h)

theorem needsUsableRadix_of_usable {s : State} (h : RadixUsable s) : needsUsableRadix s = none := by
  rw [needsUsableRadix, (radixUsable_iff s).mpr h]
  rfl

theorem needsUsableRadix_of_not_usable {s : State} (h : ¬RadixUsable s) :
    needsUsableRadix s = some .invalidConfiguration := by
  rw [needsUsableRadix, Bool.eq_false_of_not_eq_true (mt (radixUsable_iff s).mp h)]
  rfl

/-- A command that checks first that the unit is sealed and then that it is not in a round (R202, R210). -/
theorem layerChecks_of_exec {i : Instr} {s : State} {cs : List (Option Err)}
    {effect : Except Err (State × Word)}
    (hexec : exec i s = command s (needsSealed s :: needsNotInRound s :: cs) effect) :
    LayerChecks i s :=
  ⟨fun hopen => raisesOn_of_exec
      (hexec.trans (command_raises _ (by simp [needsSealed_of_not_sealed hopen]))),
    fun hsealed hround => raisesOn_of_exec (hexec.trans (command_raises _
      (by simp [needsSealed_of_sealed hsealed, needsNotInRound_of_inRound hround])))⟩

/-! ### The commands (R184, R185) -/

/-- Settles O34: the phase is checked before the radix sequence, and every digit fits its register. -/
theorem decompWritesDigits : Obligations.DecompWritesDigits := by
  intro ra s
  refine ⟨decode_encode (.decomp ra), fun hopen => ?_, fun hsealed hbad => ?_,
    fun hsealed husable => ?_⟩
  · exact raisesOn_of_checks rfl (by simp [needsSealed_of_not_sealed hopen])
  · exact raisesOn_of_checks rfl
      (by simp [needsSealed_of_sealed hsealed, needsUsableRadix_of_not_usable hbad])
  · exact ⟨_, command_ok _ _
        (by simp [needsSealed_of_sealed hsealed, needsUsableRadix_of_usable husable]),
      digit_setDigits_decompose husable ra, fun _ => rfl, rfl, fun _ => rfl, rfl, rfl, rfl⟩

/-- Settles O35: the phase, the sequencer, the radix sequence and the value are checked in that order; a value
below `p` is written. -/
theorem compWritesValue : Obligations.CompWritesValue := by
  intro rd s
  refine ⟨decode_encode (.comp rd), layerChecks_of_exec (effect := done _) rfl, fun hsealed hround hbad => ?_,
    fun hsealed hround husable hbig => ?_, fun hsealed hround husable hlt => ?_⟩
  · exact raisesOn_of_checks rfl (by simp [needsSealed_of_sealed hsealed,
      needsNotInRound_of_not_inRound hround, needsUsableRadix_of_not_usable hbad])
  · have hrange : s.p ≤ digitsValue s := hbig
    exact raisesOn_of_checks rfl (by simp [needsSealed_of_sealed hsealed,
      needsNotInRound_of_not_inRound hround, needsUsableRadix_of_usable husable,
      compose_digits husable, hrange])
  · have hvalue := compose_digits husable
    have hrange : ¬s.p ≤ digitsValue s := Nat.not_le.mpr hlt
    obtain ⟨t, hexec, helem, hframe, hresp⟩ := exec_writesReg (i := .comp rd) (s := s) rfl
      (by simp [needsSealed_of_sealed hsealed, needsNotInRound_of_not_inRound hround,
        needsUsableRadix_of_usable husable, hvalue, hrange]) (hvalue.trans_lt hlt)
    exact ⟨t, hexec, helem.trans hvalue, hframe, hresp⟩

/-! ### `COMP` after `DECOMP` -/

section SameConfiguration

variable {s t : State} (hcsr : t.csr = s.csr) (hmem : SameMemory s t)

include hcsr in
theorem p_of_csr_eq : t.p = s.p := congrArg (fun c : Csrs => (Field.ofBit c.fsel).modulus) hcsr

include hmem in
theorem radix_of_sameMemory : t.radix = s.radix := funext fun k => congrArg _ (hmem (radixAddr k))

include hcsr hmem

theorem RadixUsable.of_same (h : RadixUsable s) : RadixUsable t := by
  rwa [RadixUsable, hcsr, radix_of_sameMemory hmem]

theorem valueOf_of_same (dg : Nat → Nat) : valueOf t dg = valueOf s dg := by
  simp only [valueOf, weight, hcsr, radix_of_sameMemory hmem]

end SameConfiguration

/-- Settles O37: `DECOMP` leaves the digits of the element and the radix sequence as it was, so that `COMP` finds
digits that stand for the element, which is canonical. -/
theorem compUndoesDecomp : Obligations.CompUndoesDecomp := by
  intro ra rd s hs hsealed hround husable
  obtain ⟨-, -, -, hdecomp⟩ := decompWritesDigits ra s
  obtain ⟨t, hexec, hdigits, hregs, hcsr, hmem, -⟩ := hdecomp hsealed husable
  have hvalue : digitsValue t = s.elem ra := by
    have ⟨_, hmax, _⟩ := husable
    calc digitsValue t = valueOf s fun k => (t.digit (BitVec.ofNat 5 k)).toNat :=
          valueOf_of_same hcsr hmem _
      _ = valueOf s (digitOf s (s.elem ra)) := valueOf_congr fun k hk => by
          have hreg : (BitVec.ofNat 5 k).toNat = k := toNat_regNum (hk.trans_le hmax)
          rw [hdigits, hreg, if_pos hk]
      _ = s.elem ra := valueOf_digitOf husable _
  have hcanonical : digitsValue t < t.p := by
    rw [hvalue, p_of_csr_eq hcsr]
    exact hs.registers ra
  obtain ⟨-, -, -, -, hcomp⟩ := compWritesValue rd t
  obtain ⟨u, hexec', helem, ⟨hother, -⟩, -⟩ := hcomp (by rwa [Sealed, hcsr])
    (by rwa [InRound, hcsr]) (husable.of_same hcsr hmem) hcanonical
  exact ⟨t, u, hexec, hexec', helem.trans hvalue, fun r hr => (hother r hr).trans (hregs r)⟩

end Sys2Proof.Machine

/-! # The linear layer: the four layer commands, the two equivalences, and the rounds built on them

The statements of the family of linear layers (R190 to R202, R241 to R246). What a command of the state vector
leaves is said once, `vectorCommand_writesVector`; each layer then has one equation for a word of its result, over
any vector, and the equivalences of R192 and R195 are equations between layers, not between commands. -/

namespace Sys2Proof.Machine

/-! ### The width of the state, and its words (R23, R31) -/

/-- A sealed unit has a width that its registers hold (R48 (d), R134 (a)). -/
theorem width_of_sealed {s : State} (hs : Inv s) (hsealed : Sealed s) :
    2 ≤ s.csr.t.toNat ∧ s.csr.t.toNat ≤ 32 := by
  obtain ⟨hwidth, -⟩ := (sealOk_iff s).mp (hs.sealedChecks hsealed)
  exact hwidth

theorem lt_vec_length {s : State} {k : RegNum} (hk : k.toNat < s.csr.t.toNat) :
    k.toNat < s.vec.length := by
  rw [vec_length]
  exact lt_min hk k.isLt

theorem wordAt_vec {s : State} {k : RegNum} (hk : k.toNat < s.csr.t.toNat) :
    wordAt s.vec k.toNat = s.elem k :=
  vec_getD s k hk

theorem wordAt_vec_eq_stateWord {s : State} (hwidth : s.csr.t.toNat ≤ 32) {j : Nat}
    (hj : j < s.csr.t.toNat) : wordAt s.vec j = stateWord s j := by
  have hreg : (BitVec.ofNat 5 j).toNat = j := toNat_regNum (hj.trans_le hwidth)
  have hword := wordAt_vec (s := s) (k := BitVec.ofNat 5 j) (by rwa [hreg])
  rwa [hreg] at hword

/-- A sum over the words of the state vector is a sum over the document's state. -/
theorem sum_range_vec {s : State} (hwidth : s.csr.t.toNat ≤ 32) (f : Nat → Nat → Nat) :
    ∑ j ∈ Finset.range s.vec.length, f j (wordAt s.vec j) =
      ∑ j ∈ Finset.range s.csr.t.toNat, f j (stateWord s j) := by
  rw [vec_length_of_le hwidth]
  exact Finset.sum_congr rfl fun j hj => by
    rw [wordAt_vec_eq_stateWord hwidth (Finset.mem_range.mp hj)]

/-! ### A command that writes the state vector (R202, R210) -/

section VectorCommand

variable {i : Instr} {s : State} {v : List Nat}

theorem layerChecks_of_vectorCommand {result : Except Err (List Nat)}
    (hexec : exec i s = vectorCommand s result) : LayerChecks i s :=
  layerChecks_of_exec hexec

/-- With both checks passed, a canonical vector of the unit's width is written and all else is unchanged. -/
theorem vectorCommand_writesVector (hexec : exec i s = vectorCommand s (.ok v)) (hsealed : Sealed s)
    (hround : ¬InRound s) (hlen : v.length = s.vec.length) (hbelow : WordsBelow s.p v) :
    ∃ t, exec i s = .next t ∧
      (∀ k : RegNum, k.toNat < s.csr.t.toNat → t.elem k = wordAt v k.toNat) ∧
      OnlyVector s t ∧ Responds s t 0#8 0#64 := by
  have hpass : firstFailure [needsSealed s, needsNotInRound s] = none := by
    simp [needsSealed_of_sealed hsealed, needsNotInRound_of_not_inRound hround]
  refine ⟨_, hexec.trans (command_ok (s.setVec v) _ hpass), fun k hk => ?_,
    ⟨setVec_sameScratch hlen, fun _ => rfl, rfl, fun _ => rfl⟩, rfl, rfl, rfl⟩
  have hk' : k.toNat < v.length := by
    rw [hlen]
    exact lt_vec_length hk
  rw [answer_elem, elem_setVec, if_pos hk']
  exact Nat.mod_eq_of_lt ((hbelow.getD_lt (p_pos s) _).trans (p_lt s))

end VectorCommand

/-! ### The words of each layer (R190, R191, R194, R197) -/

section Words

variable (s : State) {v : List Nat} {i : Nat}

theorem wordAt_dense (b : BitVec 1) (hi : i < v.length) :
    wordAt (dense s b v) i = (∑ j ∈ Finset.range v.length, s.mat b i j * wordAt v j) % s.p := by
  rw [dense, wordAt_tabulate _ hi, dotMod_tabulate]

theorem wordAt_circ (hi : i < v.length) :
    wordAt (circ s v) i =
      (∑ j ∈ Finset.range v.length, s.crow ((j + (v.length - i)) % v.length) * wordAt v j) % s.p := by
  rw [circ, wordAt_tabulate _ hi, dotMod_tabulate]

theorem wordAt_cheap_zero (h0 : 0 < v.length) :
    wordAt (cheap s v) 0 = (∑ j ∈ Finset.range v.length, s.what j * wordAt v j) % s.p := by
  rw [cheap, wordAt_tabulate _ h0, if_pos rfl, dotMod_tabulate]

theorem wordAt_cheap_pos (h1 : 1 ≤ i) (hi : i < v.length) :
    wordAt (cheap s v) i = (s.muCoeff i * wordAt v i + s.vCoeff i * wordAt v 0) % s.p := by
  rw [cheap, wordAt_tabulate _ hi, if_neg (Nat.ne_of_gt h1)]
  exact (Nat.add_mod ..).symm

theorem wordAt_affine (k : Nat) (hi : i < v.length) :
    wordAt (affine s k v) i =
      (wordAt v i + ∑ j ∈ Finset.range v.length, wordAt v j + s.rc k i) % s.p := by
  rw [affine, wordAt_tabulate _ hi, sum_eq, addMod, addMod, Nat.mod_add_mod, Nat.add_right_comm,
    Nat.add_mod_mod, Nat.add_right_comm]

end Words

/-! ### The circulant matrix (R191) -/

/-- The index `(j - i) mod n` of R191, taken without a negative number. -/
theorem toNat_sub_emod {i n : Nat} (j : Nat) (hi : i < n) :
    (((j : Int) - (i : Int)) % (n : Int)).toNat = (j + (n - i)) % n := by
  have hshift : ((j + (n - i) : Nat) : Int) = (j : Int) - i + n := by omega
  have hmod : ((j : Int) - i) % n = (((j + (n - i)) % n : Nat) : Int) := by
    rw [Int.natCast_emod, hshift, Int.add_emod_right]
  rw [hmod, Int.toNat_natCast]

/-- Rotating the coefficients right by `i` is rotating the words left by `i`: the two forms of R191. -/
theorem sum_rotate {i n : Nat} (hi : i < n) (c x : Nat → Nat) :
    ∑ j ∈ Finset.range n, c ((j + (n - i)) % n) * x j =
      ∑ m ∈ Finset.range n, c m * x ((i + m) % n) := by
  have hn : 0 < n := Nat.zero_lt_of_lt hi
  have hback : ∀ j < n, (i + (j + (n - i)) % n) % n = j := fun j hj => by
    rw [Nat.add_mod_mod, show i + (j + (n - i)) = j + n by omega, Nat.add_mod_right,
      Nat.mod_eq_of_lt hj]
  have hforth : ∀ m < n, ((i + m) % n + (n - i)) % n = m := fun m hm => by
    rw [Nat.mod_add_mod, show i + m + (n - i) = m + n by omega, Nat.add_mod_right,
      Nat.mod_eq_of_lt hm]
  refine Finset.sum_nbij' (fun j => (j + (n - i)) % n) (fun m => (i + m) % n) ?_ ?_ ?_ ?_ ?_
  · exact fun _ _ => Finset.mem_range.mpr (Nat.mod_lt _ hn)
  · exact fun _ _ => Finset.mem_range.mpr (Nat.mod_lt _ hn)
  · exact fun j hj => hback j (Finset.mem_range.mp hj)
  · exact fun m hm => hforth m (Finset.mem_range.mp hm)
  · intro j hj
    rw [hback j (Finset.mem_range.mp hj)]

/-! ### The commands (R198 to R201) -/

section Exec

variable (s : State)

theorem exec_mdsd (b : BitVec 1) : exec (.mdsd b) s = vectorCommand s (.ok (dense s b s.vec)) := rfl

theorem exec_mdsc : exec .mdsc s = vectorCommand s (.ok (circ s s.vec)) := rfl

theorem exec_mdsch : exec .mdsch s = vectorCommand s (.ok (cheap s s.vec)) := rfl

theorem exec_affine (row : RowNum) :
    exec (.affine row) s = vectorCommand s (.ok (affine s row.toNat s.vec)) := rfl

end Exec

/-- Settles O38: a word of the dense product, summed over the document's state. -/
theorem mdsdIsDenseProduct : Obligations.MdsdIsDenseProduct := by
  intro b s
  refine ⟨decode_encode (.mdsd b), layerChecks_of_vectorCommand (exec_mdsd s b),
    fun hs hsealed hround => ?_⟩
  obtain ⟨-, hwidth⟩ := width_of_sealed hs hsealed
  obtain ⟨t, hexec, hwords, hframe, hresp⟩ := vectorCommand_writesVector (exec_mdsd s b) hsealed
    hround (tabulate_length _ _) (dense_below s b s.vec)
  refine ⟨t, hexec, fun k hk => ?_, hframe, hresp⟩
  rw [hwords k hk, wordAt_dense s b (lt_vec_length hk),
    sum_range_vec hwidth fun j x => s.mat b k.toNat j * x]

/-- Settles O39: the model's sum is the first form of R191 by `toNat_sub_emod`, and the second by
`sum_rotate`. -/
theorem mdscIsCirculantProduct : Obligations.MdscIsCirculantProduct := by
  intro s
  refine ⟨decode_encode .mdsc, layerChecks_of_vectorCommand (exec_mdsc s), fun hs hsealed hround => ?_⟩
  obtain ⟨-, hwidth⟩ := width_of_sealed hs hsealed
  obtain ⟨t, hexec, hwords, hframe, hresp⟩ := vectorCommand_writesVector (exec_mdsc s) hsealed
    hround (tabulate_length _ _) (circ_below s s.vec)
  refine ⟨t, hexec, fun k hk => ?_, hframe, hresp⟩
  have hword : t.elem k =
      (∑ j ∈ Finset.range s.csr.t.toNat,
        s.crow ((j + (s.csr.t.toNat - k.toNat)) % s.csr.t.toNat) * stateWord s j) % s.p := by
    rw [hwords k hk, wordAt_circ s (lt_vec_length hk), sum_range_vec hwidth fun j x =>
      s.crow ((j + (s.vec.length - k.toNat)) % s.vec.length) * x, vec_length_of_le hwidth]
  constructor
  · simpa only [toNat_sub_emod _ hk] using hword
  · rw [hword, sum_rotate hk]

/-- Settles O40: word 0 has the row vector's sum, every other word its own scalar and word 0. -/
theorem mdschIsCheapLayer : Obligations.MdschIsCheapLayer := by
  intro s
  refine ⟨decode_encode .mdsch, layerChecks_of_vectorCommand (exec_mdsch s), fun hs hsealed hround => ?_⟩
  obtain ⟨hpos, hwidth⟩ := width_of_sealed hs hsealed
  obtain ⟨t, hexec, hwords, hframe, hresp⟩ := vectorCommand_writesVector (exec_mdsch s) hsealed
    hround (tabulate_length _ _) (cheap_below s s.vec)
  have hzero : (0#5).toNat < s.csr.t.toNat := Nat.lt_of_lt_of_le (by decide) hpos
  refine ⟨t, hexec, ?_, fun k h1 hk => ?_, hframe, hresp⟩
  · have hword : t.elem 0#5 = wordAt (cheap s s.vec) 0 := hwords 0#5 hzero
    rw [hword, wordAt_cheap_zero s (lt_vec_length hzero), sum_range_vec hwidth fun j x => s.what j * x]
  · have hword0 : wordAt s.vec 0 = s.elem 0#5 := wordAt_vec hzero
    rw [hwords k hk, wordAt_cheap_pos s h1 (lt_vec_length hk), wordAt_vec hk, hword0]

/-- Settles O41: the model reduces the sum of the words before it adds, which the last reduction absorbs. -/
theorem affineAddsSumAndRow : Obligations.AffineAddsSumAndRow := by
  intro row s
  refine ⟨decode_encode (.affine row), layerChecks_of_vectorCommand (exec_affine s row),
    fun hs hsealed hround => ?_⟩
  obtain ⟨-, hwidth⟩ := width_of_sealed hs hsealed
  obtain ⟨t, hexec, hwords, hframe, hresp⟩ := vectorCommand_writesVector (exec_affine s row) hsealed
    hround (tabulate_length _ _) (affine_below s row.toNat s.vec)
  refine ⟨t, hexec, fun k hk => ?_, hframe, hresp⟩
  rw [hwords k hk, wordAt_affine s row.toNat (lt_vec_length hk), wordAt_vec hk,
    sum_range_vec hwidth fun _ x => x]

/-! ### Layers that agree (R192, R195) -/

/-- Two vectors of one length with the same words are the same. -/
theorem ext_wordAt {v w : List Nat} (hlen : v.length = w.length)
    (h : ∀ i < v.length, wordAt v i = wordAt w i) : v = w := by
  refine List.ext_getElem hlen fun i hv hw => ?_
  have hword := h i hv
  rwa [wordAt, wordAt, List.getD_eq_getElem _ _ hv, List.getD_eq_getElem _ _ hw] at hword

section Agree

variable {s : State} {b : BitVec 1} {v : List Nat} (hlen : v.length = s.csr.t.toNat)

include hlen

/-- R192 on any vector of the unit's width: the matrix of the bank has the circulant's rows. -/
theorem circ_eq_dense (hbank : BankIsCirculant s b) : circ s v = dense s b v := by
  refine ext_wordAt (by simp [circ, dense]) fun i hi => ?_
  have hi : i < v.length := by simpa [circ] using hi
  rw [wordAt_circ s hi, wordAt_dense s b hi]
  congr 1
  refine Finset.sum_congr rfl fun j hj => ?_
  rw [hbank i j (hlen ▸ hi) (hlen ▸ Finset.mem_range.mp hj), ← hlen, toNat_sub_emod j hi]

/-- Row `i ≥ 1` of the matrix `SP` has two entries, the one at 0 and the one at `i` (R195). -/
theorem sum_cheap_row (hbank : BankIsCheap s b) {i : Nat} (h1 : 1 ≤ i) (hi : i < v.length) :
    ∑ j ∈ Finset.range v.length, s.mat b i j * wordAt v j =
      s.muCoeff i * wordAt v i + s.vCoeff i * wordAt v 0 := by
  obtain ⟨-, hrow⟩ := hbank
  obtain ⟨hv, hmu, hothers⟩ := hrow i h1 (hlen ▸ hi)
  rw [← hv, ← hmu]
  refine Finset.sum_eq_add_of_mem i 0 (Finset.mem_range.mpr hi)
    (Finset.mem_range.mpr (Nat.zero_lt_of_lt hi)) (Nat.ne_of_gt h1) fun j hj ⟨hji, hj0⟩ => ?_
  rw [hothers j (Nat.one_le_iff_ne_zero.mpr hj0) (hlen ▸ Finset.mem_range.mp hj) hji, Nat.zero_mul]

/-- R195 on any vector of the unit's width: row 0 of `SP` is `WHAT`, the other rows have two entries. -/
theorem cheap_eq_dense (hbank : BankIsCheap s b) : cheap s v = dense s b v := by
  refine ext_wordAt (by simp [cheap, dense]) fun i hi => ?_
  have hi : i < v.length := by simpa [cheap] using hi
  rw [wordAt_dense s b hi]
  obtain rfl | h1 := Nat.eq_zero_or_pos i
  · rw [wordAt_cheap_zero s hi]
    congr 1
    obtain ⟨hrow0, -⟩ := hbank
    exact Finset.sum_congr rfl fun j hj => by rw [hrow0 j (hlen ▸ Finset.mem_range.mp hj)]
  · rw [wordAt_cheap_pos s h1 hi, sum_cheap_row hlen hbank h1 hi]

end Agree

/-- Settles O42: the two commands write the same vector after the same checks. -/
theorem circulantEqualsDense : Obligations.CirculantEqualsDense := fun b s hwidth hbank => by
  rw [exec_mdsc, exec_mdsd, circ_eq_dense (vec_length_of_le hwidth) hbank]

/-- Settles O43: the two commands write the same vector after the same checks. -/
theorem cheapEqualsDense : Obligations.CheapEqualsDense := fun b s hwidth hbank => by
  rw [exec_mdsch, exec_mdsd, cheap_eq_dense (vec_length_of_le hwidth) hbank]

/-! ### The rounds (R196, R241 to R246) -/

section Round

variable {s : State} (r : Nat) (v : List Nat)

theorem lin_eq_dense (h : s.csr.lsel = 0#1) : lin s v = dense s 0#1 v := if_pos h

theorem lin_eq_circ (h : s.csr.lsel = 1#1) : lin s v = circ s v := if_neg (by rw [h]; decide)

theorem round_poseidon (h : s.csr.var = 0#3) : round s r v = .ok (poseidonRound s r v) := by
  simp [round, h]

theorem round_rescue (h : s.csr.var = 1#3) : round s r v = rescueRound s r v := by simp [round, h]

theorem round_feistel (h : s.csr.var = 2#3) : round s r v = .ok (feistelRound s r v) := by
  simp [round, h]

theorem round_monolith (h : s.csr.var = 3#3) : round s r v = .ok (monolithRound s r v) := by
  simp [round, h]

theorem round_rc (h : s.csr.var = 4#3) : round s r v = rcRound s r v := by simp [round, h]

/-- A round of the first or the last block of POSEIDON maps every word (R242). -/
theorem poseidonRound_full {r : Nat}
    (h : r < s.csr.rfb.toNat ∨ s.csr.rfb.toNat + s.csr.rp.toNat ≤ r) :
    poseidonRound s r v = lin s (sboxFull s (addRc s r v)) := if_pos h

/-- A round of its middle block maps word 0 only, and has a layer of its own (R242). -/
theorem poseidonRound_middle {r : Nat} (hlo : s.csr.rfb.toNat ≤ r)
    (hhi : r < s.csr.rfb.toNat + s.csr.rp.toNat) :
    poseidonRound s r v = if s.csr.isel = 0#1 then cheap s (sboxWord0 s (addRc s r v))
      else dense s 1#1 (sboxWord0 s (addRc s r v)) := if_neg (by omega)

variable {r v}

theorem rescueRound_of_error {e : Err}
    (h : sboxInv s (addRc s (2 * r) (lin s (sboxFull s v))) = .error e) :
    rescueRound s r v = .error e := by simp [rescueRound, h]

theorem rescueRound_of_ok {b : List Nat}
    (h : sboxInv s (addRc s (2 * r) (lin s (sboxFull s v))) = .ok b) :
    rescueRound s r v = .ok (addRc s (2 * r + 1) (lin s b)) := by simp [rescueRound, h]

theorem rcRound_of_bricks (h : s.csr.barmask.getLsbD r = false) :
    rcRound s r v = .ok (affine s r (bricks s v)) := by simp [rcRound, h]

theorem rcRound_of_bars_error {e : Err} (h : s.csr.barmask.getLsbD r = true)
    (hbars : rcBars s v = .error e) : rcRound s r v = .error e := by simp [rcRound, h, hbars]

theorem rcRound_of_bars_ok {n : List Nat} (h : s.csr.barmask.getLsbD r = true)
    (hbars : rcBars s v = .ok n) : rcRound s r v = .ok (affine s r n) := by simp [rcRound, h, hbars]

end Round

/-- Settles O54: the strategy of the linear layer, then the variants in the order of R242 to R246. -/
theorem roundStructures : Obligations.RoundStructures := by
  intro s r v
  refine ⟨lin_eq_dense v, lin_eq_circ v, fun hvar _ hfull => ?_, fun hvar _ hlo hhi => ?_,
    fun hvar _ => ?_, fun hvar hlt => ?_, fun hvar hlast => ?_, fun hvar _ => round_monolith r v hvar,
    fun hvar _ hmask => ?_, fun hvar _ hmask => ?_⟩
  · rw [round_poseidon r v hvar, poseidonRound_full v hfull]
  · rw [round_poseidon r v hvar, poseidonRound_middle v hlo hhi]
  · rw [round_rescue r v hvar]
    exact ⟨fun _ => rescueRound_of_error, fun _ => rescueRound_of_ok⟩
  · rw [round_feistel r v hvar, feistelRound, decide_eq_true hlt]
  · rw [round_feistel r v hvar, feistelRound, decide_eq_false (by omega)]
  · rw [round_rc r v hvar, rcRound_of_bricks hmask]
  · rw [round_rc r v hvar]
    exact ⟨fun _ => rcRound_of_bars_error hmask, fun _ => rcRound_of_bars_ok hmask⟩

end Sys2Proof.Machine

/-! # The round primitives: constants, S-boxes, bricks, bars, the bars of the RC variant, the Feistel step

The statements of the family of round primitives (R210 to R228). Every command writes the state vector after the two
checks of R210, which `vectorCommand_writesVector` says once; each function then has its words, over any vector. The
bijections of R221 and of R217, R226 are injective maps of a finite set into itself. -/

namespace Sys2Proof.Machine

/-! ### The commands (R210) -/

section Exec

variable (s : State)

theorem exec_arc (row : RowNum) :
    exec (.arc row) s = vectorCommand s (.ok (addRc s row.toNat s.vec)) := rfl

theorem exec_sboxf : exec .sboxf s = vectorCommand s (.ok (sboxFull s s.vec)) := rfl

theorem exec_sbox0 : exec .sbox0 s = vectorCommand s (.ok (sboxWord0 s s.vec)) := rfl

theorem exec_sboxi : exec .sboxi s = vectorCommand s (sboxInv s s.vec) := rfl

theorem exec_bricks : exec .bricks s = vectorCommand s (.ok (bricks s s.vec)) := rfl

theorem exec_rcbars : exec .rcbars s = vectorCommand s (rcBars s s.vec) := rfl

theorem exec_feis (rot : BitVec 1) (row : RowNum) :
    exec (.feis rot row) s =
      vectorCommand s (.ok (feistelStep s row.toNat (rot == 1#1) s.vec)) := rfl

/-- The two implementations of the bar map give the same command (R222). -/
theorem exec_bars (impl : BitVec 1) :
    exec (.bars impl) s = vectorCommand s (.ok (bars s barWord s.vec)) := by
  have himpl : (if impl = 0#1 then barWord else barWordLut) = barWord := by
    split
    · rfl
    · exact funext fun f => funext (barWordLut_eq_barWord f)
  exact congrArg (fun wordMap => vectorCommand s (.ok (bars s wordMap s.vec))) himpl

end Exec

/-- With both checks passed, a function without value raises its error. -/
theorem raisesOn_of_vectorCommand_error {i : Instr} {s : State} {result : Except Err (List Nat)}
    {e : Err} (hexec : exec i s = vectorCommand s result) (hsealed : Sealed s) (hround : ¬InRound s)
    (hresult : result = .error e) : RaisesOn i s e := by
  subst hresult
  exact raisesOn_of_exec (hexec.trans (command_error e
    (by simp [needsSealed_of_sealed hsealed, needsNotInRound_of_not_inRound hround])))

/-- Register 0 is a word of every sealed unit's state vector. -/
theorem zero_lt_width {s : State} (hs : Inv s) (hsealed : Sealed s) :
    (0#5).toNat < s.csr.t.toNat :=
  Nat.lt_of_lt_of_le (by decide) (width_of_sealed hs hsealed).1

/-- Of a command that writes the state vector, the frame when it changes no word but word 0. -/
theorem onlyReg_zero_of_onlyVector {s t : State} (h : OnlyVector s t)
    (hwords : ∀ k : RegNum, k ≠ 0#5 → k.toNat < s.csr.t.toNat → t.elem k = s.elem k) :
    OnlyReg 0#5 s t := by
  obtain ⟨hscratch, hrest⟩ := h
  refine ⟨fun k hk => ?_, hrest⟩
  obtain hlt | hge := Nat.lt_or_ge k.toNat s.csr.t.toNat
  · exact hwords k hk hlt
  · exact hscratch k hge

/-! ### The words of constants and S-boxes (R211, R213, R214) -/

section Words

variable (s : State) {v : List Nat} {i : Nat}

theorem wordAt_addRc (k : Nat) (hi : i < v.length) :
    wordAt (addRc s k v) i = (wordAt v i + s.rc k i) % s.p :=
  wordAt_tabulate _ hi

/-- The power with the S-box degree, which three bits hold. -/
theorem powMod_degree (x : Nat) : powMod s.p x s.degree = x ^ s.csr.d.toNat % s.p :=
  powMod_eq (one_lt_p s) x _ (s.csr.d.isLt.trans (by decide))

theorem wordAt_sboxFull (hi : i < v.length) :
    wordAt (sboxFull s v) i = wordAt v i ^ s.csr.d.toNat % s.p := by
  rw [sboxFull, wordAt_tabulate _ hi, powMod_degree]

theorem wordAt_sboxWord0_zero (h0 : 0 < v.length) :
    wordAt (sboxWord0 s v) 0 = wordAt v 0 ^ s.csr.d.toNat % s.p := by
  rw [sboxWord0, wordAt_tabulate _ h0, if_pos rfl, powMod_degree]

theorem wordAt_sboxWord0_of_ne (hne : i ≠ 0) (hi : i < v.length) :
    wordAt (sboxWord0 s v) i = wordAt v i := by
  rw [sboxWord0, wordAt_tabulate _ hi, if_neg hne]

end Words

/-- Settles O44: a word of the sum with the row. -/
theorem arcAddsRow : Obligations.ArcAddsRow := by
  intro row s
  refine ⟨decode_encode (.arc row), layerChecks_of_vectorCommand (exec_arc s row),
    fun _ hsealed hround => ?_⟩
  obtain ⟨t, hexec, hwords, hframe, hresp⟩ := vectorCommand_writesVector (exec_arc s row) hsealed
    hround (tabulate_length _ _) (addRc_below s row.toNat s.vec)
  refine ⟨t, hexec, fun k hk => ?_, hframe, hresp⟩
  rw [hwords k hk, wordAt_addRc s _ (lt_vec_length hk), wordAt_vec hk]

/-- Settles O45: square-and-multiply gives the power; `SBOX0` writes the other words as they were. -/
theorem sboxfSbox0Power : Obligations.SboxfSbox0Power := by
  intro s
  refine ⟨decode_encode .sboxf, decode_encode .sbox0, layerChecks_of_vectorCommand (exec_sboxf s),
    layerChecks_of_vectorCommand (exec_sbox0 s), fun hs hsealed hround => ⟨?_, ?_⟩⟩
  · obtain ⟨t, hexec, hwords, hframe, hresp⟩ := vectorCommand_writesVector (exec_sboxf s) hsealed
      hround (tabulate_length _ _) (sboxFull_below s s.vec)
    refine ⟨t, hexec, fun k hk => ?_, hframe, hresp⟩
    rw [hwords k hk, wordAt_sboxFull s (lt_vec_length hk), wordAt_vec hk]
  · obtain ⟨t, hexec, hwords, hframe, hresp⟩ := vectorCommand_writesVector (exec_sbox0 s) hsealed
      hround (tabulate_length _ _) (sboxWord0_below (vec_below hs.registers))
    have hzero := zero_lt_width hs hsealed
    refine ⟨t, hexec, ?_, onlyReg_zero_of_onlyVector hframe fun k hne hk => ?_, hresp⟩
    · rw [← wordAt_vec hzero]
      exact (hwords 0#5 hzero).trans (wordAt_sboxWord0_zero s (lt_vec_length hzero))
    · have hne' : k.toNat ≠ 0 := fun h => hne (BitVec.eq_of_toNat_eq h)
      rw [hwords k hk, wordAt_sboxWord0_of_ne s hne' (lt_vec_length hk), wordAt_vec hk]

/-! ### The inverse exponent (R215) -/

theorem two_lt_modulus (f : Field) : 2 < f.modulus := by cases f <;> decide

section InverseExponent

variable {d m : Nat}

/-- The search for the inverse exponent succeeds: an inverse `e` of `d` gives the `k` with `d * e = k * m + 1`. -/
theorem exists_numerator (hm : 1 < m) (h : Nat.gcd d m = 1) :
    ∃ k ∈ List.range d, ((k * m + 1) % d == 0) = true := by
  obtain ⟨e, he, hde⟩ := Nat.exists_mul_mod_eq_one_of_coprime h hm
  have hk : d * e / m * m + 1 = d * e := by rw [← hde, Nat.div_add_mod']
  have hd : 0 < d := Nat.pos_of_ne_zero fun h0 => by simp [h0] at hde
  have hlt : d * e / m < d :=
    Nat.div_lt_of_lt_mul (by rw [Nat.mul_comm m]; exact Nat.mul_lt_mul_of_pos_left he hd)
  exact ⟨_, List.mem_range.mpr hlt, by simp [hk]⟩

/-- The quotient of such a `k * m + 1` by `d` is an inverse of `d` below `m`. -/
theorem quotient_is_inverse (hm : 1 < m) {k : Nat} (hk : k < d) (hdvd : (k * m + 1) % d = 0) :
    1 ≤ (k * m + 1) / d ∧ (k * m + 1) / d < m ∧ d * ((k * m + 1) / d) % m = 1 := by
  have hprod : d * ((k * m + 1) / d) = k * m + 1 := Nat.mul_div_cancel' (Nat.dvd_of_mod_eq_zero hdvd)
  have hbound : k * m + 1 < m * d := by
    have : (k + 1) * m ≤ d * m := Nat.mul_le_mul_right m hk
    rw [Nat.mul_comm m]
    linarith
  refine ⟨Nat.one_le_iff_ne_zero.mpr fun h0 => ?_, Nat.div_lt_of_lt_mul (by rwa [Nat.mul_comm d]), ?_⟩
  · simp [h0] at hprod
  · rw [hprod, Nat.mul_add_mod', Nat.mod_eq_of_lt hm]

/-- Where the degree is coprime to `p - 1`, the model finds an exponent of R215. -/
theorem exists_inverseExponent {p : Nat} (hp : 2 < p) (h : Nat.gcd d (p - 1) = 1) :
    ∃ e, inverseExponent d p = some e ∧ 1 ≤ e ∧ e < p - 1 ∧ d * e % (p - 1) = 1 := by
  have hm : 1 < p - 1 := by omega
  obtain ⟨k, hk⟩ := Option.isSome_iff_exists.mp (List.find?_isSome.mpr (exists_numerator hm h))
  have hdvd : (k * (p - 1) + 1) % d = 0 := by simpa using List.find?_some hk
  refine ⟨(k * (p - 1) + 1) / d, ?_,
    quotient_is_inverse hm (List.mem_range.mp (List.mem_of_find?_eq_some hk)) hdvd⟩
  rw [inverseExponent, if_pos h, hk, Option.map_some]

theorem inverseExponent_of_not_coprime {p : Nat} (h : Nat.gcd d (p - 1) ≠ 1) :
    inverseExponent d p = none := if_neg h

/-- An inverse modulo `m` is unique below `m`. -/
theorem exponent_unique (h : Nat.gcd d m = 1) {e e' : Nat} (he : e < m) (he' : e' < m)
    (hde : d * e % m = 1) (hde' : d * e' % m = 1) : e' = e :=
  Nat.ModEq.eq_of_lt_of_lt
    (Nat.ModEq.cancel_left_of_coprime (Nat.gcd_comm d m ▸ h) (hde'.trans hde.symm)) he' he

end InverseExponent

/-! ### The inverse S-box (R215, R216) -/

section InverseSbox

variable {s : State} {v : List Nat}

theorem sboxInv_of_none (h : inverseExponent s.degree s.p = none) :
    sboxInv s v = .error .invalidConfiguration := by simp [sboxInv, h]

/-- The inverse S-box on every word, as R216 writes it. -/
theorem sboxInv_of_some {e : Nat} (h : inverseExponent s.degree s.p = some e) (he : e < s.p) :
    ∃ w, sboxInv s v = .ok w ∧ w.length = v.length ∧ WordsBelow s.p w ∧
      ∀ i < v.length, wordAt w i = if wordAt v i = 0 then 0 else wordAt v i ^ e % s.p := by
  obtain ⟨w, hw⟩ : ∃ w, sboxInv s v = .ok w := ⟨_, by rw [sboxInv, h]⟩
  refine ⟨w, hw, sboxInv_length hw, sboxInv_below hw, fun i hi => ?_⟩
  rw [sboxInv, h] at hw
  cases hw
  rw [wordAt_tabulate _ hi, powMod_eq (one_lt_p s) _ _ (he.trans (p_lt s))]

end InverseSbox

/-- Settles O46: the model's search finds the exponent whenever it exists, and a factor coprime to `p - 1` cancels,
so there is no other. -/
theorem sboxiInversePower : Obligations.SboxiInversePower := by
  intro s
  refine ⟨decode_encode .sboxi, layerChecks_of_vectorCommand (exec_sboxi s),
    fun hsealed hround hgcd => ?_, fun _ hsealed hround hgcd => ?_⟩
  · exact raisesOn_of_vectorCommand_error (exec_sboxi s) hsealed hround
      (sboxInv_of_none (inverseExponent_of_not_coprime hgcd))
  · obtain ⟨e, hsome, hpos, hlt, hinv⟩ := exists_inverseExponent (two_lt_modulus s.field) hgcd
    obtain ⟨w, hw, hlen, hbelow, hpow⟩ :=
      sboxInv_of_some (v := s.vec) hsome (hlt.trans_le (Nat.sub_le ..))
    obtain ⟨t, hexec, hwords, hframe, hresp⟩ :=
      vectorCommand_writesVector (hw ▸ exec_sboxi s) hsealed hround hlen hbelow
    refine ⟨t, e, hexec, hpos, hlt, hinv, fun e' _ hlt' hinv' =>
      exponent_unique hgcd hlt hlt' hinv hinv', fun k hk => ?_, hframe, hresp⟩
    rw [hwords k hk, hpow _ (lt_vec_length hk), wordAt_vec hk]

/-! ### The inverse S-box undoes the S-box (R215) -/

section Powers

variable {p d e x : Nat}

/-- Raising to a multiple of `p - 1`, plus one, keeps every canonical element: Fermat, and 0 kept as 0. -/
theorem pow_mul_pred_add_one_mod (hp : p.Prime) (hx : x < p) (k : Nat) :
    x ^ (k * (p - 1) + 1) % p = x := by
  obtain rfl | h0 := eq_or_ne x 0
  · rw [zero_pow (Nat.succ_ne_zero _), Nat.zero_mod]
  · rw [pow_succ, mul_comm k, pow_mul, Nat.mul_mod, Nat.pow_mod, pow_pred_mod_prime hp h0 hx, one_pow,
      Nat.mod_eq_of_lt hp.one_lt, one_mul, Nat.mod_mod, Nat.mod_eq_of_lt hx]

/-- Powers with inverse exponents undo each other. -/
theorem pow_pow_mod_of_inverse (hp : p.Prime) (hx : x < p) (h : d * e % (p - 1) = 1) :
    (x ^ d % p) ^ e % p = x := by
  have hexp : d * e = d * e / (p - 1) * (p - 1) + 1 := by
    simpa only [h] using (Nat.div_add_mod' (d * e) (p - 1)).symm
  rw [← Nat.pow_mod, ← pow_mul, hexp, pow_mul_pred_add_one_mod hp hx]

/-- The power of 0 needs no case of its own where the exponent is not 0. -/
theorem ite_zero_pow_mod (he : 1 ≤ e) (x : Nat) : (if x = 0 then 0 else x ^ e % p) = x ^ e % p := by
  split
  · rename_i h0
    rw [h0, zero_pow (Nat.one_le_iff_ne_zero.mp he), Nat.zero_mod]
  · rfl

end Powers

/-- Two vector commands in a row that restore the state vector restore every register. -/
theorem sameRegs_of_onlyVector {s t u : State} (ht : OnlyVector s t) (hu : OnlyVector t u)
    (hwords : ∀ k : RegNum, k.toNat < s.csr.t.toNat → u.elem k = s.elem k) : SameRegs s u := by
  obtain ⟨hscratch, -, hcsr, -⟩ := ht
  obtain ⟨hscratch', -⟩ := hu
  intro k
  obtain hlt | hge := Nat.lt_or_ge k.toNat s.csr.t.toNat
  · exact hwords k hlt
  · exact (hscratch' k (by rwa [hcsr])).trans (hscratch k hge)

/-- Settles O47: the first command keeps the configuration, hence the exponents, and raising to both exponents in
turn keeps a canonical element. -/
theorem inverseSboxUndoesSbox : Obligations.InverseSboxUndoesSbox := by
  intro s hs hsealed hround hgcd
  have hp : s.p.Prime := modulus_prime s.field
  obtain ⟨-, -, -, -, hsboxf⟩ := sboxfSbox0Power s
  obtain ⟨-, -, -, hsboxi⟩ := sboxiInversePower s
  constructor
  · obtain ⟨⟨t, hexec, hpow, hframe, -⟩, -⟩ := hsboxf hs hsealed hround
    have ⟨_, _, hcsr, _⟩ := hframe
    have hpt : t.p = s.p := p_of_csr_eq hcsr
    obtain ⟨-, -, -, hsboxi'⟩ := sboxiInversePower t
    rw [hcsr, hpt] at hsboxi'
    obtain ⟨u, e, hexec', hpos, -, hinv, -, hpow', hframe', -⟩ := hsboxi' (exec_keeps_inv hs hexec)
      (by rwa [Sealed, hcsr]) (by rwa [InRound, hcsr]) hgcd
    refine ⟨t, u, hexec, hexec', sameRegs_of_onlyVector hframe hframe' fun k hk => ?_⟩
    rw [hpow' k hk, ite_zero_pow_mod hpos, hpow k hk, pow_pow_mod_of_inverse hp (hs.registers k) hinv]
  · obtain ⟨t, e, hexec, hpos, -, hinv, -, hpow, hframe, -⟩ := hsboxi hs hsealed hround hgcd
    have ⟨_, _, hcsr, _⟩ := hframe
    have hpt : t.p = s.p := p_of_csr_eq hcsr
    obtain ⟨-, -, -, -, hsboxf'⟩ := sboxfSbox0Power t
    rw [hcsr, hpt] at hsboxf'
    obtain ⟨⟨u, hexec', hpow', hframe', -⟩, -⟩ := hsboxf' (exec_keeps_inv hs hexec)
      (by rwa [Sealed, hcsr]) (by rwa [InRound, hcsr])
    refine ⟨t, u, hexec, hexec', sameRegs_of_onlyVector hframe hframe' fun k hk => ?_⟩
    rw [hpow' k hk, hpow k hk, ite_zero_pow_mod hpos,
      pow_pow_mod_of_inverse hp (hs.registers k) (Nat.mul_comm _ e ▸ hinv)]

/-! ### Bricks (R217, R218) -/

section Bricks

variable (s : State) {v : List Nat} {i : Nat}

theorem wordAt_bricks_zero (h0 : 0 < v.length) : wordAt (bricks s v) 0 = wordAt v 0 := by
  rw [bricks, wordAt_tabulate _ h0, if_pos rfl]

theorem wordAt_bricks_succ (hi : i + 1 < v.length) :
    wordAt (bricks s v) (i + 1) = (wordAt v (i + 1) + wordAt v i * wordAt v i) % s.p := by
  rw [bricks, wordAt_tabulate _ hi, if_neg (Nat.succ_ne_zero i), addMod, mulMod, Nat.add_mod_mod,
    Nat.add_sub_cancel]

end Bricks

/-- Settles O48: the square is of the word before it as it stood in the vector read. -/
theorem bricksAddOldSquares : Obligations.BricksAddOldSquares := by
  intro s
  refine ⟨decode_encode .bricks, layerChecks_of_vectorCommand (exec_bricks s),
    fun hs hsealed hround => ?_⟩
  obtain ⟨t, hexec, hwords, hframe, hresp⟩ := vectorCommand_writesVector (exec_bricks s) hsealed
    hround (tabulate_length _ _) (bricks_below (vec_below hs.registers))
  have hzero := zero_lt_width hs hsealed
  refine ⟨t, hexec, ?_, fun k h1 hk => ?_, hframe, hresp⟩
  · rw [← wordAt_vec hzero]
    exact (hwords 0#5 hzero).trans (wordAt_bricks_zero s (lt_vec_length hzero))
  · have hpred : k.toNat = (k - 1#5).toNat + 1 := by bv_omega
    rw [hwords k hk, ← wordAt_vec hk, ← wordAt_vec (k := k - 1#5) (by omega), hpred]
    exact wordAt_bricks_succ s (by rw [← hpred]; exact lt_vec_length hk)

/-! ### Bars, bit by bit (R219, R220) -/

theorem getLsbD_rotateLeft_of_lt {w r i : Nat} (x : BitVec w) (hr : r < w) (hi : i < w) :
    (x.rotateLeft r).getLsbD i = x.getLsbD ((i + w - r) % w) := by
  rw [BitVec.getLsbD_rotateLeft, Nat.mod_eq_of_lt hr]
  obtain hlt | hge := Nat.lt_or_ge i r
  · rw [decide_eq_true hlt, cond_true, Nat.mod_eq_of_lt (by omega), show w - r + i = i + w - r by omega]
  · rw [decide_eq_false (by omega), cond_false, decide_eq_true hi, Bool.true_and,
      show i + w - r = i - r + w by omega, Nat.add_mod_right, Nat.mod_eq_of_lt (by omega)]

/-- A bit of a mapped lane, with the indices modulo the lane's width (R219). -/
theorem getLsbD_barLane {w i : Nat} (x : BitVec w) (hw : 3 < w) (hi : i < w) :
    (barLane x).getLsbD i =
      (x.getLsbD i ^^ (!x.getLsbD ((i + w - 1) % w) && x.getLsbD ((i + w - 2) % w) &&
        x.getLsbD ((i + w - 3) % w))) := by
  simp only [barLane, BitVec.getLsbD_xor, BitVec.getLsbD_and, BitVec.getLsbD_not, decide_eq_true hi,
    Bool.true_and, getLsbD_rotateLeft_of_lt x (show 1 < w by omega) hi,
    getLsbD_rotateLeft_of_lt x (show 2 < w by omega) hi, getLsbD_rotateLeft_of_lt x hw hi]

/-- An 8-bit lane of a mapped word in F64 is the lane mapped. -/
theorem lane8_barWord_f64 (x : Word) {k : Nat} (hk : k < 8) :
    lane8 (barWord .f64 x) k = barLane (lane8 x k) := by
  apply BitVec.eq_of_toNat_eq
  rw [lane8_toNat]
  simp only [barWord, toNat_append_eq_add]
  interval_cases k <;> omega

/-- An 8-bit lane of a mapped word in F31 is the lane mapped. -/
theorem lane8_barWord_f31 (x : Word) {k : Nat} (hk : k < 3) :
    lane8 (barWord .f31 x) k = barLane (lane8 x k) := by
  apply BitVec.eq_of_toNat_eq
  rw [lane8_toNat]
  simp only [barWord, toNat_append_eq_add, BitVec.toNat_ofNat]
  interval_cases k <;> omega

/-- The 7-bit lane of a mapped word in F31 is the lane mapped. -/
theorem lane7_barWord_f31 (x : Word) : lane7 (barWord .f31 x) = barLane (lane7 x) := by
  apply BitVec.eq_of_toNat_eq
  rw [lane7_toNat]
  simp only [barWord, toNat_append_eq_add, BitVec.toNat_ofNat]
  omega

section Lanes

variable {f : Field} {bit : Nat}

theorem laneOf_f64 (bit : Nat) : laneOf .f64 bit = (8, 8 * (bit / 8)) := rfl

theorem laneOf_f31_low (h : bit < 24) : laneOf .f31 bit = (8, 8 * (bit / 8)) := if_pos h

theorem laneOf_f31_high (h : ¬bit < 24) : laneOf .f31 bit = (7, 24) := if_neg h

/-- A bit below the width lies in its lane, which is 8 or 7 bits wide (R220). -/
theorem laneOf_bounds (hbit : bit < f.width) :
    ((laneOf f bit).1 = 8 ∨ (laneOf f bit).1 = 7) ∧ (laneOf f bit).2 ≤ bit ∧
      bit - (laneOf f bit).2 < (laneOf f bit).1 := by
  cases f with
  | f64 =>
    rw [laneOf_f64]
    omega
  | f31 =>
    have hwidth : bit < 31 := hbit
    by_cases h : bit < 24
    · rw [laneOf_f31_low h]
      omega
    · rw [laneOf_f31_high h]
      omega

/-- The lane of every bit, of a mapped word, is the lane mapped: the two fields in one form (R220). -/
theorem lane_barWord (x : Word) (hbit : bit < f.width) :
    (barWord f x).extractLsb' (laneOf f bit).2 (laneOf f bit).1 =
      barLane (x.extractLsb' (laneOf f bit).2 (laneOf f bit).1) := by
  cases f with
  | f64 => exact lane8_barWord_f64 x (Nat.div_lt_of_lt_mul hbit)
  | f31 =>
    by_cases h : bit < 24
    · rw [laneOf_f31_low h]
      exact lane8_barWord_f31 x (Nat.div_lt_of_lt_mul h)
    · rw [laneOf_f31_high h]
      exact lane7_barWord_f31 x

/-- A word is its lane at the bits of the lane. -/
theorem getLsbD_lane (x : Word) {lo w i : Nat} (hi : i < w) :
    (x.extractLsb' lo w).getLsbD i = x.getLsbD (lo + i) := by
  rw [BitVec.getLsbD_extractLsb', decide_eq_true hi, Bool.true_and]

theorem barWord_lt_two_pow_width (f : Field) (x : Word) : (barWord f x).toNat < 2 ^ f.width := by
  cases f with
  | f64 => exact (barWord .f64 x).isLt
  | f31 =>
    simp only [barWord, toNat_append_eq_add, BitVec.toNat_ofNat, Field.width]
    omega

/-- The bar map of a word, bit by bit as R219 writes it. -/
theorem testBit_barWord (f : Field) (x : Word) (bit : Nat) :
    (barWord f x).toNat.testBit bit = (decide (bit < f.width) && barBit f x.toNat bit) := by
  obtain hbit | hbit := Nat.lt_or_ge bit f.width
  · obtain ⟨hw, hlo, hi⟩ := laneOf_bounds hbit
    have hlane := congrArg (fun l => l.getLsbD (bit - (laneOf f bit).2)) (lane_barWord x hbit)
    have hpos : 0 < (laneOf f bit).1 := by omega
    rw [getLsbD_lane _ hi, getLsbD_barLane _ (by omega) hi, getLsbD_lane _ hi,
      getLsbD_lane _ (Nat.mod_lt _ hpos), getLsbD_lane _ (Nat.mod_lt _ hpos),
      getLsbD_lane _ (Nat.mod_lt _ hpos), Nat.add_sub_cancel' hlo] at hlane
    rw [decide_eq_true hbit, Bool.true_and]
    exact hlane
  · rw [decide_eq_false (Nat.not_lt.mpr hbit), Bool.false_and]
    exact Nat.testBit_lt_two_pow
      ((barWord_lt_two_pow_width f x).trans_le (Nat.pow_le_pow_right (by decide) hbit))

end Lanes

/-- `BARS` maps a word, read from its register, or keeps it (R223). -/
theorem wordAt_bars (s : State) (wordMap : Field → Word → Word) {v : List Nat} {i : Nat}
    (hi : i < v.length) :
    wordAt (bars s wordMap v) i =
      if i < s.csr.nbars.toNat then (wordMap s.field (BitVec.ofNat 64 (wordAt v i))).toNat
      else wordAt v i :=
  wordAt_tabulate _ hi

/-- Settles O49: both flags run the bit-trick map, whose every lane is the lane mapped. -/
theorem barsMapLanes : Obligations.BarsMapLanes := by
  intro f s
  refine ⟨decode_encode (.bars f), layerChecks_of_vectorCommand (exec_bars s f),
    fun hs hsealed hround => ?_⟩
  obtain ⟨t, hexec, hwords, hframe, hresp⟩ := vectorCommand_writesVector (exec_bars s f) hsealed
    hround (tabulate_length _ _) (bars_below (fun _ _ => barWord_lt) (vec_below hs.registers))
  refine ⟨t, hexec, fun k hk => ?_, hframe, hresp⟩
  rw [hwords k hk, wordAt_bars s _ (lt_vec_length hk), wordAt_vec hk]
  split
  · intro bit
    rw [testBit_barWord, BitVec.toNat_ofNat, Nat.mod_eq_of_lt (elem_lt s k)]
  · rfl

/-! ### The bar map is a bijection (R221) -/

/-- Mapping a lane four times restores it. -/
theorem barLane8_four (a : BitVec 8) : barLane (barLane (barLane (barLane a))) = a := by
  revert a
  decide

theorem barLane7_four (a : BitVec 7) : barLane (barLane (barLane (barLane a))) = a := by
  revert a
  decide

theorem barLane_injective {w : Nat} (hw : w = 8 ∨ w = 7) : Function.Injective (barLane (w := w)) := by
  obtain rfl | rfl := hw
  · exact Function.LeftInverse.injective (g := fun a => barLane (barLane (barLane a))) barLane8_four
  · exact Function.LeftInverse.injective (g := fun a => barLane (barLane (barLane a))) barLane7_four

theorem modulus_le_two_pow_width (f : Field) : f.modulus ≤ 2 ^ f.width := by cases f <;> decide

/-- The elements of the field, in their containers. -/
def canonicalWords (f : Field) : Set Word := {x | x.toNat < f.modulus}

/-- Words with the same image have the same lanes, hence the same bits below the width; canonical words have no
other bits. -/
theorem barWord_injOn (f : Field) : Set.InjOn (barWord f) (canonicalWords f) := by
  intro x hx y hy hxy
  have hzero : ∀ z ∈ canonicalWords f, ∀ bit, f.width ≤ bit → z.getLsbD bit = false :=
    fun z hz bit hbit => Nat.testBit_lt_two_pow (hz.trans_le
      ((modulus_le_two_pow_width f).trans (Nat.pow_le_pow_right (by decide) hbit)))
  refine BitVec.eq_of_getLsbD_eq fun bit _ => ?_
  obtain hbit | hbit := Nat.lt_or_ge bit f.width
  · obtain ⟨hw, hlo, hi⟩ := laneOf_bounds hbit
    have hlane := barLane_injective hw ((lane_barWord x hbit).symm.trans
      (hxy ▸ lane_barWord y hbit))
    have hsame := congrArg (fun l => l.getLsbD (bit - (laneOf f bit).2)) hlane
    rwa [getLsbD_lane _ hi, getLsbD_lane _ hi, Nat.add_sub_cancel' hlo] at hsame
  · rw [hzero x hx bit hbit, hzero y hy bit hbit]

/-- An injective map of a finite set into itself takes every value of the set exactly once. -/
theorem existsUnique_of_injOn {α : Type} {s : Set α} {f : α → α} (hs : s.Finite)
    (hmaps : Set.MapsTo f s s) (hinj : Set.InjOn f s) {y : α} (hy : y ∈ s) :
    ∃! x, x ∈ s ∧ f x = y := by
  obtain ⟨-, -, hsurj⟩ := (hs.injOn_iff_bijOn_of_mapsTo hmaps).mp hinj
  obtain ⟨x, hx, rfl⟩ := hsurj hy
  exact ⟨x, ⟨hx, rfl⟩, fun z ⟨hz, hzx⟩ => hinj hz hx hzx⟩

/-- Settles O50: the bar map keeps the finite set of canonical words and is injective on it. -/
theorem barWordIsBijection : Obligations.BarWordIsBijection := fun f =>
  ⟨fun _ => barWord_lt,
    fun _ hy => existsUnique_of_injOn (Set.toFinite (canonicalWords f)) (fun _ => barWord_lt)
      (barWord_injOn f) hy,
    barWordLut_eq_barWord f⟩

/-! ### Bars of the RC variant (R224, R225) -/

section RcBars

variable {s : State}

/-- The recomposed value of a word, digit by digit (R224). -/
theorem rcBarWord_eq_rcBarValue (h : RadixUsable s) (x : Nat) : rcBarWord s x = rcBarValue s x := by
  have hlen : (decompose s.radices x).length = s.csr.nradix.toNat := by
    rw [decompose_length _ x (radices_ne_nil h), radices_length]
  rw [rcBarWord, compose_valueOf s _ (by rw [List.length_map, hlen]), rcBarValue]
  refine valueOf_congr fun k hk => ?_
  rw [List.getD_eq_getElem _ _ (by rwa [List.length_map, hlen]), List.getElem_map,
    ← List.getD_eq_getElem _ 0, decompose_digitOf s x k hk]
  rfl

/-- The words of the state vector are the registers below the width. -/
theorem mem_vec_iff {x : Nat} :
    x ∈ s.vec ↔ ∃ k : RegNum, k.toNat < s.csr.t.toNat ∧ s.elem k = x := by
  constructor
  · intro hx
    obtain ⟨i, hi, rfl⟩ := List.getElem_of_mem hx
    obtain ⟨hwidth, hi32⟩ := lt_min_iff.mp (vec_length s ▸ hi)
    have hreg : (BitVec.ofNat 5 i).toNat = i := toNat_regNum hi32
    refine ⟨BitVec.ofNat 5 i, by rwa [hreg], ?_⟩
    rw [← vec_getD s _ (by rwa [hreg]), hreg, List.getD_eq_getElem _ _ hi]
  · rintro ⟨k, hk, rfl⟩
    rw [← vec_getD s k hk, List.getD_eq_getElem _ _ (lt_vec_length hk)]
    exact List.getElem_mem _

theorem rcBars_of_not_usable (h : ¬RadixUsable s) (v : List Nat) :
    rcBars s v = .error .invalidConfiguration :=
  if_neg (mt (radixUsable_iff s).mp h)

theorem rcBars_of_ge (h : RadixUsable s) {v : List Nat} (hv : ∃ x ∈ v, s.p ≤ rcBarValue s x) :
    rcBars s v = .error .notInField := by
  rw [rcBars, if_pos ((radixUsable_iff s).mpr h), if_pos]
  simpa [rcBarWord_eq_rcBarValue h] using hv

theorem rcBars_of_lt (h : RadixUsable s) {v : List Nat} (hv : ∀ x ∈ v, rcBarValue s x < s.p) :
    rcBars s v = .ok (v.map (rcBarValue s)) := by
  have hmap : rcBarWord s = rcBarValue s := funext (rcBarWord_eq_rcBarValue h)
  rw [rcBars, if_pos ((radixUsable_iff s).mpr h), hmap, if_neg]
  simpa using hv

theorem wordAt_map {f : Nat → Nat} {v : List Nat} {i : Nat} (hi : i < v.length) :
    wordAt (v.map f) i = f (wordAt v i) := by
  rw [wordAt, wordAt, List.getD_eq_getElem _ _ (by rwa [List.length_map]), List.getElem_map,
    List.getD_eq_getElem _ _ hi]

end RcBars

/-- Settles O51: the radix sequence is checked first; then all the values are, before a word is written. -/
theorem rcbarsSubstituteDigits : Obligations.RcbarsSubstituteDigits := by
  intro s
  refine ⟨decode_encode .rcbars, layerChecks_of_vectorCommand (exec_rcbars s),
    fun hsealed hround hbad => ?_, fun _ hsealed hround husable hge => ?_,
    fun _ hsealed hround husable hlt => ?_⟩
  · exact raisesOn_of_vectorCommand_error (exec_rcbars s) hsealed hround
      (rcBars_of_not_usable hbad s.vec)
  · obtain ⟨k, hk, hvalue⟩ := hge
    exact raisesOn_of_vectorCommand_error (exec_rcbars s) hsealed hround
      (rcBars_of_ge husable ⟨s.elem k, mem_vec_iff.mpr ⟨k, hk, rfl⟩, hvalue⟩)
  · have hbelow : ∀ x ∈ s.vec, rcBarValue s x < s.p := fun x hx => by
      obtain ⟨k, hk, rfl⟩ := mem_vec_iff.mp hx
      exact hlt k hk
    obtain ⟨t, hexec, hwords, hframe, hresp⟩ := vectorCommand_writesVector
      (rcBars_of_lt husable hbelow ▸ exec_rcbars s) hsealed hround (List.length_map _)
      (wordsBelow_map hbelow)
    refine ⟨t, hexec, fun k hk => ?_, hframe, hresp⟩
    rw [hwords k hk, wordAt_map (lt_vec_length hk), wordAt_vec hk]

/-! ### The Feistel step (R226, R227) -/

section Feistel

variable (s : State) (k : Nat) {v : List Nat} {i : Nat}

theorem wordAt_feistelStep_zero (h0 : 0 < v.length) :
    wordAt (feistelStep s k false v) 0 = wordAt v 0 :=
  wordAt_tabulate _ h0

/-- Every word but word 0 adds the power of word 0 plus the constant. -/
theorem wordAt_feistelStep_of_ne (hne : i ≠ 0) (hi : i < v.length) :
    wordAt (feistelStep s k false v) i =
      (wordAt v i + (wordAt v 0 + s.rc k 0) ^ s.csr.d.toNat % s.p) % s.p := by
  rw [Nat.pow_mod, ← powMod_degree]
  exact (wordAt_tabulate _ hi).trans (if_neg hne)

/-- With rotation the words are those without, rotated left by one. -/
theorem wordAt_feistelStep_rot (hi : i < v.length) :
    wordAt (feistelStep s k true v) i = wordAt (feistelStep s k false v) ((i + 1) % v.length) :=
  wordAt_tabulate _ hi

end Feistel

/-- Settles O52: the step without rotation has the words `m` of the statement, and the rotation reads them. -/
theorem feisAddsAndRotates : Obligations.FeisAddsAndRotates := by
  intro rot row s
  refine ⟨decode_encode (.feis rot row), layerChecks_of_vectorCommand (exec_feis s rot row),
    fun hs hsealed hround => ?_⟩
  obtain ⟨-, hwidth⟩ := width_of_sealed hs hsealed
  obtain ⟨t, hexec, hwords, hframe, hresp⟩ := vectorCommand_writesVector (exec_feis s rot row) hsealed
    hround (feistelStep_length s _ _ _) (feistelStep_below (vec_below hs.registers) _ _)
  refine ⟨t, hexec, fun u m hu hm0 hm k hk => ?_, hframe, hresp⟩
  have hzero := zero_lt_width hs hsealed
  have hword0 : wordAt s.vec 0 = s.elem 0#5 := wordAt_vec hzero
  have hmid : ∀ i < s.csr.t.toNat, wordAt (feistelStep s row.toNat false s.vec) i = m i := by
    intro i hi
    have hlen : i < s.vec.length := by rwa [vec_length_of_le hwidth]
    obtain rfl | h1 := Nat.eq_zero_or_pos i
    · rw [wordAt_feistelStep_zero s _ hlen, hword0, hm0]
    · rw [wordAt_feistelStep_of_ne s _ h1.ne' hlen, wordAt_vec_eq_stateWord hwidth hi, hword0, ← hu,
        hm i h1 hi]
  rw [hwords k hk]
  split
  · rename_i hrot
    rw [hrot, beq_self_eq_true, wordAt_feistelStep_rot s _ (lt_vec_length hk),
      vec_length_of_le hwidth, hmid _ (Nat.mod_lt _ hzero)]
  · rename_i hrot
    rw [beq_false_of_ne hrot, hmid _ hk]

/-! ### The bricks and the Feistel step are bijections (R217, R226) -/

/-- There are finitely many canonical vectors of the unit's width. -/
theorem finite_canonicalVec (s : State) : {v | CanonicalVec s v}.Finite := by
  refine ((List.finite_length_eq (Set.Iio s.p) s.csr.t.toNat).image (List.map (↑))).subset ?_
  rintro v ⟨hlen, hbelow⟩
  have hrange : v ∈ Set.range (List.map ((↑) : Set.Iio s.p → Nat)) := by
    rw [Set.range_list_map_coe]
    exact hbelow
  obtain ⟨l, rfl⟩ := hrange
  exact ⟨l, by simpa using hlen, rfl⟩

/-- Adding the same number modulo `p` is injective on canonical elements. -/
theorem add_mod_cancel {p a b c : Nat} (ha : a < p) (hb : b < p) (h : (a + c) % p = (b + c) % p) :
    a = b :=
  Nat.ModEq.eq_of_lt_of_lt (Nat.ModEq.add_right_cancel' c h) ha hb

section Injective

variable {s : State} {v w : List Nat} (hv : CanonicalVec s v) (hw : CanonicalVec s w)

include hv

theorem CanonicalVec.bricks : CanonicalVec s (bricks s v) :=
  ⟨(tabulate_length _ _).trans hv.1, bricks_below hv.2⟩

theorem CanonicalVec.feistelStep (k : Nat) (rot : Bool) :
    CanonicalVec s (feistelStep s k rot v) :=
  ⟨(feistelStep_length s k rot v).trans hv.1, feistelStep_below hv.2 k rot⟩

include hw

/-- Canonical vectors are equal when their words are, below the unit's width. -/
theorem CanonicalVec.ext (h : ∀ i < s.csr.t.toNat, wordAt v i = wordAt w i) : v = w := by
  obtain ⟨hlen, -⟩ := hv
  exact ext_wordAt (hlen.trans hw.1.symm) (hlen ▸ h)

/-- The bricks are injective, word by word from word 0: the square added to a word is of the word before it, which
is known. -/
theorem bricks_inj (h : bricks s v = bricks s w) : v = w := by
  have ⟨hlenv, hbelowv⟩ := hv
  have ⟨hlenw, hbeloww⟩ := hw
  refine hv.ext hw fun i => ?_
  induction i with
  | zero =>
    intro h0
    rw [← wordAt_bricks_zero s (hlenv ▸ h0), h, wordAt_bricks_zero s (hlenw ▸ h0)]
  | succ i ih =>
    intro hi
    have hword : wordAt (bricks s v) (i + 1) = wordAt (bricks s w) (i + 1) := by rw [h]
    rw [wordAt_bricks_succ s (hlenv ▸ hi), wordAt_bricks_succ s (hlenw ▸ hi),
      ih (Nat.lt_of_succ_lt hi)] at hword
    exact add_mod_cancel (WordsBelow.wordAt_lt hbelowv _) (WordsBelow.wordAt_lt hbeloww _) hword

/-- The Feistel step without rotation is injective: it keeps word 0, which gives the summand of the others. -/
theorem feistelStep_false_inj {k : Nat} (h : feistelStep s k false v = feistelStep s k false w) :
    v = w := by
  have ⟨hlenv, hbelowv⟩ := hv
  have ⟨hlenw, hbeloww⟩ := hw
  have hword0 : 0 < s.csr.t.toNat → wordAt v 0 = wordAt w 0 := fun h0 => by
    rw [← wordAt_feistelStep_zero s k (hlenv ▸ h0), h, wordAt_feistelStep_zero s k (hlenw ▸ h0)]
  refine hv.ext hw fun i hi => ?_
  obtain rfl | h1 := Nat.eq_zero_or_pos i
  · exact hword0 hi
  · have hword := congrArg (wordAt · i) h
    rw [wordAt_feistelStep_of_ne s k h1.ne' (hlenv ▸ hi), wordAt_feistelStep_of_ne s k h1.ne' (hlenw ▸ hi),
      hword0 (h1.trans hi)] at hword
    exact add_mod_cancel (WordsBelow.wordAt_lt hbelowv _) (WordsBelow.wordAt_lt hbeloww _) hword

/-- A rotation by one loses no word: word `i` stands at index `i - 1` modulo the width. -/
theorem feistelStep_false_of_rot {k : Nat} (h : feistelStep s k true v = feistelStep s k true w) :
    feistelStep s k false v = feistelStep s k false w := by
  have ⟨hlenv, _⟩ := hv
  have ⟨hlenw, _⟩ := hw
  refine (hv.feistelStep k false).ext (hw.feistelStep k false) fun i hi => ?_
  have hback : ((i + (s.csr.t.toNat - 1)) % s.csr.t.toNat + 1) % s.csr.t.toNat = i := by
    rw [Nat.mod_add_mod, show i + (s.csr.t.toNat - 1) + 1 = i + s.csr.t.toNat by omega,
      Nat.add_mod_right, Nat.mod_eq_of_lt hi]
  have hword := congrArg (wordAt · ((i + (s.csr.t.toNat - 1)) % s.csr.t.toNat)) h
  have hlt := Nat.mod_lt (i + (s.csr.t.toNat - 1)) (Nat.zero_lt_of_lt hi)
  rwa [wordAt_feistelStep_rot s k (hlenv ▸ hlt), wordAt_feistelStep_rot s k (hlenw ▸ hlt), hlenv, hlenw,
    hback] at hword

theorem feistelStep_inj {k : Nat} {rot : Bool} (h : feistelStep s k rot v = feistelStep s k rot w) :
    v = w := by
  cases rot with
  | false => exact feistelStep_false_inj hv hw h
  | true => exact feistelStep_false_inj hv hw (feistelStep_false_of_rot hv hw h)

end Injective

/-- Settles O53: both functions keep the finite set of canonical vectors and are injective on it. -/
theorem bricksAndFeistelAreBijections : Obligations.BricksAndFeistelAreBijections :=
  fun s k rot _ =>
    ⟨fun _ hw => existsUnique_of_injOn (finite_canonicalVec s) (fun _ hv => hv.bricks)
        (fun _ hv _ hv' h => bricks_inj hv hv' h) hw,
      fun _ hw => existsUnique_of_injOn (finite_canonicalVec s) (fun _ hv => hv.feistelStep k rot)
        (fun _ hv _ hv' h => feistelStep_inj hv hv' h) hw⟩

end Sys2Proof.Machine

/-! # The permutation sequencer: `PSTART`, `PSTEP`, `PERM`, and the permutation they compute

The statements of the family of the permutation (R240 to R256). The rounds read the configuration and the parameters
only, so a run of rounds may be cut at any round and gone on with from the state a `PSTEP` leaves; and the layers they
use enter a round through `LSEL` and `ISEL` only, so paths whose layers agree give the same rounds. -/

namespace Sys2Proof.Machine

/-! ### Runs of rounds (R249, R252) -/

section Runs

variable {s t : State} {n r : Nat} {v w : List Nat}

theorem runRounds_succ_of_ok (n : Nat) (h : round s r v = .ok w) :
    runRounds s (n + 1) r v = runRounds s n (r + 1) w := by simp [runRounds, h]

theorem runRounds_succ_of_error (n : Nat) {e : Err} (h : round s r v = .error e) :
    runRounds s (n + 1) r v = .error e := by simp [runRounds, h]

/-- What a run of at least one round with a value begins with. -/
theorem runRounds_succ_eq_ok (h : runRounds s (n + 1) r v = .ok w) :
    ∃ u, round s r v = .ok u ∧ runRounds s n (r + 1) u = .ok w := by
  cases hu : round s r v with
  | error e =>
    rw [runRounds_succ_of_error n hu] at h
    cases h
  | ok u => exact ⟨u, rfl, (runRounds_succ_of_ok n hu).symm.trans h⟩

/-- The first `n` rounds of a run go along a chain of vectors, each the round of the one before. -/
theorem runRounds_along_chain {vs : Nat → List Nat} (m : Nat)
    (h : ∀ j, r ≤ j → j < r + n → round s j (vs j) = .ok (vs (j + 1))) :
    runRounds s (n + m) r (vs r) = runRounds s m (r + n) (vs (r + n)) := by
  induction n generalizing r with
  | zero => rw [Nat.zero_add, Nat.add_zero]
  | succ n ih =>
    rw [Nat.add_right_comm, runRounds_succ_of_ok _ (h r (Nat.le_refl r) (by omega)),
      ih fun j hlo hhi => h j (by omega) (by omega), Nat.add_right_comm, Nat.add_assoc]

/-- Units with the same rounds on the vectors of one width have the same runs on them. -/
theorem runRounds_congr (h : ∀ r w, w.length = v.length → round t r w = round s r w) :
    runRounds t n r v = runRounds s n r v := by
  induction n generalizing r v with
  | zero => rfl
  | succ n ih =>
    have hround := h r v rfl
    cases hv : round s r v with
    | error e => rw [runRounds_succ_of_error n (hround.trans hv), runRounds_succ_of_error n hv]
    | ok u =>
      rw [runRounds_succ_of_ok n (hround.trans hv), runRounds_succ_of_ok n hv]
      exact ih fun r w hw => h r w (hw.trans (round_length hv))

/-- The rounds do not read the sequencer, nor what is outside the CSRs and parameter memory. -/
theorem runRounds_of_sameCsrsButSequencer (hpm : t.pm = s.pm) (hcsr : SameCsrsButSequencer s t) :
    runRounds t n r v = runRounds s n r v := by
  obtain ⟨sreg, dg, csr, pm, input, din, responses⟩ := t
  dsimp only [SameCsrsButSequencer] at hpm hcsr
  subst hpm
  rw [hcsr]
  exact runRounds_congr fun _ _ _ => rfl

end Runs

/-! ### The state vector written -/

section SetVec

variable {s : State} {v : List Nat} (hlen : v.length = s.vec.length) (hbelow : WordsBelow s.p v)

include hlen hbelow

/-- A canonical vector of the unit's width is held word by word. -/
theorem elem_setVec_of_lt {k : RegNum} (hk : k.toNat < s.csr.t.toNat) :
    (s.setVec v).elem k = v.getD k.toNat 0 := by
  rw [elem_setVec, if_pos (hlen ▸ lt_vec_length hk)]
  exact Nat.mod_eq_of_lt ((hbelow.getD_lt (p_pos s) _).trans (p_lt s))

theorem vec_setVec : (s.setVec v).vec = v := by
  have hlen' : (s.setVec v).vec.length = v.length := by rw [vec_length, hlen, vec_length]; rfl
  refine ext_wordAt hlen' fun i hi => ?_
  have hi : i < min s.csr.t.toNat 32 := by rwa [vec_length] at hi
  have hreg : (BitVec.ofNat 5 i).toNat = i := toNat_regNum (by omega)
  have hk : (BitVec.ofNat 5 i).toNat < s.csr.t.toNat := by omega
  calc wordAt (s.setVec v).vec i = (s.setVec v).elem (BitVec.ofNat 5 i) := by
        rw [← wordAt_vec (s := s.setVec v) hk, hreg]
    _ = wordAt v i := by rw [elem_setVec_of_lt hlen hbelow hk, hreg, wordAt]

end SetVec

/-- Of two vectors of one width written in turn, the second stays. -/
theorem overwrite_overwrite (file : Vector Word 32) {v w : List Nat} (h : v.length = w.length) :
    overwrite (overwrite file v) w = overwrite file w := by
  refine Vector.ext fun i hi => ?_
  rw [overwrite_getElem, overwrite_getElem, overwrite_getElem, h]
  split
  · rfl
  · rfl

/-! ### `PSTART` (R247) -/

theorem exec_pstart (s : State) :
    exec .pstart s = command s [needsSealed s, needsNotInRound s] (done (s.setSequencer 1#2 0#9)) := rfl

theorem exec_pstart_ok {s : State} (hsealed : Sealed s) (hround : ¬InRound s) :
    exec .pstart s = .next ((s.setSequencer 1#2 0#9).answer 0#64) :=
  command_ok _ _ (by simp [needsSealed_of_sealed hsealed, needsNotInRound_of_not_inRound hround])

/-- Settles O55: the two checks of R202, then the sequencer alone is written. -/
theorem pstartEntersRoundZero : Obligations.PstartEntersRoundZero := fun s =>
  ⟨decode_encode .pstart, layerChecks_of_exec (exec_pstart s), fun hsealed hround =>
    ⟨_, exec_pstart_ok hsealed hround, ⟨fun _ => rfl, fun _ => rfl, fun _ => rfl⟩, rfl, rfl, rfl, rfl⟩⟩

/-! ### `PSTEP` (R248) -/

section Pstep

variable {s : State}

theorem needsInRound_of_inRound (hround : InRound s) :
    failIf (s.csr.pstate != 1#2) .badSequence = none := by simp [hround]

theorem needsInRound_of_not_inRound (hround : ¬InRound s) :
    failIf (s.csr.pstate != 1#2) .badSequence = some .badSequence := by
  rw [bne_iff_ne.mpr hround, failIf_true]

theorem exec_pstep_error {e : Err} (hsealed : Sealed s) (hround : InRound s)
    (h : round s s.csr.rnd.toNat s.vec = .error e) : exec .pstep s = .next (s.raise e) := by
  rw [show exec .pstep s = execPstep s from rfl, execPstep, h]
  exact command_error _ (by simp [needsSealed_of_sealed hsealed, needsInRound_of_inRound hround])

theorem exec_pstep_ok {v : List Nat} (hsealed : Sealed s) (hround : InRound s)
    (h : round s s.csr.rnd.toNat s.vec = .ok v) :
    exec .pstep s = .next ((s.advanceRound.setVec v).answer 0#64) := by
  rw [show exec .pstep s = execPstep s from rfl, execPstep, h]
  exact command_ok _ _ (by simp [needsSealed_of_sealed hsealed, needsInRound_of_inRound hround])

/-- `RND` has room for `R`, which is at most 256 (R134). -/
theorem toNat_rnd_succ (hs : Inv s) (hsealed : Sealed s) (hround : InRound s) :
    (s.csr.rnd + 1#9).toNat = s.csr.rnd.toNat + 1 := by
  obtain ⟨-, hmax⟩ := rounds_of_sealOk (hs.sealedChecks hsealed)
  have hlt := hs.inRound hround
  rw [BitVec.toNat_add, BitVec.toNat_ofNat]
  omega

theorem advanceRound_of_last (hs : Inv s) (hsealed : Sealed s) (hround : InRound s)
    (hlast : s.csr.rnd.toNat + 1 = s.rounds) :
    s.advanceRound = s.setSequencer 2#2 (s.csr.rnd + 1#9) := by
  rw [State.advanceRound, toNat_rnd_succ hs hsealed hround, if_pos hlast]

theorem advanceRound_of_more (hs : Inv s) (hsealed : Sealed s) (hround : InRound s)
    (hmore : s.csr.rnd.toNat + 1 ≠ s.rounds) :
    s.advanceRound = s.setSequencer 1#2 (s.csr.rnd + 1#9) := by
  rw [State.advanceRound, toNat_rnd_succ hs hsealed hround, if_neg hmore, hround]

theorem advanceRound_pstate (hs : Inv s) (hsealed : Sealed s) (hround : InRound s) :
    s.advanceRound.csr.pstate = if s.csr.rnd.toNat + 1 = s.rounds then 2#2 else 1#2 := by
  split
  · rename_i hlast
    rw [advanceRound_of_last hs hsealed hround hlast, setSequencer_csr]
  · rename_i hmore
    rw [advanceRound_of_more hs hsealed hround hmore, setSequencer_csr]

end Pstep

/-- Settles O56: the round `RND` has its value written and the sequencer moves on, or has none and raises. -/
theorem pstepAppliesOneRound : Obligations.PstepAppliesOneRound := by
  intro s
  refine ⟨decode_encode .pstep, fun hopen => ?_, fun hsealed hround => ?_,
    fun e hsealed hround herror => raisesOn_of_exec (exec_pstep_error hsealed hround herror),
    fun v hs hsealed hround hv => ?_⟩
  · exact raisesOn_of_exec (command_raises _ (by simp [needsSealed_of_not_sealed hopen]))
  · exact raisesOn_of_exec (command_raises _ 
      (by simp [needsSealed_of_sealed hsealed, needsInRound_of_not_inRound hround]))
  · have hlen : v.length = s.vec.length := round_length hv
    have hbelow : WordsBelow s.p v := round_below (vec_below hs.registers) hv
    obtain ⟨-, hwidth⟩ := width_of_sealed hs hsealed
    exact ⟨_, exec_pstep_ok hsealed hround hv, hlen.trans (vec_length_of_le hwidth),
      fun k hk => elem_setVec_of_lt (s := s.advanceRound) hlen hbelow hk,
      setVec_sameScratch (s := s.advanceRound) hlen, fun _ => rfl, fun _ => rfl, rfl,
      toNat_rnd_succ hs hsealed hround, advanceRound_pstate hs hsealed hround, rfl, rfl, rfl⟩

/-! ### `PERM` (R249) -/

/-- The rounds that `PERM` applies to the state vector. -/
def remainingRounds (s : State) : Except Err (List Nat) :=
  runRounds s (s.rounds - s.nextRound) s.nextRound s.vec

/-- Done at `R`, with a vector in `S[0..t-1]`. -/
def State.permuted (s : State) (v : List Nat) : State :=
  (s.setSequencer 2#2 (BitVec.ofNat 9 s.rounds)).setVec v

section Perm

variable {s : State} {v : List Nat}

theorem exec_perm_error {e : Err} (hsealed : Sealed s) (h : remainingRounds s = .error e) :
    exec .perm s = .next (s.raise e) := by
  rw [remainingRounds] at h
  rw [show exec .perm s = execPerm s from rfl, execPerm, h]
  exact command_error _ (by simp [needsSealed_of_sealed hsealed])

theorem exec_perm_ok (hsealed : Sealed s) (h : remainingRounds s = .ok v) :
    exec .perm s = .next ((s.permuted v).answer 0#64) := by
  rw [remainingRounds] at h
  rw [show exec .perm s = execPerm s from rfl, execPerm, h]
  exact command_ok _ _ (by simp [needsSealed_of_sealed hsealed])

theorem nextRound_of_inRound (h : InRound s) : s.nextRound = s.csr.rnd.toNat := if_pos h

theorem nextRound_of_not_inRound (h : ¬InRound s) : s.nextRound = 0 := if_neg h

theorem remainingRounds_of_inRound (h : InRound s) :
    remainingRounds s = runRounds s (s.rounds - s.csr.rnd.toNat) s.csr.rnd.toNat s.vec := by
  rw [remainingRounds, nextRound_of_inRound h]

theorem remainingRounds_of_not_inRound (h : ¬InRound s) : remainingRounds s = permutation s s.vec := by
  rw [remainingRounds, nextRound_of_not_inRound h, Nat.sub_zero, permutation]

theorem nextRound_le_rounds (hs : Inv s) : s.nextRound ≤ s.rounds := by
  by_cases hround : InRound s
  · rw [nextRound_of_inRound hround]
    exact (hs.inRound hround).le
  · rw [nextRound_of_not_inRound hround]
    exact Nat.zero_le _

/-- `R` fits `RND`. -/
theorem toNat_ofNat_rounds (hs : Inv s) (hsealed : Sealed s) :
    (BitVec.ofNat 9 s.rounds).toNat = s.rounds := by
  obtain ⟨-, hmax⟩ := rounds_of_sealOk (hs.sealedChecks hsealed)
  rw [BitVec.toNat_ofNat, Nat.mod_eq_of_lt (by omega)]

/-- The registers of the state vector after `PERM`. -/
theorem permuted_elem (hs : Inv s) (h : remainingRounds s = .ok v) {k : RegNum}
    (hk : k.toNat < s.csr.t.toNat) : (s.permuted v).elem k = v.getD k.toNat 0 :=
  elem_setVec_of_lt (s := s.setSequencer _ _) (runRounds_length h)
    (runRounds_below (vec_below hs.registers) h) hk

/-- A chain of rounds from the first that `PERM` applies up to round `k` leaves the rounds from `k` on. -/
theorem remainingRounds_along_chain {vs : Nat → List Nat} {k : Nat} (hk : s.nextRound ≤ k)
    (hR : k ≤ s.rounds) (hvec : vs s.nextRound = s.vec)
    (h : ∀ j, s.nextRound ≤ j → j < k → round s j (vs j) = .ok (vs (j + 1))) :
    remainingRounds s = runRounds s (s.rounds - k) k (vs k) := by
  obtain ⟨n, rfl⟩ := Nat.exists_eq_add_of_le hk
  rw [remainingRounds, ← hvec, ← runRounds_along_chain _ h]
  congr 1
  omega

end Perm

/-- Settles O57: the chain up to the first round without a value, or up to `R`, is what `PERM` runs. -/
theorem permAppliesRemainingRounds : Obligations.PermAppliesRemainingRounds := by
  intro s r0 vs hr0 hvec
  obtain rfl : r0 = s.nextRound := hr0
  refine ⟨decode_encode .perm, fun hopen => ?_, fun k e hsealed hlo hhi hchain herror => ?_,
    fun hs hsealed hchain => ?_⟩
  · exact raisesOn_of_exec (command_raises _ (by simp [needsSealed_of_not_sealed hopen]))
  · refine raisesOn_of_exec (exec_perm_error hsealed ?_)
    rw [remainingRounds_along_chain hlo hhi.le hvec hchain,
      show s.rounds - k = s.rounds - k - 1 + 1 by omega, runRounds_succ_of_error _ herror]
  · have hall : remainingRounds s = .ok (vs s.rounds) := by
      rw [remainingRounds_along_chain (nextRound_le_rounds hs) (Nat.le_refl _) hvec hchain, Nat.sub_self]
      rfl
    exact ⟨_, exec_perm_ok hsealed hall, fun k hk => permuted_elem hs hall hk,
      setVec_sameScratch (s := s.setSequencer _ _) (runRounds_length hall), fun _ => rfl, fun _ => rfl,
      rfl, rfl, toNat_ofNat_rounds hs hsealed, rfl, rfl, rfl⟩

/-! ### `PERM` is the rest of the steps (R249) -/

section Steps

variable {s t : State} {v w : List Nat} {n : Nat}

theorem stepRounds_succ (n : Nat) (h : exec .pstep s = .next t) :
    stepRounds (n + 1) s = stepRounds n t := by rw [stepRounds, h]

/-- What `PERM` leaves after a `PSTEP` that was not the last is what it leaves before. -/
theorem permuted_advanceRound_unit (h : w.length = v.length) :
    (((s.advanceRound.setVec w).answer 0#64).permuted v).unit = (s.permuted v).unit :=
  congrArg (fun file => { (s.permuted v).unit with sreg := file }) (overwrite_overwrite s.sreg h)

/-- From inside a round, the `PSTEP`s of the remaining rounds leave what `PERM` leaves. -/
theorem stepRounds_unit (hs : Inv s) (hsealed : Sealed s) (hround : InRound s)
    (hrounds : s.csr.rnd.toNat + (n + 1) = s.rounds)
    (h : runRounds s (n + 1) s.csr.rnd.toNat s.vec = .ok v) :
    ∃ u, stepRounds (n + 1) s = .next u ∧ u.unit = (s.permuted v).unit := by
  induction n generalizing s with
  | zero =>
    obtain ⟨w, hw, hv⟩ := runRounds_succ_eq_ok h
    cases hv
    refine ⟨_, stepRounds_succ 0 (exec_pstep_ok hsealed hround hw), ?_⟩
    have hrnd : s.csr.rnd + 1#9 = BitVec.ofNat 9 s.rounds := BitVec.eq_of_toNat_eq <| by
      rw [toNat_rnd_succ hs hsealed hround, hrounds, toNat_ofNat_rounds hs hsealed]
    rw [advanceRound_of_last hs hsealed hround hrounds, hrnd]
    rfl
  | succ n ih =>
    obtain ⟨w, hw, hv⟩ := runRounds_succ_eq_ok h
    have hstep := exec_pstep_ok hsealed hround hw
    have hinRound : InRound s.advanceRound := by
      rw [advanceRound_of_more hs hsealed hround (by omega)]
      rfl
    have hrnd : s.advanceRound.csr.rnd.toNat = s.csr.rnd.toNat + 1 := toNat_rnd_succ hs hsealed hround
    have hvec : (s.advanceRound.setVec w).vec = w :=
      vec_setVec (s := s.advanceRound) (round_length hw) (round_below (vec_below hs.registers) hw)
    have hrest : runRounds ((s.advanceRound.setVec w).answer 0#64) (n + 1)
        s.advanceRound.csr.rnd.toNat (s.advanceRound.setVec w).vec = .ok v := by
      rw [hvec, hrnd]
      exact (runRounds_of_sameCsrsButSequencer (s := s) (by rfl) (by rfl)).trans hv
    have hleft : s.advanceRound.csr.rnd.toNat + (n + 1) = s.rounds := by omega
    obtain ⟨u, hu, hunit⟩ := ih (s := (s.advanceRound.setVec w).answer 0#64) (exec_keeps_inv hs hstep)
      hsealed hinRound hleft hrest
    exact ⟨u, (stepRounds_succ _ hstep).trans hu,
      hunit.trans (permuted_advanceRound_unit (runRounds_length hv).symm)⟩

/-- `stepRounds_unit` for the rounds that `PERM` applies, of which there is at least one. -/
theorem stepRounds_remaining (hs : Inv s) (hsealed : Sealed s) (hround : InRound s)
    (h : remainingRounds s = .ok v) :
    ∃ u, stepRounds (s.rounds - s.csr.rnd.toNat) s = .next u ∧ u.unit = (s.permuted v).unit := by
  have hlt := hs.inRound hround
  rw [remainingRounds_of_inRound hround] at h
  obtain ⟨n, hn⟩ : ∃ n, s.rounds - s.csr.rnd.toNat = n + 1 := ⟨s.rounds - s.csr.rnd.toNat - 1, by omega⟩
  rw [hn] at h ⊢
  exact stepRounds_unit hs hsealed hround (by omega) h

end Steps

/-- Settles O58: inside a round by the induction on the rounds left; outside, `PSTART` enters round 0 and changes
nothing the rounds read. -/
theorem permEqualsStartAndSteps : Obligations.PermEqualsStartAndSteps := by
  intro s v hs hsealed
  refine ⟨fun hround hv => ?_, fun hround hv => ?_⟩
  · have hrest : remainingRounds s = .ok v := (remainingRounds_of_not_inRound hround).trans hv
    have hstart := exec_pstart_ok hsealed hround
    have hrun : remainingRounds ((s.setSequencer 1#2 0#9).answer 0#64) = .ok v :=
      (remainingRounds_of_inRound rfl).trans
        ((runRounds_of_sameCsrsButSequencer (s := s) (by rfl) (by rfl)).trans hv)
    obtain ⟨u, hu, hunit⟩ := stepRounds_remaining (exec_keeps_inv hs hstart) hsealed rfl hrun
    exact ⟨_, _, u, exec_perm_ok hsealed hrest, hstart, hu, hunit, fun _ => permuted_elem hs hrest⟩
  · have hrest : remainingRounds s = .ok v := (remainingRounds_of_inRound hround).trans hv
    obtain ⟨u, hu, hunit⟩ := stepRounds_remaining hs hsealed hround hrest
    exact ⟨_, u, exec_perm_ok hsealed hrest, hu, hunit, fun _ => permuted_elem hs hrest⟩

/-! ### The permutation of the Feistel variant (R254) -/

/-- Each round of the Feistel variant is a bijection, hence so is any run of them. -/
theorem existsUnique_runRounds_feistel {s : State} (hvar : s.csr.var = 2#3) (hwidth : 2 ≤ s.csr.t.toNat)
    (n r : Nat) {w : List Nat} (hw : CanonicalVec s w) :
    ∃! v, CanonicalVec s v ∧ runRounds s n r v = .ok w := by
  induction n generalizing r with
  | zero => exact ⟨w, ⟨hw, rfl⟩, fun v ⟨_, hv⟩ => by cases hv; rfl⟩
  | succ n ih =>
    have hrun : ∀ v, runRounds s (n + 1) r v = runRounds s n (r + 1) (feistelRound s r v) := fun v =>
      runRounds_succ_of_ok n (round_feistel r v hvar)
    obtain ⟨u, ⟨hu, hrest⟩, huniq⟩ := ih (r + 1)
    obtain ⟨-, hstep⟩ := bricksAndFeistelAreBijections s r (r + 1 < s.rounds) hwidth
    obtain ⟨v, ⟨hv, hround⟩, hvuniq⟩ := hstep u hu
    refine ⟨v, ⟨hv, ?_⟩, fun v' ⟨hv', hrun'⟩ => hvuniq v' ⟨hv', ?_⟩⟩
    · rw [hrun, feistelRound, hround, hrest]
    · exact huniq _ ⟨hv'.feistelStep r _, (hrun v').symm.trans hrun'⟩

/-- Settles O59: a run of `R` Feistel rounds. -/
theorem feistelPermutationIsBijection : Obligations.FeistelPermutationIsBijection :=
  fun s hs hsealed hvar _ hw =>
    existsUnique_runRounds_feistel hvar (width_of_sealed hs hsealed).1 s.rounds 0 hw

/-! ### The paths of the linear layer (R256) -/

/-- The unit with both strategies of the linear layer chosen, `LSEL` and `ISEL`. -/
def State.withLayers (s : State) (lsel isel : BitVec 1) : State :=
  { s with csr := { s.csr with lsel := lsel, isel := isel } }

/-- The linear layer of the middle block of POSEIDON, by `ISEL` (R38, R242). -/
def middleLayer (s : State) (v : List Nat) : List Nat :=
  if s.csr.isel = 0#1 then cheap s v else dense s 1#1 v

theorem middleLayer_eq_cheap {s : State} (h : s.csr.isel = 0#1) (v : List Nat) :
    middleLayer s v = cheap s v := if_pos h

theorem middleLayer_eq_dense {s : State} (h : s.csr.isel = 1#1) (v : List Nat) :
    middleLayer s v = dense s 1#1 v := if_neg (by rw [h]; decide)

theorem withLayers_var (s : State) (l i : BitVec 1) : (s.withLayers l i).csr.var = s.csr.var := rfl

/-- A round of POSEIDON reads `LSEL` through `Lin` and `ISEL` through the layer of the middle block. -/
theorem poseidonRound_withLayers (s : State) (l i : BitVec 1) (r : Nat) (v : List Nat) :
    poseidonRound (s.withLayers l i) r v =
      if r < s.csr.rfb.toNat ∨ s.csr.rfb.toNat + s.csr.rp.toNat ≤ r then
        lin (s.withLayers l i) (sboxFull s (addRc s r v))
      else middleLayer (s.withLayers l i) (sboxWord0 s (addRc s r v)) := rfl

/-- The layers of two choices of path agree on the vectors of the unit's width. -/
structure LayersAgree (s : State) (l l' i i' : BitVec 1) : Prop where
  lin_eq : ∀ v, v.length = s.csr.t.toNat → lin (s.withLayers l i) v = lin (s.withLayers l' i') v
  middle_eq : ∀ v, v.length = s.csr.t.toNat →
    middleLayer (s.withLayers l i) v = middleLayer (s.withLayers l' i') v

namespace LayersAgree

variable {s : State} {l l' i i' : BitVec 1} {r : Nat} {v : List Nat}

/-- R195: the cheap layer and the dense layer of bank 1. -/
theorem of_cheap (hbank : BankIsCheap s 1#1) (l : BitVec 1) : LayersAgree s l l 0#1 1#1 where
  lin_eq _ _ := rfl
  middle_eq v hlen := by
    rw [middleLayer_eq_cheap rfl, middleLayer_eq_dense rfl]
    exact cheap_eq_dense hlen hbank

/-- R192: the dense layer of bank 0 and the circulant layer. -/
theorem of_circulant (hbank : BankIsCirculant s 0#1) (i : BitVec 1) : LayersAgree s 0#1 1#1 i i where
  lin_eq v hlen := by
    rw [lin_eq_dense v rfl, lin_eq_circ v rfl]
    exact (circ_eq_dense hlen hbank).symm
  middle_eq _ _ := rfl

section Rounds

variable (h : LayersAgree s l l' i i') (hlen : v.length = s.csr.t.toNat)

include h hlen

theorem poseidonRound_eq :
    poseidonRound (s.withLayers l i) r v = poseidonRound (s.withLayers l' i') r v := by
  rw [poseidonRound_withLayers, poseidonRound_withLayers]
  split
  · exact h.lin_eq _ (by simp [sboxFull, addRc, hlen])
  · exact h.middle_eq _ (by simp [sboxWord0, addRc, hlen])

/-- The first half-round decides whether there is a value; both paths give it the same vector. -/
theorem rescueRound_eq :
    rescueRound (s.withLayers l i) r v = rescueRound (s.withLayers l' i') r v := by
  have hfirst := congrArg (fun x => sboxInv s (addRc s (2 * r) x))
    (h.lin_eq (sboxFull s v) (by simp [sboxFull, hlen]))
  cases hb : sboxInv s (addRc s (2 * r) (lin (s.withLayers l' i') (sboxFull s v))) with
  | error e =>
    rw [rescueRound_of_error (s := s.withLayers l i) (hfirst.trans hb),
      rescueRound_of_error (s := s.withLayers l' i') hb]
  | ok b =>
    have hlenb : b.length = s.csr.t.toNat := by
      simpa [addRc, sboxFull, hlen] using sboxInv_length hb
    rw [rescueRound_of_ok (s := s.withLayers l i) (hfirst.trans hb),
      rescueRound_of_ok (s := s.withLayers l' i') hb]
    exact congrArg (fun x => Except.ok (addRc s (2 * r + 1) x)) (h.lin_eq b hlenb)

theorem monolithRound_eq :
    monolithRound (s.withLayers l i) r v = monolithRound (s.withLayers l' i') r v :=
  congrArg (addRc s r) (h.lin_eq (bricks s (bars s barWord v)) (by simp [bricks, bars, hlen]))

/-- The Feistel and the RC variant have no layer to choose. -/
theorem round_eq : round (s.withLayers l i) r v = round (s.withLayers l' i') r v := by
  simp only [round, withLayers_var]
  split
  · rw [h.poseidonRound_eq hlen]
  · exact h.rescueRound_eq hlen
  · rfl
  · rw [h.monolithRound_eq hlen]
  · rfl
  · rfl

end Rounds

/-- Under choices of path whose layers agree, `PERM` writes the same vector or raises the same error. -/
theorem exec_perm (h : LayersAgree s l l' i i') (hs : Inv s) (hsealed : Sealed s) :
    ∃ t u, exec .perm (s.withLayers l i) = .next t ∧ exec .perm (s.withLayers l' i') = .next u ∧
      SameRegs t u ∧ t.responses = u.responses := by
  obtain ⟨-, hwidth⟩ := width_of_sealed hs hsealed
  have hruns : remainingRounds (s.withLayers l i) = remainingRounds (s.withLayers l' i') :=
    runRounds_congr fun _ _ hw => h.round_eq (hw.trans (vec_length_of_le hwidth))
  cases hv : remainingRounds (s.withLayers l' i') with
  | error e =>
    exact ⟨_, _, exec_perm_error (s := s.withLayers l i) hsealed (hruns.trans hv),
      exec_perm_error (s := s.withLayers l' i') hsealed hv, fun _ => rfl, rfl⟩
  | ok v =>
    exact ⟨_, _, exec_perm_ok (s := s.withLayers l i) hsealed (hruns.trans hv),
      exec_perm_ok (s := s.withLayers l' i') hsealed hv, fun _ => rfl, rfl⟩

end LayersAgree

/-- Settles O60: the layers agree by R195 and by R192, whatever the other choice is. -/
theorem fastAndReferencePathsAgree : Obligations.FastAndReferencePathsAgree := fun s hs hsealed =>
  ⟨fun hbank => (LayersAgree.of_cheap hbank s.csr.lsel).exec_perm hs hsealed,
    fun hbank => (LayersAgree.of_circulant hbank s.csr.isel).exec_perm hs hsealed⟩

end Sys2Proof.Machine

/-! # Exceptions: answers and raises, the error flags, the table of refusals

The statements of the family of the exceptions (R290 to R299). The first two are read off `exec_ends`, which
says how every command ends. The third rests on `exec_followsTable`: a command checks first what the table of
R299 asks of it, and nothing after that refuses it with a status of the table. -/

namespace Sys2Proof.Machine

/-! ### Answers and raises (R291, R292) -/

/-- A command that does not raise answers OK, the rest of the port unchanged (R91). -/
theorem Leaves.responds {i : Instr} {s u : State} (h : Leaves i s u) (d : Word) :
    Responds s (u.answer d) 0#8 d := by
  cases h <;> exact ⟨rfl, rfl, rfl⟩

/-- Settles O7, by the two ways a command ends. -/
theorem everyCommandAnswersOrRaises : Obligations.EveryCommandAnswersOrRaises := by
  intro i s
  obtain ⟨t, ht, ⟨e, he, rfl⟩ | ⟨u, d, hu, rfl⟩⟩ := exec_ends i s
  · exact ⟨_, ht, .inr ⟨e, he, raises_raise s e⟩⟩
  · exact ⟨_, ht, .inl ⟨d, hu.responds d⟩⟩

/-! ### The error flags (R43, R293) -/

theorem exec_clrerr (s : State) : exec .clrerr s = .next ((s.setErrFlags 0#9).answer 0#64) := rfl

theorem exec_field (f : BitVec 1) (s : State) :
    exec (.field f) s = .next ((s.cleared f).answer 0#64) := rfl

/-- Only `CLRERR` and `FIELD` reach the error flags by their effect. -/
theorem Leaves.sameErrFlags {i : Instr} {s u : State} (h : Leaves i s u)
    (hi : ¬(i = .clrerr ∨ ∃ f, i = .field f)) : u.csr.errflags = s.csr.errflags := by
  cases h with
  | cleared => exact absurd (.inr ⟨_, rfl⟩) hi
  | flagsCleared => exact absurd (.inl rfl) hi
  | csrs _ written =>
    obtain ⟨-, -, -, -, hflags⟩ := writeCsr_readOnly written
    exact hflags
  | same | register | digit | digits | word | sealing | unsealing | vector | started | stepped
  | permuted | idle => rfl

/-- A transaction has one response. -/
theorem Responds.status_eq {s t : State} {st st' : BitVec 8} {d d' : Word}
    (h : Responds s t st d) (h' : Responds s t st' d') : st = st' := by
  have hlist := h.1.symm.trans h'.1
  simp only [List.append_cancel_left_eq, List.cons.injEq, Response.mk.injEq] at hlist
  exact hlist.1.1

/-- Settles O8: the two commands that clear have no check; of the others, a raise sets the flag of its status
and an answer leaves the flags. -/
theorem errorFlagsAreSticky : Obligations.ErrorFlagsAreSticky := by
  intro i s t st dout hexec hresp
  split
  · rename_i hclears
    obtain rfl | ⟨f, rfl⟩ := hclears
    · cases (exec_clrerr s).symm.trans hexec
      rfl
    · cases (exec_field f s).symm.trans hexec
      rfl
  · rename_i hkeeps
    obtain ⟨e, -, rfl⟩ | ⟨u, d, hu, rfl⟩ := ends_of_exec hexec
    · obtain ⟨hraise, -, -, -, hcsr⟩ := raises_raise s e
      have hcode : e.code ≠ 0#8 := by cases e <;> decide
      rw [hresp.status_eq hraise, if_neg hcode, hcsr]
    · rw [hresp.status_eq (hu.responds d), if_pos rfl]
      exact hu.sameErrFlags hkeeps

/-! ### The checks of the table (R251, R299) -/

theorem firstFailure_append (cs ds : List (Option Err)) :
    firstFailure (cs ++ ds) = (firstFailure cs).or (firstFailure ds) := by
  induction cs with
  | nil => simp
  | cons c cs ih => cases c <;> simp [ih]

/-- A check that only some commands make. -/
def checkWhen (b : Bool) (check : Option Err) : List (Option Err) := if b then [check] else []

theorem firstFailure_checkWhen (b : Bool) (check : Option Err) :
    firstFailure (checkWhen b check) = if b then check else none := by
  cases b
  · rfl
  · cases check <;> rfl

/-- The checks that the table of R299 asks of a command, in the order of R294. -/
def tableChecks (i : Instr) (s : State) : List (Option Err) :=
  checkWhen (needsSealedPhase i) (needsSealed s) ++ (checkWhen (needsConstruction i) (needsUnsealed s) ++
    (checkWhen (refusedInRound i) (needsNotInRound s) ++
      checkWhen (i == .pstep) (failIf (s.csr.pstate != 1#2) .badSequence)))

/-- What the table refuses a command with. -/
theorem firstFailure_tableChecks (i : Instr) (s : State) :
    firstFailure (tableChecks i s) =
      (if needsSealedPhase i then needsSealed s else none).or
        ((if needsConstruction i then needsUnsealed s else none).or
          ((if refusedInRound i then needsNotInRound s else none).or
            (if i == .pstep then failIf (s.csr.pstate != 1#2) .badSequence else none))) := by
  simp only [tableChecks, firstFailure_append, firstFailure_checkWhen]

/-- A command that makes the checks of the table first, and whose other checks and effect raise neither
ParamsSealed nor BadSequence. -/
def FollowsTable (i : Instr) (s : State) : Prop :=
  ∃ cs effect, exec i s = command s (tableChecks i s ++ cs) effect ∧
    (∀ c ∈ cs, c ≠ some .paramsSealed ∧ c ≠ some .badSequence) ∧
    effect ≠ .error .paramsSealed ∧ effect ≠ .error .badSequence

theorem wordCheck_ne_some {p : Nat} {region : Region} {v : Word} {e : Err}
    (hconf : .invalidConfiguration ≠ e) (hfield : .notInField ≠ e) : wordCheck p region v ≠ some e := by
  cases region <;> simp [wordCheck, hconf, hfield]

namespace FollowsTable

variable {i : Instr} {s : State}

/-- A command whose effect always has a value. -/
theorem of_done {u : State} {d : Word} (cs : List (Option Err))
    (hexec : exec i s = command s (tableChecks i s ++ cs) (.ok (u, d)))
    (hcs : ∀ c ∈ cs, c ≠ some .paramsSealed ∧ c ≠ some .badSequence) : FollowsTable i s :=
  ⟨cs, _, hexec, hcs, nofun, nofun⟩

/-- A command without checks of its own, whose effect, where it has no value, raises as the
functions of the rounds do (R241). -/
theorem of_effect {effect : Except Err (State × Word)}
    (hexec : exec i s = command s (tableChecks i s ++ []) effect)
    (heffect : ∀ e, effect = .error e → e = .invalidConfiguration ∨ e = .notInField) :
    FollowsTable i s :=
  ⟨[], effect, hexec, nofun, fun h => by cases heffect _ h <;> contradiction,
    fun h => by cases heffect _ h <;> contradiction⟩

theorem raisesOn (h : FollowsTable i s) {e : Err} (he : firstFailure (tableChecks i s) = some e) :
    RaisesOn i s e := by
  obtain ⟨cs, effect, hexec, -⟩ := h
  exact raisesOn_of_exec (hexec.trans (command_raises _ (by simp [firstFailure_append, he])))

/-- What the table allows is answered with another status. -/
theorem responds_of_allowed (h : FollowsTable i s) (hallowed : firstFailure (tableChecks i s) = none) :
    ∃ t r, exec i s = .next t ∧ t.responses = s.responses ++ [r] ∧ r.st ≠ 6#8 ∧ r.st ≠ 7#8 := by
  obtain ⟨cs, effect, hexec, hcs, hparams, hsequence⟩ := h
  have htable := firstFailure_eq_none.mp hallowed
  have hne {e : Err} (hown : ∀ c ∈ cs, c ≠ some e) (heffect : effect ≠ .error e) :
      exec i s ≠ .next (s.raise e) := by
    rw [hexec]
    refine command_ne_raise (fun c hc => ?_) heffect
    obtain hc | hc := List.mem_append.mp hc
    · rw [htable c hc]
      exact nofun
    · exact hown c hc
  obtain ⟨t, ht, ⟨e, -, rfl⟩ | ⟨u, d, hu, rfl⟩⟩ := exec_ends i s
  · refine ⟨_, ⟨e.code, 0#64⟩, ht, rfl, ?_⟩
    cases e with
    | paramsSealed => exact absurd ht (hne (fun c hc => (hcs c hc).1) hparams)
    | badSequence => exact absurd ht (hne (fun c hc => (hcs c hc).2) hsequence)
    | _ => decide
  · exact ⟨_, ⟨0#8, d⟩, ht, (hu.responds d).1, show 0#8 ≠ 6#8 ∧ 0#8 ≠ 7#8 by decide⟩

end FollowsTable

/-- The table of R299 is what every well-formed command checks first. -/
theorem exec_followsTable {i : Instr} (hi : i.wellFormed = true) (s : State) : FollowsTable i s := by
  cases i with
  | nop | rds | wrd | rdd | gett | field | unsealUnit | clrerr | preset | mov | fadd | fsub | fmul | fsqr
  | fdbl | fneg | fpow | mdsd | mdsc | mdsch | affine | arc | sboxf | sbox0 | bricks | bars | feis
  | pstart => exact .of_done [] rfl nofun
  | wrs rd => exact .of_done [failIf (s.p ≤ s.din.toNat) .notInField] rfl (by simp)
  | wrp addr =>
    refine .of_done [failIf (regionOf addr.toNat).isNone .badAddress,
      (regionOf addr.toNat).bind fun region => wordCheck s.p region s.din] rfl ?_
    cases regionOf addr.toNat <;> simp [wordCheck_ne_some]
  | rdp addr => exact .of_done [failIf (regionOf addr.toNat).isNone .badAddress] rfl (by simp)
  | csrw n =>
    have hn : isWritableCsr n = true := hi
    obtain ⟨c, hc⟩ := Option.ne_none_iff_exists'.mp (writeCsr_ne_none (c := s.csr) (v := s.din) hn)
    refine .of_done (u := s.setCsr c) (d := 0#64) [] ?_ nofun
    rw [show exec (.csrw n) s = execCsrw n s from rfl, execCsrw, hn, hc]
    rfl
  | csrr n =>
    obtain ⟨v, hv⟩ := Option.ne_none_iff_exists'.mp (readCsr_ne_none (c := s.csr) (n := n) hi)
    refine .of_done (u := s) (d := v) [failIf (!isCsr n) .illegalCommand] ?_ (by simp)
    rw [show exec (.csrr n) s = execCsrr n s from rfl, execCsrr, hv]
    rfl
  | sealUnit => exact .of_done [failIf (!sealOk s) .invalidConfiguration] rfl (by simp)
  | finv rd ra => exact .of_done [failIf (s.elem ra == 0) .noInverse] rfl (by simp)
  | decomp ra => exact .of_done [needsUsableRadix s] rfl (by simp [needsUsableRadix])
  | comp rd =>
    exact .of_done [needsUsableRadix s,
      failIf (s.p ≤ compose s.radices (s.digits s.numRadix)) .notInField] rfl
      (by simp [needsUsableRadix])
  | sboxi =>
    refine .of_effect rfl fun e h => ?_
    split at h <;> cases h
    exact .inl (sboxInv_error ‹_›)
  | rcbars =>
    refine .of_effect rfl fun e h => ?_
    split at h <;> cases h
    exact rcBars_error ‹_›
  | pstep =>
    refine .of_effect rfl fun e h => ?_
    split at h <;> cases h
    exact round_error ‹_›
  | perm =>
    refine .of_effect rfl fun e h => ?_
    split at h <;> cases h
    exact runRounds_error ‹_›

/-! ### The table, clause by clause -/

/-- A unit in a round is sealed (R48 (c)). -/
theorem sealed_of_inRound {s : State} (hs : Inv s) (hround : InRound s) : Sealed s := by
  by_contra hopen
  obtain ⟨hrest, -⟩ := hs.notStarted_of_open hopen
  rw [hround] at hrest
  cases hrest

theorem needsConstruction_of_refusedInRound {i : Instr} (h : refusedInRound i = true) :
    needsConstruction i = false := by
  cases i with
  | wrp | csrw | sealUnit => cases h
  | _ => rfl

section Table

variable {i : Instr} {s : State}

theorem tableChecks_of_not_sealed (hopen : ¬Sealed s) (hi : needsSealedPhase i = true) :
    firstFailure (tableChecks i s) = some .invalidConfiguration := by
  simp [firstFailure_tableChecks, hi, needsSealed_of_not_sealed hopen]

theorem tableChecks_of_sealed (hsealed : Sealed s) (hi : needsConstruction i = true) :
    firstFailure (tableChecks i s) = some .paramsSealed := by
  simp [firstFailure_tableChecks, hi, needsSealed_of_sealed hsealed, needsUnsealed_of_sealed hsealed]

theorem tableChecks_of_inRound (hsealed : Sealed s) (hround : InRound s)
    (hi : refusedInRound i = true) : firstFailure (tableChecks i s) = some .badSequence := by
  simp [firstFailure_tableChecks, hi, needsConstruction_of_refusedInRound hi,
    needsSealed_of_sealed hsealed, needsNotInRound_of_inRound hround]

theorem tableChecks_pstep_of_not_inRound (hsealed : Sealed s) (hround : ¬InRound s) :
    firstFailure (tableChecks .pstep s) = some .badSequence := by
  simp [firstFailure_tableChecks, needsConstruction, refusedInRound, needsSealed_of_sealed hsealed,
    needsInRound_of_not_inRound hround]

/-- In the construction phase, where no unit is in a round, the table allows what does not need the sealed
phase. -/
theorem tableChecks_allow_of_not_sealed (hopen : ¬Sealed s) (hround : ¬InRound s)
    (hi : needsSealedPhase i = false) : firstFailure (tableChecks i s) = none := by
  have hpstep : i ≠ .pstep := by
    rintro rfl
    cases hi
  simp [firstFailure_tableChecks, hi, hpstep, needsUnsealed_of_not_sealed hopen,
    needsNotInRound_of_not_inRound hround]

theorem tableChecks_allow_of_not_inRound (hsealed : Sealed s) (hround : ¬InRound s)
    (hi : needsConstruction i = false) (hpstep : i ≠ .pstep) :
    firstFailure (tableChecks i s) = none := by
  simp [firstFailure_tableChecks, hi, hpstep, needsSealed_of_sealed hsealed,
    needsNotInRound_of_not_inRound hround]

theorem tableChecks_allow_of_inRound (hsealed : Sealed s) (hround : InRound s)
    (hi : needsConstruction i = false) (hrefused : refusedInRound i = false) :
    firstFailure (tableChecks i s) = none := by
  simp [firstFailure_tableChecks, hi, hrefused, needsSealed_of_sealed hsealed,
    needsInRound_of_inRound hround]

end Table

/-- Settles O9: the first failure among the checks of the table decides each clause. -/
theorem phaseAndSequencerTable : Obligations.PhaseAndSequencerTable := by
  intro i s hs hi
  have htable := exec_followsTable hi s
  refine ⟨fun hopen hneeds => htable.raisesOn (tableChecks_of_not_sealed hopen hneeds),
    fun hsealed hneeds => htable.raisesOn (tableChecks_of_sealed hsealed hneeds),
    fun hround hrefused =>
      htable.raisesOn (tableChecks_of_inRound (sealed_of_inRound hs hround) hround hrefused),
    fun hsealed hround hpstep => ?_, fun hallowed => htable.responds_of_allowed ?_⟩
  · subst hpstep
    exact htable.raisesOn (tableChecks_pstep_of_not_inRound hsealed hround)
  · obtain ⟨hopen, hneeds⟩ | ⟨hsealed, hround, hneeds, hpstep⟩ | ⟨hround, hneeds, hrefused⟩ := hallowed
    · exact tableChecks_allow_of_not_sealed hopen (mt (sealed_of_inRound hs) hopen) hneeds
    · exact tableChecks_allow_of_not_inRound hsealed hround hneeds hpstep
    · exact tableChecks_allow_of_inRound (sealed_of_inRound hs hround) hround hneeds hrefused

end Sys2Proof.Machine

/-! # Reset

The reset event (R320). -/

namespace Sys2Proof.Machine

/-- But for the port's record, the unit after a reset event is the unit after reset (R47, R320). -/
@[simp] theorem takeReset_unit (s : State) (rest : List HostEvent) :
    (s.takeReset rest).unit = State.reset.unit := rfl

/-- Settles O15: the step takes the reset as a whole, and the port keeps the events that follow and the responses
given before. -/
theorem resetEventClearsUnit : Obligations.ResetEventClearsUnit :=
  fun s rest hinput => ⟨s.takeReset rest, step_reset hinput, takeReset_unit s rest,
    takeReset_input s rest, takeReset_responses s rest⟩

end Sys2Proof.Machine
